-- ==== Sys2Proof/Word.lean ====
section
/-! DEFINITION. The word and byte types of the core (R10, R12). -/

namespace Sys2Proof

/-- A register, a command word, a bus datum: 32 bits, unsigned (R10, R12). -/
abbrev Word := BitVec 32

/-- A byte of the data buffer or of a stream (R12). -/
abbrev Byte := BitVec 8

end Sys2Proof
end

