-- ==== Sys2Proof/Config.lean ====
section
/-! DEFINITION. What an implementation fixes (R9), and the free values: what the entropy source, the timing of WAIT and the
platform answer (R36, R55; U2, U3, U8). The free values are opaque constants: nothing can be proved of their values. -/

namespace Sys2Proof

namespace Config

/-- The named parameters of R9.  They do not change while a machine runs; State holds them so that every statement is made
for every legal choice at once (log entry 10). -/
structure Params where
  /-- `BUF_BYTES`: the size of the data buffer in bytes -/
  bufBytes : Nat
  /-- `NMAX_BYTES`: the largest byte length of a MODEXP operand -/
  nmaxBytes : Nat
deriving DecidableEq, Repr

/-- The legal ranges of R9. -/
def Params.legal (c : Params) : Bool :=
  c.bufBytes % 16 == 0 && decide (1024 ≤ c.bufBytes) && decide (c.bufBytes ≤ 65536) &&
  decide (65 ≤ c.nmaxBytes) && decide (c.nmaxBytes ≤ 4096)

/-- The values this hardware takes (R9): 65536 and 512. -/
def Params.default : Params := { bufBytes := 65536, nmaxBytes := 512 }

/-- FREE VALUE (log entry 4): whether the entropy source answers the `k`-th draw with a failure, where the environment has
queued no answer (R55, U2).  One function of the number alone: two cores with no answer queued and the same number fail alike, a
DESIGN CHOICE (log entry 16) that no rule gives. -/
opaque drawFails : Nat → Bool

/-- FREE VALUE (log entry 4): byte `i` of the entropy source's answer to the `k`-th draw (R55, U2).  One function of the two numbers
alone: two cores with no answer queued and the same number draw the same bytes, a DESIGN CHOICE (log entry 16) that no rule gives. -/
opaque drawByte : Nat → Nat → Byte

/-- FREE VALUE (log entry 5): what the `k`-th draw answers for `STATUS.WAIT` read while a stream command runs (R36, U3).  One
function of the number alone: two cores at the same number read the same, a DESIGN CHOICE (log entry 16) that no rule gives. -/
opaque waitSeen : Nat → Bool

/-- FREE VALUE (log entry 11): which 128 KiB window of the host's bus the platform gives the core (R9, U8). -/
opaque coreWindow : Nat

/-- `CORE_BASE`, the host bus address of register offset 0: the platform's choice, aligned to 0x20000 (R9, R93).  One constant: it is the window of the one core modelled, and that two cores would share it is a
DESIGN CHOICE (log entry 16) that no rule gives. -/
def coreBase : Nat := coreWindow * 0x20000

end Config

end Sys2Proof
end

