-- ==== Sys2Proof/Syntax.lean ====
section
/-! DEFINITION. The fifteen commands of the opcode table (R113), and the fields of a command word (R110). -/

namespace Sys2Proof

/-- The commands, one constructor per row of the opcode table (R113).  Only CBC_ENC and HYB_ENC carry flag bits (R114):
`isrc` is the IV source (`true`: the IV is read from the buffer), `ksrc` the key source (`true`: the key is read). -/
inductive Instr where
  | nop
  | rngFill
  | sha256
  | kexp
  | aesEnc
  | aesDec
  | cbcEnc (isrc : Bool)
  | cbcDec
  | modexp
  | hybEnc (isrc ksrc : Bool)
  | hybDec
  | frameTx
  | frameRx
  | rawTx
  | rawRx
deriving DecidableEq, Repr

/-- The fields of the one command format, CMD32 (R110). -/
structure CmdFields where
  /-- bits 7:0, the operation code -/
  opc : Byte
  /-- bit 8, the IV source -/
  isrc : Bool
  /-- bit 9, the key source -/
  ksrc : Bool
  /-- bits 31:10, reserved, must be 0 -/
  rsv : BitVec 22
deriving DecidableEq, Repr

/-- Why a command word is illegal: the four cases of R115. -/
inductive Illegal where
  /-- `OPC` is no assigned operation code -/
  | reservedOpcode
  /-- `RSV` is not 0 -/
  | reservedBits
  /-- `ISRC` = 1 on a command other than CBC_ENC and HYB_ENC -/
  | strayIsrc
  /-- `KSRC` = 1 on a command other than HYB_ENC -/
  | strayKsrc
deriving DecidableEq, Repr

/-- What the decoder reads from a word: a command, or ILLEGAL with the reason (R117). -/
inductive Decoded where
  | command (i : Instr)
  | illegal (why : Illegal)
deriving DecidableEq, Repr

/-- The stream commands (R16): they move bytes between the buffer and a stream, one byte a step.  Every other command is
a compute command and runs to completion in one step. -/
def Instr.isStream : Instr → Bool
  | .frameTx | .frameRx | .rawTx | .rawRx => true
  | .nop | .rngFill | .sha256 | .kexp | .aesEnc | .aesDec | .cbcEnc _ | .cbcDec | .modexp | .hybEnc _ _ | .hybDec => false

end Sys2Proof
end

