-- ==== Sys2Proof/WellFormed.lean ====
section
/-! DEFINITION. Which field values make a legal command word (R114), as four checks; R115 names the failure of each. -/

namespace Sys2Proof

/-- The assigned operation codes (R113). -/
def assignedOpcodes : List Byte :=
  [0x00, 0x01, 0x10, 0x20, 0x21, 0x22, 0x28, 0x29, 0x30, 0x40, 0x41, 0x50, 0x51, 0x52, 0x53]

/-- The operation codes that may set `ISRC`: CBC_ENC and HYB_ENC (R110, R114). -/
def isrcOpcodes : List Byte := [0x28, 0x40]

/-- The operation codes that may set `KSRC`: HYB_ENC (R110, R114). -/
def ksrcOpcodes : List Byte := [0x40]

/-- The operation code is assigned. -/
def CmdFields.opcOk (f : CmdFields) : Bool := assignedOpcodes.contains f.opc

/-- The reserved bits are 0. -/
def CmdFields.rsvOk (f : CmdFields) : Bool := f.rsv == 0

/-- `ISRC` is set only where the command takes it. -/
def CmdFields.isrcOk (f : CmdFields) : Bool := !f.isrc || isrcOpcodes.contains f.opc

/-- `KSRC` is set only where the command takes it. -/
def CmdFields.ksrcOk (f : CmdFields) : Bool := !f.ksrc || ksrcOpcodes.contains f.opc

/-- "A command word is legal exactly when `RSV` = 0 and the flag bits fit the opcode" (R114). -/
def CmdFields.wellFormed (f : CmdFields) : Bool := f.opcOk && f.rsvOk && f.isrcOk && f.ksrcOk

end Sys2Proof
end

