-- ==== Sys2Proof/Decode.lean ====
section
/-! DEFINITION. The decoder of command words (R114, R117), total on all 2^32 words and naming why a word is illegal (R115);
after it the encoder, written from the fields of R110 and the opcode map of R113. -/

namespace Sys2Proof

/-- The fields of a word (R110). -/
def fieldsOf (w : Word) : CmdFields where
  opc := w.extractLsb' 0 8
  isrc := w.getLsbD 8
  ksrc := w.getLsbD 9
  rsv := w.extractLsb' 10 22

/-- Why a word that matches no row is illegal: the first case of R115 that holds. -/
def illegalReason (w : Word) : Illegal :=
  if (fieldsOf w).opcOk = false then .reservedOpcode
  else if (fieldsOf w).rsvOk = false then .reservedBits
  else if (fieldsOf w).isrcOk = false then .strayIsrc
  else .strayKsrc

/-- The opcode table (R113, R114): each row's match, mask, and the command it makes of `ISRC` and `KSRC`. -/
def opcodeTable : List (Word × Word × (Bool → Bool → Instr)) :=
  [ (0x00000000#32, 0xFFFFFFFF#32, fun _ _ => .nop),
    (0x00000001#32, 0xFFFFFFFF#32, fun _ _ => .rngFill),
    (0x00000010#32, 0xFFFFFFFF#32, fun _ _ => .sha256),
    (0x00000020#32, 0xFFFFFFFF#32, fun _ _ => .kexp),
    (0x00000021#32, 0xFFFFFFFF#32, fun _ _ => .aesEnc),
    (0x00000022#32, 0xFFFFFFFF#32, fun _ _ => .aesDec),
    (0x00000028#32, 0xFFFFFEFF#32, fun isrc _ => .cbcEnc isrc),
    (0x00000029#32, 0xFFFFFFFF#32, fun _ _ => .cbcDec),
    (0x00000030#32, 0xFFFFFFFF#32, fun _ _ => .modexp),
    (0x00000040#32, 0xFFFFFCFF#32, fun isrc ksrc => .hybEnc isrc ksrc),
    (0x00000041#32, 0xFFFFFFFF#32, fun _ _ => .hybDec),
    (0x00000050#32, 0xFFFFFFFF#32, fun _ _ => .frameTx),
    (0x00000051#32, 0xFFFFFFFF#32, fun _ _ => .frameRx),
    (0x00000052#32, 0xFFFFFFFF#32, fun _ _ => .rawTx),
    (0x00000053#32, 0xFFFFFFFF#32, fun _ _ => .rawRx) ]

/-- `decode(word)` of R117: the first row with (word ∧ mask) = match, else ILLEGAL. -/
def decode (w : Word) : Decoded :=
  match opcodeTable.find? (fun row => w &&& row.2.1 == row.1) with
  | some row => .command (row.2.2 (w.getLsbD 8) (w.getLsbD 9))
  | none => .illegal (illegalReason w)

/-- The instruction the decoder reads from a table row's word, `nbits` bits wide (a command is one 32-bit word, R111; bits
above `nbits` are 0), and `none` where the decoder answers ILLEGAL. -/
def decodeTableWord (nbits w : Nat) : Option Instr :=
  if 32 < nbits then none
  else
    match decode (BitVec.ofNat 32 (w % 2 ^ nbits)) with
    | .command i => some i
    | .illegal _ => none

/-- The fields each command sets (R113, R114). -/
def Instr.fields : Instr → CmdFields
  | .nop => { opc := 0x00, isrc := false, ksrc := false, rsv := 0 }
  | .rngFill => { opc := 0x01, isrc := false, ksrc := false, rsv := 0 }
  | .sha256 => { opc := 0x10, isrc := false, ksrc := false, rsv := 0 }
  | .kexp => { opc := 0x20, isrc := false, ksrc := false, rsv := 0 }
  | .aesEnc => { opc := 0x21, isrc := false, ksrc := false, rsv := 0 }
  | .aesDec => { opc := 0x22, isrc := false, ksrc := false, rsv := 0 }
  | .cbcEnc isrc => { opc := 0x28, isrc := isrc, ksrc := false, rsv := 0 }
  | .cbcDec => { opc := 0x29, isrc := false, ksrc := false, rsv := 0 }
  | .modexp => { opc := 0x30, isrc := false, ksrc := false, rsv := 0 }
  | .hybEnc isrc ksrc => { opc := 0x40, isrc := isrc, ksrc := ksrc, rsv := 0 }
  | .hybDec => { opc := 0x41, isrc := false, ksrc := false, rsv := 0 }
  | .frameTx => { opc := 0x50, isrc := false, ksrc := false, rsv := 0 }
  | .frameRx => { opc := 0x51, isrc := false, ksrc := false, rsv := 0 }
  | .rawTx => { opc := 0x52, isrc := false, ksrc := false, rsv := 0 }
  | .rawRx => { opc := 0x53, isrc := false, ksrc := false, rsv := 0 }

/-- An instruction is well formed when its fields are (R114).  The flags of `Instr` admit no others, so every term is. -/
def Instr.wellFormed (i : Instr) : Bool := i.fields.wellFormed

/-- The word with the given fields (R110). -/
def CmdFields.word (f : CmdFields) : Word :=
  f.rsv ++ BitVec.ofBool f.ksrc ++ BitVec.ofBool f.isrc ++ f.opc

/-- The command word of an instruction (R110, R113, R118). -/
def encode (i : Instr) : Word := i.fields.word

end Sys2Proof
end

