-- ==== Sys2Proof/Machine/State.lean ====
section
/-! DEFINITION. The state of the core (R30 to R51), of the environment it reaches (R52 to R55) and of the host that drives it
(R11, R119), as plain data; the reasons a step stops; the state after reset (R57). -/

namespace Sys2Proof.Machine

/-- Why a step stops with a fault. -/
inductive Fault where
  /-- Raised by a host or command read of a buffer byte that nothing has written since reset: "a command or host read of
  such a byte is a fault of the model, not a value" (R42, U1).  Safe. -/
  | unwrittenByte
deriving DecidableEq, Repr

/-- Why a step is refused. -/
inductive Refusal where
  /-- Raised by an arm of exec whose instruction has no meaning yet.  Safe. -/
  | notModelled (mnemonic : String)
deriving DecidableEq, Repr

/-- The error codes the core can record (R330); 0x0B to 0xFF are reserved and never produced (U15). -/
inductive ErrCode where
  | eillegal
  | elen
  | ectlen
  | ebounds
  | emodzero
  | erng
  | ekeydec
  | eframelen
  | etrunc
  | etxclosed
deriving DecidableEq, Repr

/-- The fields of `STATUS` that hold a value (R35); its reserved bits read 0 and have no home. -/
structure Status where
  busy : Bool
  done : Bool
  err : Bool
  cancelled : Bool
  ovr : Bool
  haz : Bool
  wait : Bool
  errCode : Byte
deriving DecidableEq, Repr

/-- `STATUS` after reset: 0 (R57). -/
def Status.zero : Status :=
  { busy := false, done := false, err := false, cancelled := false, ovr := false, haz := false, wait := false, errCode := 0 }

/-- The data buffer (R42): the bytes that have a value, as (address, byte) pairs with strictly rising addresses.  A byte not
listed has no value. -/
abbrev Memory := List Host.Cell

/-- The phase of the command engine (R43). -/
inductive Phase where
  | idle
  | run (d : Decoded)
deriving DecidableEq, Repr

/-- What the engine captures at issue (R46). -/
structure Snapshot where
  word : Word
  params : Vector Word 16
deriving DecidableEq, Repr

/-- The progress of a stream command (R47).  `hdr_got` is the length of `hdr`. -/
structure Progress where
  /-- the bounds-check step has been taken (R339) -/
  checked : Bool
  /-- the header bytes received or sent so far; their number is `hdr_got` -/
  hdr : List Byte
  /-- `declared`: the length a received header gave -/
  declared : Word
  /-- `done_bytes`: payload bytes moved so far -/
  doneBytes : Nat
  /-- a transmit command's bytes still to be sent: what is left of its S (R294, R296), read before any byte moves (R91) -/
  pending : List Byte
deriving DecidableEq, Repr

/-- No progress: the counters at 0 (R47). -/
def Progress.zero : Progress :=
  { checked := false, hdr := [], declared := 0, doneBytes := 0, pending := [] }

/-- A four-byte word of the key schedule, or a column of the AES state: bytes 0 to 3 (R175, R180). -/
structure Quad where
  b0 : Byte
  b1 : Byte
  b2 : Byte
  b3 : Byte
deriving DecidableEq, Repr

/-- The 32-byte key register and the 240-byte round-key store (R45). -/
structure KeyStore where
  key : List Byte
  words : List Quad
deriving DecidableEq, Repr

/-- One answer of the entropy source: bytes, or a failure (R55). -/
inductive EntropyAnswer where
  | bytes (bs : List Byte)
  | fail
deriving DecidableEq, Repr

/-- The environment the core reaches (R52, R53, R55).  `txCredit`, `entropyQ` and `draws` are the model's own. -/
structure Env where
  rxQ : List Byte
  rxClosed : Bool
  txLog : List Byte
  txClosed : Bool
  /-- how many further offered bytes the TX environment accepts (log entry 6) -/
  txCredit : Nat
  /-- answers the entropy source has ready, oldest first (log entry 4) -/
  entropyQ : List EntropyAnswer
  /-- the number of the next free value (log entries 4 and 5) -/
  draws : Nat
deriving DecidableEq, Repr

/-- A place of the register window (R31). -/
inductive Reg where
  | id
  | ctrl
  | cmd
  | status
  | r (i : Fin 4)
  | bufsize
  | nmaxsize
  | p (i : Fin 16)
  /-- the buffer word at byte `a` -/
  | buf (a : Nat)
deriving DecidableEq, Repr

/-- One host bus access (R80, R81): an offset from `CORE_BASE`, a size in bytes, read or write, the value written. -/
structure Access where
  offset : Nat
  size : Nat
  write : Bool
  value : Word
deriving DecidableEq, Repr

/-- What the core answers to an access (R80). -/
inductive BusAnswer where
  /-- no access has been made yet -/
  | quiet
  /-- the value of a read -/
  | data (v : Word)
  /-- a write was served -/
  | ok
  /-- the access was refused (R81) -/
  | busError
deriving DecidableEq, Repr

/-- The base operations of a host program (R119), with labels resolved to line numbers. -/
inductive HostOp where
  | write (reg : Reg) (v : Word)
  | read (reg : Reg)
  | bne (reg : Reg) (mask value : Word) (target : Nat)
deriving DecidableEq, Repr

/-- The host (R11, R119).  All of it is the model's own. -/
structure HostAgent where
  /-- what the core answered to the last access -/
  bus : BusAnswer
  /-- the host program, one operation a line -/
  prog : List HostOp
  /-- the next line -/
  line : Nat
  /-- the values its `R` lines have read, oldest first -/
  reads : List Word
deriving DecidableEq, Repr

/-- One move of an agent (R11). -/
inductive Event where
  /-- the command engine takes a step -/
  | engine
  /-- the host makes an access -/
  | access (a : Access)
  /-- the host runs the next line of its program -/
  | hostLine
  /-- the RX environment appends a byte -/
  | rxByte (b : Byte)
  /-- the RX environment closes its stream -/
  | rxClose
  /-- the TX environment is ready to accept `n` more bytes -/
  | txReady (n : Nat)
  /-- the TX environment closes its stream -/
  | txClose
  /-- the entropy source makes an answer ready -/
  | entropy (a : EntropyAnswer)
  /-- the reset input is asserted -/
  | rstAssert
  /-- the reset input is deasserted -/
  | rstRelease
deriving DecidableEq, Repr

/-- The machine. -/
structure State where
  /-- `BUF_BYTES` and `NMAX_BYTES`, read as `BUFSIZE` and `NMAXSIZE` (R9, R38, R39) -/
  cfg : Config.Params
  /-- `CTRL.IRQ_EN`, the one bit of `CTRL` that holds a value (R33) -/
  irqEn : Bool
  /-- `CMD` (R34) -/
  cmd : Word
  /-- `STATUS` (R35) -/
  status : Status
  /-- `R0` to `R3` (R37) -/
  r : Vector Word 4
  /-- `P0` to `P15` (R40) -/
  p : Vector Word 16
  /-- the data buffer (R42) -/
  buf : Memory
  /-- the phase of the command engine (R43) -/
  phase : Phase
  /-- `abort_pending` (R44) -/
  abortPending : Bool
  /-- the command snapshot (R46) -/
  snap : Snapshot
  /-- the stream counters (R47) -/
  progress : Progress
  /-- the key and round-key working storage (R45); absent between steps -/
  keyStore : Option KeyStore
  /-- the reset input is asserted (R370) -/
  rst : Bool
  /-- the RX and TX streams and the entropy source (R52 to R55) -/
  env : Env
  /-- the host (R11, R119) -/
  host : HostAgent
  /-- the moves of the agents still to come, oldest first (R11; log entry 2) -/
  script : List Event
deriving DecidableEq, Repr

/-- The outcome of a command, an access or a step. -/
abbrev Result := Host.Outcome State Fault Refusal

/-- The environment the model starts with: empty open streams, nothing ready (DESIGN CHOICE, log entry 14). -/
def Env.start : Env :=
  { rxQ := [], rxClosed := false, txLog := [], txClosed := false, txCredit := 0, entropyQ := [], draws := 0 }

/-- The host the model starts with: no access made, no program (DESIGN CHOICE, log entry 14). -/
def HostAgent.start : HostAgent :=
  { bus := .quiet, prog := [], line := 0, reads := [] }

/-- The state right after reset (R57): every register 0, no buffer byte has a value, the engine idle. -/
def State.reset : State :=
  { cfg := Config.Params.default
    irqEn := false
    cmd := 0
    status := Status.zero
    r := Vector.replicate 4 0
    p := Vector.replicate 16 0
    buf := []
    phase := .idle
    abortPending := false
    snap := { word := 0, params := Vector.replicate 16 0 }
    progress := Progress.zero
    keyStore := none
    rst := false
    env := Env.start
    host := HostAgent.start
    script := [] }

end Sys2Proof.Machine
end

