-- ==== Sys2Proof/Machine/Bytes.lean ====
section
/-! DEFINITION. Byte strings and integers: the conversions of R13 and the byte-string notation of R12. -/

namespace Sys2Proof.Machine

/-- `be_int(s)`: the big-endian value of a byte string; `be_int(ε)` = 0 (R13). -/
def beInt (s : List Byte) : Nat :=
  s.foldl (fun acc b => acc * 256 + b.toNat) 0

/-- `be_bytes(x, n)`: the `n`-byte string whose big-endian value is `x`, for x < 256^n (R13). -/
def beBytes (x : Nat) : Nat → List Byte
  | 0 => []
  | n + 1 => beBytes (x / 256) n ++ [BitVec.ofNat 8 x]

/-- `bitlen(x)` (R13). -/
def bitLen (x : Nat) : Nat :=
  if x = 0 then 0 else Nat.log2 x + 1

/-- `be_min(x)`: the shortest big-endian string, one byte `00` for x = 0 (R13). -/
def beMin (x : Nat) : List Byte :=
  beBytes x (max 1 ((bitLen x + 7) / 8))

/-- `le32(s)` of a 4-byte string: the host bus lane order (R13, R82). -/
def le32 : List Byte → Word
  | [b0, b1, b2, b3] => b3 ++ b2 ++ b1 ++ b0
  | _ => 0

/-- The four lanes of a bus word, lane 0 first: byte j is bits 8j+7 : 8j (R82). -/
def lanes (v : Word) : List Byte :=
  [v.extractLsb' 0 8, v.extractLsb' 8 8, v.extractLsb' 16 8, v.extractLsb' 24 8]

/-- `s ⊕ t` of equal-length byte strings (R12). -/
def xorBytes (s t : List Byte) : List Byte :=
  List.zipWith (fun a b => a ^^^ b) s t

/-- The first `n` groups of `width` bytes of a byte string. -/
def groups (width : Nat) : Nat → List Byte → List (List Byte)
  | 0, _ => []
  | n + 1, s => s.take width :: groups width n (s.drop width)

end Sys2Proof.Machine
end

