-- ==== Sys2Proof/Machine/Flags.lean ====
section
/-! DEFINITION. The flags of the core are the fields of STATUS, with CTRL.IRQ_EN and the output irq beside them (R33, R35, R36, R48,
R56): how each event of a command sets them (R338, R340, R341, R343), how the host clears them, and the words it reads. -/

namespace Sys2Proof.Machine

/-- The code of an error (R330). -/
def ErrCode.code : ErrCode → Byte
  | .eillegal => 0x01
  | .elen => 0x02
  | .ectlen => 0x03
  | .ebounds => 0x04
  | .emodzero => 0x05
  | .erng => 0x06
  | .ekeydec => 0x07
  | .eframelen => 0x08
  | .etrunc => 0x09
  | .etxclosed => 0x0A

/-- The error classes of the source's taxonomy (R331). -/
def ErrCode.className : ErrCode → String
  | .eillegal | .eframelen => "ProtocolError"
  | .etrunc | .etxclosed => "NetworkError"
  | .ectlen | .emodzero | .ekeydec => "CryptoError"
  | .elen | .ebounds => "ValidationError"
  | .erng => "none"

/-- `STATUS` at issue (R338): `OVR` and `HAZ` are not cleared. -/
def Status.atIssue (st : Status) : Status :=
  { st with busy := true, done := false, err := false, cancelled := false, errCode := 0 }

/-- `STATUS` at successful completion (R340). -/
def Status.atDone (st : Status) : Status :=
  { st with busy := false, wait := false, done := true, errCode := 0 }

/-- `STATUS` at error completion (R341). -/
def Status.atErr (st : Status) (e : ErrCode) : Status :=
  { st with busy := false, wait := false, err := true, errCode := e.code }

/-- `STATUS` at cancelled completion (R343). -/
def Status.atCancel (st : Status) : Status :=
  { st with busy := false, wait := false, cancelled := true, errCode := 0 }

/-- A host write of `STATUS`: a written 1 clears each of bits 1 to 5, every other bit is ignored (R36). -/
def Status.writeOneClear (st : Status) (v : Word) : Status :=
  { st with
    done := st.done && !v.getLsbD 1
    err := st.err && !v.getLsbD 2
    cancelled := st.cancelled && !v.getLsbD 3
    ovr := st.ovr && !v.getLsbD 4
    haz := st.haz && !v.getLsbD 5 }

/-- The word `STATUS` reads as (R35), with the given value of bit 6, `WAIT`. -/
def Status.word (st : Status) (waitBit : Bool) : Word :=
  0#16 ++ st.errCode ++ BitVec.ofBool false ++ BitVec.ofBool waitBit ++ BitVec.ofBool st.haz ++ BitVec.ofBool st.ovr ++
    BitVec.ofBool st.cancelled ++ BitVec.ofBool st.err ++ BitVec.ofBool st.done ++ BitVec.ofBool st.busy

/-- The word `CTRL` reads as (R33): `ABORT`, `SRST` and the reserved bits read 0. -/
def ctrlWord (irqEn : Bool) : Word :=
  0#31 ++ BitVec.ofBool irqEn

/-- The level output `irq` (R56). -/
def State.irq (s : State) : Bool :=
  s.irqEn && (s.status.done || s.status.err || s.status.cancelled)

/-- A stream command is running (R36, R342). -/
def State.streamRunning (s : State) : Bool :=
  match s.phase with
  | .run (.command i) => i.isStream
  | .run (.illegal _) => false
  | .idle => false

end Sys2Proof.Machine
end

