-- ==== Sys2Proof/Machine/Ops.lean ====
section
/-! DEFINITION. The shared operations of R14 over the buffer, the registers, the streams and the entropy source; issue (R338) and the three
ways a command ends: finish (R340), raise (R341) and cancel (R343).  The core has no traps (R337): `State.raise` is the
whole of what an error does, and no operation returns from one (R346).  Reset stands here too (R370, R371). -/

namespace Sys2Proof.Machine

/-! ### The data buffer (R42, R82, R88) -/

/-- The value of one buffer byte, if it has one (R42). -/
def Memory.read (m : Memory) (a : Nat) : Option Byte :=
  List.lookup a m

/-- `Buf[a..a+n)`, if every byte of it has a value (R14, R42). -/
def Memory.readBytes (m : Memory) (a : Nat) : Nat → Option (List Byte)
  | 0 => some []
  | n + 1 =>
    match m.read a, m.readBytes (a + 1) n with
    | some b, some bs => some (b :: bs)
    | some _, none => none
    | none, _ => none

/-- The cells of a byte string stored at `a`. -/
def cellsAt (a : Nat) : List Byte → List Host.Cell
  | [] => []
  | b :: bs => (a, b) :: cellsAt (a + 1) bs

/-- `Buf[a + i] <- s[i]` for each byte of `s` (R14). -/
def Memory.writeBytes (m : Memory) (a : Nat) (s : List Byte) : Memory :=
  m.filter (fun c => decide (c.1 < a)) ++ cellsAt a s ++ m.filter (fun c => decide (a + s.length ≤ c.1))

/-- The canonical form of the buffer: strictly rising addresses. -/
abbrev Memory.wf (m : Memory) : Prop :=
  m.Pairwise (fun c d => c.1 < d.1)

/-- Every byte that has a value lies inside a buffer of `n` bytes (R42). -/
abbrev Memory.within (m : Memory) (n : Nat) : Prop :=
  ∀ c ∈ m, c.1 < n

/-- `MemRead(a, n)` (R14): the command goes on with the bytes; a byte with no value is the model's fault (R42). -/
def memRead (s : State) (a n : Nat) (k : List Byte → Result) : Result :=
  match s.buf.readBytes a n with
  | some bs => k bs
  | none => .fault .unwrittenByte

/-- `MemRead` of an input that is read only where its flag says so (R224, R273). -/
def memReadIf (cond : Bool) (s : State) (a n : Nat) (k : List Byte → Result) : Result :=
  if cond then memRead s a n k else k []

/-- `MemWrite(a, s)` (R14). -/
def State.memWrite (s : State) (a : Nat) (bs : List Byte) : State :=
  { s with buf := s.buf.writeBytes a bs }

/-- `MemWrite` of an output that is written only where its flag says so (R224, R273). -/
def State.memWriteIf (s : State) (cond : Bool) (a : Nat) (bs : List Byte) : State :=
  if cond then s.memWrite a bs else s

/-! ### Result registers (R37) -/

/-- `R[i] <- v` (R14). -/
def State.setR (s : State) (i : Fin 4) (v : Nat) : State :=
  { s with r := s.r.set i (BitVec.ofNat 32 v) }

/-- The counts a stream command writes at its end (R292, R294 to R297): `R[0]`, `R[1]`, `R[2]`. -/
def State.setCounts (s : State) (r0 r1 r2 : Nat) : State :=
  ((s.setR 0 r0).setR 1 r1).setR 2 r2

/-! ### Issue and completion (R338 to R343) -/

/-- Issue of the word `v` (R338). -/
def State.issue (s : State) (v : Word) : State :=
  { s with
    cmd := v
    snap := { word := v, params := s.p }
    status := s.status.atIssue
    r := Vector.replicate 4 0
    abortPending := false
    progress := Progress.zero
    phase := .run (decode v) }

/-- What every completion does beside `STATUS` (R340, R341, R343): the abort latch is cleared, the engine is `IDLE`; the key
storage holds no value (R45) and the stream counters none that shows (R47). -/
def State.complete (s : State) (st : Status) : State :=
  { s with status := st, abortPending := false, phase := .idle, keyStore := none, progress := Progress.zero }

/-- `finish`: successful completion (R340). -/
def State.finish (s : State) : State := s.complete s.status.atDone

/-- `raise E`: error completion (R341). -/
def State.raise (s : State) (e : ErrCode) : State := s.complete (s.status.atErr e)

/-- `cancel`: cancelled completion (R343). -/
def State.cancel (s : State) : State := s.complete s.status.atCancel

/-! ### Key working storage (R45, R182) -/

/-- The key register and the round-key store are loaded with a key and its schedule. -/
def State.loadKey (s : State) (key : List Byte) (words : List Quad) : State :=
  { s with keyStore := some { key := key, words := words } }

/-! ### The environment -/

/-- The environment has moved to `e`. -/
def State.withEnv (s : State) (e : Env) : State :=
  { s with env := e }

/-! ### Entropy (R55) -/

/-- The `n` bytes of an answer: those it gives, and free bytes for any it lacks. -/
def drawnBytes (k n : Nat) (bs : List Byte) : List Byte :=
  (List.range n).map (fun i => bs.getD i (Config.drawByte k i))

/-- `draw_entropy(n)` (R14): the bytes or a failure (`none`), and the environment after the draw.  `draw_entropy(0)` is ε
and consults nothing.  Where no answer is ready the source's answer is free (log entry 4). -/
def Env.draw (e : Env) (n : Nat) : Option (List Byte) × Env :=
  if n = 0 then (some [], e)
  else
    match e.entropyQ with
    | .bytes bs :: q => (some (drawnBytes e.draws n bs), { e with entropyQ := q, draws := e.draws + 1 })
    | .fail :: q => (none, { e with entropyQ := q, draws := e.draws + 1 })
    | [] =>
      (if Config.drawFails e.draws then none else some (drawnBytes e.draws n []), { e with draws := e.draws + 1 })

/-- `draw_entropy(n)`: the command goes on with the bytes, or raises `ERNG` (R14, R55).  What was drawn is lost (R335). -/
def drawEntropy (s : State) (n : Nat) (k : List Byte → State → Result) : Result :=
  match s.env.draw n with
  | (some bs, e) => k bs (s.withEnv e)
  | (none, e) => .next ((s.withEnv e).raise .erng)

/-- A value the command takes from the buffer where its flag says so, and draws otherwise (R224, R273). -/
def givenOrDrawn (given : Bool) (bs : List Byte) (n : Nat) (s : State) (k : List Byte → State → Result) : Result :=
  if given then k bs s else drawEntropy s n k

/-! ### Streams (R290, R291) -/

/-- The stream command is held at its byte: `STATUS.WAIT` = 1 and no step (R290, R291, U21). -/
def State.held (s : State) : State :=
  { s with status := { s.status with wait := true } }

/-- `STATUS.WAIT` <- 0 (R290, R291). -/
def State.unheld (s : State) : State :=
  { s with status := { s.status with wait := false } }

/-- `rx_take()` (R290).  A pending abort wins over a byte, a byte over a close.  The three continuations are the outcomes
`ABORTED`, `CLOSED` and a byte. -/
def rxTake (s : State) (aborted closed : State → State) (k : Byte → State → Result) : Result :=
  if s.abortPending then .next (aborted s.unheld)
  else
    match s.env.rxQ with
    | b :: q => k b (s.unheld.withEnv { s.env with rxQ := q })
    | [] => if s.env.rxClosed then .next (closed s.unheld) else .next s.held

/-- `tx_put(b)` (R291).  A pending abort wins over a close, a close over the acceptance of the byte, which the TX environment
gives while it has credit (log entry 6). -/
def txPut (s : State) (b : Byte) (aborted closed : State → State) (k : State → Result) : Result :=
  if s.abortPending then .next (aborted s.unheld)
  else if s.env.txClosed then .next (closed s.unheld)
  else
    match s.env.txCredit with
    | c + 1 => k (s.unheld.withEnv { s.env with txLog := s.env.txLog ++ [b], txCredit := c })
    | 0 => .next s.held

/-! ### Reset (R57, R370, R371) -/

/-- Every piece of core state takes its reset value; the parameters are constants, the environment and the host are outside
the core (R54, R57). -/
def State.afterReset (s : State) : State :=
  { State.reset with cfg := s.cfg, env := s.env, host := s.host, script := s.script }

/-! ### Host side registers (R34, R36, R40, R86) -/

/-- The core answers the host's access. -/
def State.answer (s : State) (a : BusAnswer) : State :=
  { s with host := { s.host with bus := a } }

/-- `STATUS.OVR` <- 1 (R34). -/
def State.markOvr (s : State) : State :=
  { s with status := { s.status with ovr := true } }

/-- `STATUS.HAZ` <- 1 (R86). -/
def State.markHaz (s : State) : State :=
  { s with status := { s.status with haz := true } }

/-- `P[i] <- v`, by the host (R40). -/
def State.setP (s : State) (i : Fin 16) (v : Word) : State :=
  { s with p := s.p.set i v }

/-- Whatever reads free value number `draws` moves the number on. -/
def State.tickDraw (s : State) : State :=
  { s with env := { s.env with draws := s.env.draws + 1 } }

end Sys2Proof.Machine
end

