-- ==== Sys2Proof/Machine/Operands.lean ====
section
/-! DEFINITION. Operand forms (R88, R89, R112, R116): every operand is a parameter register of the snapshot, read as an unsigned
number; a region is an address and a length.  The length and bounds checks every command shares (R90, R332). -/

namespace Sys2Proof.Machine

/-- `P[i]`: the parameter register as the running command sees it, from the snapshot, as an unsigned number (R14, R46). -/
def State.param (s : State) (i : Fin 16) : Nat :=
  (s.snap.params[i]).toNat

/-- The padded length of `len` bytes: L + 16 − (L mod 16) (R220). -/
def paddedLen (len : Nat) : Nat :=
  len + 16 - len % 16

/-- The region of `n` bytes at `a` lies in the buffer, in unbounded arithmetic (R90). -/
def State.inBuf (s : State) (a n : Nat) : Bool :=
  decide (a + n ≤ s.cfg.bufBytes)

/-- `check_region` of each region in turn: the command goes on, or raises `EBOUNDS` (R14, R90). -/
def checkRegions (s : State) (regions : List (Nat × Nat)) (k : Result) : Result :=
  match regions with
  | [] => k
  | (a, n) :: rest => if s.inBuf a n then checkRegions s rest k else .next (s.raise .ebounds)

/-- Operand lengths against `NMAX_BYTES`: the command goes on, or raises `ELEN` (R251, R273, R274). -/
def checkLens (s : State) (lens : List Nat) (k : Result) : Result :=
  if lens.any (fun n => decide (s.cfg.nmaxBytes < n)) then .next (s.raise .elen) else k

/-- Ciphertext length: the command goes on if it is a positive multiple of 16, or raises `ECTLEN` (R225, R274). -/
def checkCtLen (s : State) (len : Nat) (k : Result) : Result :=
  if len = 0 ∨ len % 16 ≠ 0 then .next (s.raise .ectlen) else k

end Sys2Proof.Machine
end

