-- ==== Sys2Proof/Machine/BlockCipher.lean ====
section
/-! DEFINITION. The block cipher AES-256 (R170 to R184) and the commands KEXP (R183), AES_ENC (R185) and AES_DEC (R186). -/

namespace Sys2Proof.Machine

/-! ### Byte arithmetic -/

/-- `xtime(b)` = b • 0x02 (R170). -/
def xtime (b : Byte) : Byte :=
  (b <<< 1) ^^^ (if b.getLsbD 7 then 0x1B else 0x00)

/-- The product by the low `n` bits of `a`, built from `xtime` and `⊕` (R170). -/
def gmulBits : Nat → Byte → Byte → Byte
  | 0, _, _ => 0
  | n + 1, a, b => (if a.getLsbD 0 then b else 0) ^^^ gmulBits n (a >>> 1) (xtime b)

/-- `a • b`: polynomial multiplication modulo x⁸ + x⁴ + x³ + x + 1 (R170). -/
def gmul (a b : Byte) : Byte := gmulBits 8 a b

/-- The product of the squarings b², b⁴, …, of which there are `n`, from b on. -/
def gsquares : Nat → Byte → Byte
  | 0, _ => 1
  | n + 1, b => gmul (gmul b b) (gsquares n (gmul b b))

/-- `inv(b)` (R171), computed as b to the 254th, 2 + 4 + … + 128: 0 for b = 0, and the c with b • c = 1 otherwise. -/
def ginv (b : Byte) : Byte := gsquares 7 b

/-- The affine step of the S-box: c ⊕ rotl8(c,1) ⊕ … ⊕ rotl8(c,4) ⊕ 0x63 (R172). -/
def sboxAffine (c : Byte) : Byte :=
  c ^^^ c.rotateLeft 1 ^^^ c.rotateLeft 2 ^^^ c.rotateLeft 3 ^^^ c.rotateLeft 4 ^^^ 0x63

/-! ### Tables -/

/-- The S-box: the row is the high digit of the byte, the column the low digit (R172). -/
def sboxTable : List (List Byte) := [
  [0x63, 0x7c, 0x77, 0x7b, 0xf2, 0x6b, 0x6f, 0xc5, 0x30, 0x01, 0x67, 0x2b, 0xfe, 0xd7, 0xab, 0x76],
  [0xca, 0x82, 0xc9, 0x7d, 0xfa, 0x59, 0x47, 0xf0, 0xad, 0xd4, 0xa2, 0xaf, 0x9c, 0xa4, 0x72, 0xc0],
  [0xb7, 0xfd, 0x93, 0x26, 0x36, 0x3f, 0xf7, 0xcc, 0x34, 0xa5, 0xe5, 0xf1, 0x71, 0xd8, 0x31, 0x15],
  [0x04, 0xc7, 0x23, 0xc3, 0x18, 0x96, 0x05, 0x9a, 0x07, 0x12, 0x80, 0xe2, 0xeb, 0x27, 0xb2, 0x75],
  [0x09, 0x83, 0x2c, 0x1a, 0x1b, 0x6e, 0x5a, 0xa0, 0x52, 0x3b, 0xd6, 0xb3, 0x29, 0xe3, 0x2f, 0x84],
  [0x53, 0xd1, 0x00, 0xed, 0x20, 0xfc, 0xb1, 0x5b, 0x6a, 0xcb, 0xbe, 0x39, 0x4a, 0x4c, 0x58, 0xcf],
  [0xd0, 0xef, 0xaa, 0xfb, 0x43, 0x4d, 0x33, 0x85, 0x45, 0xf9, 0x02, 0x7f, 0x50, 0x3c, 0x9f, 0xa8],
  [0x51, 0xa3, 0x40, 0x8f, 0x92, 0x9d, 0x38, 0xf5, 0xbc, 0xb6, 0xda, 0x21, 0x10, 0xff, 0xf3, 0xd2],
  [0xcd, 0x0c, 0x13, 0xec, 0x5f, 0x97, 0x44, 0x17, 0xc4, 0xa7, 0x7e, 0x3d, 0x64, 0x5d, 0x19, 0x73],
  [0x60, 0x81, 0x4f, 0xdc, 0x22, 0x2a, 0x90, 0x88, 0x46, 0xee, 0xb8, 0x14, 0xde, 0x5e, 0x0b, 0xdb],
  [0xe0, 0x32, 0x3a, 0x0a, 0x49, 0x06, 0x24, 0x5c, 0xc2, 0xd3, 0xac, 0x62, 0x91, 0x95, 0xe4, 0x79],
  [0xe7, 0xc8, 0x37, 0x6d, 0x8d, 0xd5, 0x4e, 0xa9, 0x6c, 0x56, 0xf4, 0xea, 0x65, 0x7a, 0xae, 0x08],
  [0xba, 0x78, 0x25, 0x2e, 0x1c, 0xa6, 0xb4, 0xc6, 0xe8, 0xdd, 0x74, 0x1f, 0x4b, 0xbd, 0x8b, 0x8a],
  [0x70, 0x3e, 0xb5, 0x66, 0x48, 0x03, 0xf6, 0x0e, 0x61, 0x35, 0x57, 0xb9, 0x86, 0xc1, 0x1d, 0x9e],
  [0xe1, 0xf8, 0x98, 0x11, 0x69, 0xd9, 0x8e, 0x94, 0x9b, 0x1e, 0x87, 0xe9, 0xce, 0x55, 0x28, 0xdf],
  [0x8c, 0xa1, 0x89, 0x0d, 0xbf, 0xe6, 0x42, 0x68, 0x41, 0x99, 0x2d, 0x0f, 0xb0, 0x54, 0xbb, 0x16]]

/-- The inverse S-box (R173). -/
def invSboxTable : List (List Byte) := [
  [0x52, 0x09, 0x6a, 0xd5, 0x30, 0x36, 0xa5, 0x38, 0xbf, 0x40, 0xa3, 0x9e, 0x81, 0xf3, 0xd7, 0xfb],
  [0x7c, 0xe3, 0x39, 0x82, 0x9b, 0x2f, 0xff, 0x87, 0x34, 0x8e, 0x43, 0x44, 0xc4, 0xde, 0xe9, 0xcb],
  [0x54, 0x7b, 0x94, 0x32, 0xa6, 0xc2, 0x23, 0x3d, 0xee, 0x4c, 0x95, 0x0b, 0x42, 0xfa, 0xc3, 0x4e],
  [0x08, 0x2e, 0xa1, 0x66, 0x28, 0xd9, 0x24, 0xb2, 0x76, 0x5b, 0xa2, 0x49, 0x6d, 0x8b, 0xd1, 0x25],
  [0x72, 0xf8, 0xf6, 0x64, 0x86, 0x68, 0x98, 0x16, 0xd4, 0xa4, 0x5c, 0xcc, 0x5d, 0x65, 0xb6, 0x92],
  [0x6c, 0x70, 0x48, 0x50, 0xfd, 0xed, 0xb9, 0xda, 0x5e, 0x15, 0x46, 0x57, 0xa7, 0x8d, 0x9d, 0x84],
  [0x90, 0xd8, 0xab, 0x00, 0x8c, 0xbc, 0xd3, 0x0a, 0xf7, 0xe4, 0x58, 0x05, 0xb8, 0xb3, 0x45, 0x06],
  [0xd0, 0x2c, 0x1e, 0x8f, 0xca, 0x3f, 0x0f, 0x02, 0xc1, 0xaf, 0xbd, 0x03, 0x01, 0x13, 0x8a, 0x6b],
  [0x3a, 0x91, 0x11, 0x41, 0x4f, 0x67, 0xdc, 0xea, 0x97, 0xf2, 0xcf, 0xce, 0xf0, 0xb4, 0xe6, 0x73],
  [0x96, 0xac, 0x74, 0x22, 0xe7, 0xad, 0x35, 0x85, 0xe2, 0xf9, 0x37, 0xe8, 0x1c, 0x75, 0xdf, 0x6e],
  [0x47, 0xf1, 0x1a, 0x71, 0x1d, 0x29, 0xc5, 0x89, 0x6f, 0xb7, 0x62, 0x0e, 0xaa, 0x18, 0xbe, 0x1b],
  [0xfc, 0x56, 0x3e, 0x4b, 0xc6, 0xd2, 0x79, 0x20, 0x9a, 0xdb, 0xc0, 0xfe, 0x78, 0xcd, 0x5a, 0xf4],
  [0x1f, 0xdd, 0xa8, 0x33, 0x88, 0x07, 0xc7, 0x31, 0xb1, 0x12, 0x10, 0x59, 0x27, 0x80, 0xec, 0x5f],
  [0x60, 0x51, 0x7f, 0xa9, 0x19, 0xb5, 0x4a, 0x0d, 0x2d, 0xe5, 0x7a, 0x9f, 0x93, 0xc9, 0x9c, 0xef],
  [0xa0, 0xe0, 0x3b, 0x4d, 0xae, 0x2a, 0xf5, 0xb0, 0xc8, 0xeb, 0xbb, 0x3c, 0x83, 0x53, 0x99, 0x61],
  [0x17, 0x2b, 0x04, 0x7e, 0xba, 0x77, 0xd6, 0x26, 0xe1, 0x69, 0x14, 0x63, 0x55, 0x21, 0x0c, 0x7d]]

/-- The entry of a table for a byte. -/
def tableAt (t : List (List Byte)) (a : Byte) : Byte :=
  (t.getD (a.toNat / 16) []).getD (a.toNat % 16) 0

/-- `S(a)` (R172). -/
def sbox (a : Byte) : Byte := tableAt sboxTable a

/-- `IS(a)` (R173). -/
def invSbox (a : Byte) : Byte := tableAt invSboxTable a

/-- `rc[j]` for j ≥ 1: rc[1] = 1, rc[j] = xtime(rc[j−1]) (R174).  Place 0 stands for no round and is 1 too. -/
def rcByte : Nat → Byte
  | 0 => 0x01
  | 1 => 0x01
  | j + 2 => xtime (rcByte (j + 1))

/-- `Rcon[j]` (R174). -/
def rcon (j : Nat) : Quad := { b0 := rcByte j, b1 := 0, b2 := 0, b3 := 0 }

/-! ### Four-byte words -/

/-- Bytewise exclusive or of four-byte words. -/
def Quad.xor (x y : Quad) : Quad :=
  { b0 := x.b0 ^^^ y.b0, b1 := x.b1 ^^^ y.b1, b2 := x.b2 ^^^ y.b2, b3 := x.b3 ^^^ y.b3 }

/-- A function applied to each byte. -/
def Quad.map (f : Byte → Byte) (x : Quad) : Quad :=
  { b0 := f x.b0, b1 := f x.b1, b2 := f x.b2, b3 := f x.b3 }

/-- The bytes of a word, byte 0 first. -/
def Quad.bytes (x : Quad) : List Byte := [x.b0, x.b1, x.b2, x.b3]

/-- The word with the given bytes. -/
def quadOf (s : List Byte) : Quad :=
  { b0 := s.getD 0 0, b1 := s.getD 1 0, b2 := s.getD 2 0, b3 := s.getD 3 0 }

/-! ### The state and its round operations -/

/-- The 4×4 byte state, column by column: row r of column c is byte r of `c`-th word (R175). -/
structure AesState where
  c0 : Quad
  c1 : Quad
  c2 : Quad
  c3 : Quad
deriving DecidableEq, Repr

/-- `load`: s[r][c] = in[r + 4c] (R175). -/
def aesLoad (x : List Byte) : AesState :=
  { c0 := quadOf x, c1 := quadOf (x.drop 4), c2 := quadOf (x.drop 8), c3 := quadOf (x.drop 12) }

/-- `store`: out[r + 4c] = s[r][c] (R175). -/
def aesStore (s : AesState) : List Byte :=
  s.c0.bytes ++ s.c1.bytes ++ s.c2.bytes ++ s.c3.bytes

/-- A function applied to each column. -/
def AesState.mapCols (f : Quad → Quad) (s : AesState) : AesState :=
  { c0 := f s.c0, c1 := f s.c1, c2 := f s.c2, c3 := f s.c3 }

/-- SubBytes (R176). -/
def subBytes (s : AesState) : AesState := s.mapCols (Quad.map sbox)

/-- InvSubBytes (R176). -/
def invSubBytes (s : AesState) : AesState := s.mapCols (Quad.map invSbox)

/-- ShiftRows: s'[r][c] = s[r][(c + r) mod 4] (R177). -/
def shiftRows (s : AesState) : AesState :=
  { c0 := { b0 := s.c0.b0, b1 := s.c1.b1, b2 := s.c2.b2, b3 := s.c3.b3 }
    c1 := { b0 := s.c1.b0, b1 := s.c2.b1, b2 := s.c3.b2, b3 := s.c0.b3 }
    c2 := { b0 := s.c2.b0, b1 := s.c3.b1, b2 := s.c0.b2, b3 := s.c1.b3 }
    c3 := { b0 := s.c3.b0, b1 := s.c0.b1, b2 := s.c1.b2, b3 := s.c2.b3 } }

/-- InvShiftRows: s'[r][c] = s[r][(c − r) mod 4] (R177). -/
def invShiftRows (s : AesState) : AesState :=
  { c0 := { b0 := s.c0.b0, b1 := s.c3.b1, b2 := s.c2.b2, b3 := s.c1.b3 }
    c1 := { b0 := s.c1.b0, b1 := s.c0.b1, b2 := s.c3.b2, b3 := s.c2.b3 }
    c2 := { b0 := s.c2.b0, b1 := s.c1.b1, b2 := s.c0.b2, b3 := s.c3.b3 }
    c3 := { b0 := s.c3.b0, b1 := s.c2.b1, b2 := s.c1.b2, b3 := s.c0.b3 } }

/-- One row of the matrix of MixColumns or InvMixColumns times a column (R178). -/
def mixRow (m0 m1 m2 m3 : Byte) (a : Quad) : Byte :=
  gmul m0 a.b0 ^^^ gmul m1 a.b1 ^^^ gmul m2 a.b2 ^^^ gmul m3 a.b3

/-- MixColumns on one column (R178). -/
def mixColumn (a : Quad) : Quad :=
  { b0 := mixRow 0x02 0x03 0x01 0x01 a
    b1 := mixRow 0x01 0x02 0x03 0x01 a
    b2 := mixRow 0x01 0x01 0x02 0x03 a
    b3 := mixRow 0x03 0x01 0x01 0x02 a }

/-- InvMixColumns on one column (R178). -/
def invMixColumn (a : Quad) : Quad :=
  { b0 := mixRow 0x0e 0x0b 0x0d 0x09 a
    b1 := mixRow 0x09 0x0e 0x0b 0x0d a
    b2 := mixRow 0x0d 0x09 0x0e 0x0b a
    b3 := mixRow 0x0b 0x0d 0x09 0x0e a }

/-- MixColumns (R178). -/
def mixColumns (s : AesState) : AesState := s.mapCols mixColumn

/-- InvMixColumns (R178). -/
def invMixColumns (s : AesState) : AesState := s.mapCols invMixColumn

/-- Word `k` of a schedule. -/
def wordAt (w : List Quad) (k : Nat) : Quad := w.getD k { b0 := 0, b1 := 0, b2 := 0, b3 := 0 }

/-- AddRoundKey(r): column c is XORed with word w[4r + c] (R179). -/
def addRoundKey (w : List Quad) (r : Nat) (s : AesState) : AesState :=
  { c0 := s.c0.xor (wordAt w (4 * r))
    c1 := s.c1.xor (wordAt w (4 * r + 1))
    c2 := s.c2.xor (wordAt w (4 * r + 2))
    c3 := s.c3.xor (wordAt w (4 * r + 3)) }

/-! ### Key schedule -/

/-- RotWord (R180). -/
def rotWord (x : Quad) : Quad := { b0 := x.b1, b1 := x.b2, b2 := x.b3, b3 := x.b0 }

/-- SubWord (R180). -/
def subWord (x : Quad) : Quad := x.map sbox

/-- Word `i` of the schedule for i ≥ 8, from the words before it with the newest first: w[i−1] and w[i−8] stand at places 0
and 7 (R180). -/
def keyWordNext (i : Nat) (newest : List Quad) : Quad :=
  let t := wordAt newest 0
  let t :=
    if i % 8 = 0 then (subWord (rotWord t)).xor (rcon (i / 8))
    else if i % 8 = 4 then subWord t
    else t
  (wordAt newest 7).xor t

/-- `n` more words from word `i` on, the newest first (R180). -/
def keyWordsGrow : Nat → Nat → List Quad → List Quad
  | 0, _, newest => newest
  | n + 1, i, newest => keyWordsGrow n (i + 1) (keyWordNext i newest :: newest)

/-- KeyExpansion: the words w[0..59] of a 32-byte key (R180). -/
def keyExpansion (key : List Byte) : List Quad :=
  (keyWordsGrow 52 8 ((groups 4 8 key).map quadOf).reverse).reverse

/-- The schedule as 240 bytes, word 0 first (R183). -/
def scheduleBytes (w : List Quad) : List Byte := w.flatMap Quad.bytes

/-! ### The cipher and its inverse -/

/-- One full round (R181). -/
def encRound (w : List Quad) (r : Nat) (s : AesState) : AesState :=
  addRoundKey w r (mixColumns (shiftRows (subBytes s)))

/-- One full round of the inverse cipher (R184). -/
def decRound (w : List Quad) (r : Nat) (s : AesState) : AesState :=
  invMixColumns (addRoundKey w r (invSubBytes (invShiftRows s)))

/-- Rounds 1 to `n`, in rising order. -/
def encRounds (w : List Quad) : Nat → AesState → AesState
  | 0, s => s
  | n + 1, s => encRound w (n + 1) (encRounds w n s)

/-- Rounds `n` down to 1. -/
def decRounds (w : List Quad) : Nat → AesState → AesState
  | 0, s => s
  | n + 1, s => decRounds w n (decRound w (n + 1) s)

/-- The cipher on one block, with a schedule (R181). -/
def encryptBlock (w : List Quad) (x : List Byte) : List Byte :=
  aesStore (addRoundKey w 14 (shiftRows (subBytes (encRounds w 13 (addRoundKey w 0 (aesLoad x))))))

/-- The inverse cipher on one block, with a schedule (R184). -/
def decryptBlock (w : List Quad) (y : List Byte) : List Byte :=
  aesStore (addRoundKey w 0 (invSubBytes (invShiftRows (decRounds w 13 (addRoundKey w 14 (aesLoad y))))))

/-- `AES256_Enc(K, X)` (R181). -/
def aes256Enc (key x : List Byte) : List Byte := encryptBlock (keyExpansion key) x

/-- `AES256_Dec(K, Y)` (R184). -/
def aes256Dec (key y : List Byte) : List Byte := decryptBlock (keyExpansion key) y

/-- The key storage is loaded with a key read or drawn and its fresh schedule, and the command goes on with the schedule
(R45, R182). -/
def withKey (s : State) (key : List Byte) (k : List Quad → State → Result) : Result :=
  let w := keyExpansion key
  k w (s.loadKey key w)

/-! ### The commands -/

/-- KEXP writes the expanded key schedule to the buffer (R183). -/
def execKexp (s : State) : Result :=
  let ka := s.param 0
  let dst := s.param 1
  checkRegions s [(ka, 32), (dst, 240)] <|
  memRead s ka 32 fun key =>
  withKey s key fun w s =>
  .next ((s.memWrite dst (scheduleBytes w)).setR 0 240).finish

/-- AES_ENC encrypts one 16-byte block (R185). -/
def execAesEnc (s : State) : Result :=
  let ka := s.param 0
  let src := s.param 1
  let dst := s.param 2
  checkRegions s [(ka, 32), (src, 16), (dst, 16)] <|
  memRead s ka 32 fun key =>
  memRead s src 16 fun x =>
  withKey s key fun w s =>
  .next ((s.memWrite dst (encryptBlock w x)).setR 0 16).finish

/-- AES_DEC decrypts one 16-byte block (R186). -/
def execAesDec (s : State) : Result :=
  let ka := s.param 0
  let src := s.param 1
  let dst := s.param 2
  checkRegions s [(ka, 32), (src, 16), (dst, 16)] <|
  memRead s ka 32 fun key =>
  memRead s src 16 fun y =>
  withKey s key fun w s =>
  .next ((s.memWrite dst (decryptBlock w y)).setR 0 16).finish

end Sys2Proof.Machine
end

