-- ==== Sys2Proof/Machine/Chained.lean ====
section
/-! DEFINITION. The chained mode with padding (R220 to R223) and the commands CBC_ENC (R224) and CBC_DEC (R225). -/

namespace Sys2Proof.Machine

/-- `pad(X)`: N bytes of value N, where N = 16 − (L mod 16) (R220). -/
def cbcPad (x : List Byte) : List Byte :=
  x ++ List.replicate (16 - x.length % 16) (BitVec.ofNat 8 (16 - x.length % 16))

/-- The chained blocks of an encryption: each block is XORed with the ciphertext block before it (R221). -/
def cbcEncBlocks (w : List Quad) : List Byte → List (List Byte) → List Byte
  | _, [] => []
  | prev, q :: qs =>
    let c := encryptBlock w (xorBytes q prev)
    c ++ cbcEncBlocks w c qs

/-- `CBC_Enc(K, IV, X)` with K's schedule (R221). -/
def cbcEnc (w : List Quad) (iv x : List Byte) : List Byte :=
  let q := cbcPad x
  cbcEncBlocks w iv (groups 16 (q.length / 16) q)

/-- The chained blocks of a decryption: each decrypted block is XORed with the ciphertext block before it (R222). -/
def cbcDecBlocks (w : List Quad) : List Byte → List (List Byte) → List Byte
  | _, [] => []
  | prev, y :: ys => xorBytes (decryptBlock w y) prev ++ cbcDecBlocks w y ys

/-- `CBC_DecRaw(K, IV, Y)` with K's schedule (R222). -/
def cbcDecRaw (w : List Quad) (iv y : List Byte) : List Byte :=
  cbcDecBlocks w iv (groups 16 (y.length / 16) y)

/-- The trailing byte, read as the pad count (R223). -/
def padCount (z : List Byte) : Nat := (z.getLastD 0).toNat

/-- `unpad(Z)`: the bytes kept and the pad count.  A count of 0 removes nothing, a count above the length leaves nothing
(R223). -/
def unpad (z : List Byte) : List Byte × Nat :=
  (z.take (z.length - padCount z), padCount z)

/-- CBC_ENC pads and CBC-encrypts a buffer region, with an IV drawn (`isrc` = 0) or read from the buffer (R224). -/
def execCbcEnc (isrc : Bool) (s : State) : Result :=
  let ka := s.param 0
  let src := s.param 1
  let len := s.param 2
  let dst := s.param 3
  let iva := s.param 4
  let lc := paddedLen len
  checkRegions s [(ka, 32), (src, len), (dst, lc), (iva, 16)] <|
  memRead s ka 32 fun key =>
  memRead s src len fun x =>
  memReadIf isrc s iva 16 fun ivIn =>
  givenOrDrawn isrc ivIn 16 s fun iv s =>
  withKey s key fun w s =>
  .next ((((s.memWrite dst (cbcEnc w iv x)).memWriteIf (!isrc) iva iv).setR 0 lc).finish)

/-- CBC_DEC CBC-decrypts a buffer region and strips the padding (R225). -/
def execCbcDec (s : State) : Result :=
  let ka := s.param 0
  let src := s.param 1
  let len := s.param 2
  let dst := s.param 3
  let iva := s.param 4
  checkCtLen s len <|
  checkRegions s [(ka, 32), (src, len), (dst, len), (iva, 16)] <|
  memRead s ka 32 fun key =>
  memRead s src len fun y =>
  memRead s iva 16 fun iv =>
  withKey s key fun w s =>
  let out := unpad (cbcDecRaw w iv y)
  .next ((((s.memWrite dst out.1).setR 0 out.1.length).setR 1 out.2).finish)

end Sys2Proof.Machine
end

