-- ==== Sys2Proof/Machine/Framing.lean ====
section
/-! DEFINITION. The frame serializer and deserializer and the raw streams: FRAME_TX (R294), FRAME_RX (R295), RAW_TX (R296), RAW_RX
(R297).  Each meaning is ONE engine step of the command: first the bounds check, then one byte a step (R292, R339); the
command completes in the step of its last byte (log entry 7). -/

namespace Sys2Proof.Machine

/-- `hdr(n)`: the length as an unsigned 32-bit big-endian number (R293). -/
def frameHeader (n : Nat) : List Byte := beBytes n 4

/-- `hdr_got` (R47). -/
def State.hdrGot (s : State) : Nat := s.progress.hdr.length

/-- The bounds-check step is taken; a transmit command holds the bytes it read, still to be sent. -/
def State.streamChecked (s : State) (pending : List Byte) : State :=
  { s with progress := { s.progress with checked := true, pending := pending } }

/-- A byte went out: the first four of a frame are its header, the others payload (R47, R294). -/
def State.sentByte (s : State) (framed : Bool) (b : Byte) (rest : List Byte) : State :=
  { s with
    progress :=
      if framed && decide (s.hdrGot < 4) then { s.progress with hdr := s.progress.hdr ++ [b], pending := rest }
      else { s.progress with doneBytes := s.progress.doneBytes + 1, pending := rest } }

/-- A header byte came in (R295). -/
def State.gotHeaderByte (s : State) (b : Byte) : State :=
  { s with progress := { s.progress with hdr := s.progress.hdr ++ [b] } }

/-- The header is complete and its length is known (R295). -/
def State.gotLength (s : State) (d : Nat) : State :=
  { s with progress := { s.progress with declared := BitVec.ofNat 32 d } }

/-- A payload byte came in and is stored (R292, R295, R297). -/
def State.gotPayloadByte (s : State) (a : Nat) (b : Byte) : State :=
  { s.memWrite a [b] with progress := { s.progress with doneBytes := s.progress.doneBytes + 1 } }

/-- One byte step of FRAME_TX or RAW_TX: the next pending byte is offered; with the last one accepted the command completes
(R294, R296).  `n` is the payload length; the counts are R0 = payload bytes, R1 = n, R2 = stream bytes. -/
def sendStep (s : State) (framed : Bool) (n : Nat) : Result :=
  let counts := fun (t : State) => t.setCounts s.progress.doneBytes n (s.hdrGot + s.progress.doneBytes)
  match s.progress.pending with
  | [] => .next (counts s).finish
  | b :: rest =>
    txPut s b (fun t => (counts t).cancel) (fun t => (counts t).raise .etxclosed) fun t =>
    let t := t.sentByte framed b rest
    if rest.isEmpty then .next (t.setCounts t.progress.doneBytes n (t.hdrGot + t.progress.doneBytes)).finish
    else .next t

/-- One payload byte step of FRAME_RX or RAW_RX, for a payload of `n` bytes at `dst`: a byte is taken and stored; with the last
one the command completes (R295, R297). -/
def receiveStep (s : State) (dst n : Nat) : Result :=
  let k := s.progress.doneBytes
  let counts := fun (t : State) => t.setCounts k n (s.hdrGot + k)
  rxTake s (fun t => (counts t).cancel) (fun t => (counts t).raise .etrunc) fun b t =>
  let t := t.gotPayloadByte (dst + k) b
  if k + 1 < n then .next t
  else .next (t.setCounts (k + 1) n (s.hdrGot + (k + 1))).finish

/-- One header byte step of FRAME_RX (R295): with the fourth byte the length is decoded and compared with the capacity. -/
def headerStep (s : State) (cap : Nat) : Result :=
  let counts := fun (t : State) => t.setCounts 0 0 s.hdrGot
  rxTake s (fun t => (counts t).cancel) (fun t => (counts t).raise .etrunc) fun b t =>
  let t := t.gotHeaderByte b
  if t.hdrGot < 4 then .next t
  else
    let d := beInt t.progress.hdr
    if cap < d then .next ((t.setCounts 0 d 4).raise .eframelen)
    else if d = 0 then .next (t.setCounts 0 0 4).finish
    else .next (t.gotLength d)

/-- FRAME_TX writes one frame to the TX stream (R294). -/
def execFrameTx (s : State) : Result :=
  let src := s.param 0
  let n := s.param 1
  if s.progress.checked then sendStep s true n
  else
    checkRegions s [(src, n)] <|
    memRead s src n fun bs =>
    .next (s.streamChecked (frameHeader n ++ bs))

/-- FRAME_RX reads one frame from the RX stream into the buffer (R295). -/
def execFrameRx (s : State) : Result :=
  let dst := s.param 0
  let cap := s.param 1
  if s.progress.checked then
    if s.hdrGot < 4 then headerStep s cap
    else receiveStep s dst s.progress.declared.toNat
  else
    checkRegions s [(dst, cap)] <|
    .next (s.streamChecked [])

/-- RAW_TX writes bytes to the TX stream with no header; no bytes complete at once (R296). -/
def execRawTx (s : State) : Result :=
  let src := s.param 0
  let n := s.param 1
  if s.progress.checked then sendStep s false n
  else
    checkRegions s [(src, n)] <|
    memRead s src n fun bs =>
    if n = 0 then .next (s.setCounts 0 0 0).finish
    else .next (s.streamChecked bs)

/-- RAW_RX reads exactly n bytes from the RX stream; no bytes complete at once (R297). -/
def execRawRx (s : State) : Result :=
  let dst := s.param 0
  let n := s.param 1
  if s.progress.checked then receiveStep s dst n
  else
    checkRegions s [(dst, n)] <|
    if n = 0 then .next (s.setCounts 0 0 0).finish
    else .next (s.streamChecked [])

end Sys2Proof.Machine
end

