-- ==== Sys2Proof/Machine/Hash.lean ====
section
/-! DEFINITION. The hash core: the function SHA-256 (R140 to R149) and the command SHA256 (R150). -/

namespace Sys2Proof.Machine

/-! ### Word operations and logical functions -/

/-- `rotr(x, n)` for 0 < n < 32 (R141). -/
def rotr (x : Word) (n : Nat) : Word := (x >>> n) ||| (x <<< (32 - n))

/-- "choice" (R142). -/
def shaCh (x y z : Word) : Word := (x &&& y) ^^^ (~~~x &&& z)

/-- "majority" (R142). -/
def shaMaj (x y z : Word) : Word := (x &&& y) ^^^ (x &&& z) ^^^ (y &&& z)

/-- The round sigma on `a`, Σ0 (R142). -/
def bigSigma0 (x : Word) : Word := rotr x 2 ^^^ rotr x 13 ^^^ rotr x 22

/-- The round sigma on `e`, Σ1 (R142). -/
def bigSigma1 (x : Word) : Word := rotr x 6 ^^^ rotr x 11 ^^^ rotr x 25

/-- The schedule sigma σ0 (R142). -/
def smallSigma0 (x : Word) : Word := rotr x 7 ^^^ rotr x 18 ^^^ (x >>> 3)

/-- The schedule sigma σ1 (R142). -/
def smallSigma1 (x : Word) : Word := rotr x 17 ^^^ rotr x 19 ^^^ (x >>> 10)

/-! ### Constants -/

/-- Eight 32-bit words: the hash value, or the working variables of a round (R143, R148). -/
structure HashVars where
  a : Word
  b : Word
  c : Word
  d : Word
  e : Word
  f : Word
  g : Word
  h : Word
deriving DecidableEq, Repr

/-- The initial hash value `H0` (R143). -/
def shaInit : HashVars :=
  { a := 0x6a09e667, b := 0xbb67ae85, c := 0x3c6ef372, d := 0xa54ff53a, e := 0x510e527f, f := 0x9b05688c, g := 0x1f83d9ab, h := 0x5be0cd19 }

/-- The round constants `K[0..63]` (R144). -/
def shaK : List Word :=
  [0x428a2f98, 0x71374491, 0xb5c0fbcf, 0xe9b5dba5, 0x3956c25b, 0x59f111f1, 0x923f82a4, 0xab1c5ed5] ++
  [0xd807aa98, 0x12835b01, 0x243185be, 0x550c7dc3, 0x72be5d74, 0x80deb1fe, 0x9bdc06a7, 0xc19bf174] ++
  [0xe49b69c1, 0xefbe4786, 0x0fc19dc6, 0x240ca1cc, 0x2de92c6f, 0x4a7484aa, 0x5cb0a9dc, 0x76f988da] ++
  [0x983e5152, 0xa831c66d, 0xb00327c8, 0xbf597fc7, 0xc6e00bf3, 0xd5a79147, 0x06ca6351, 0x14292967] ++
  [0x27b70a85, 0x2e1b2138, 0x4d2c6dfc, 0x53380d13, 0x650a7354, 0x766a0abb, 0x81c2c92e, 0x92722c85] ++
  [0xa2bfe8a1, 0xa81a664b, 0xc24b8b70, 0xc76c51a3, 0xd192e819, 0xd6990624, 0xf40e3585, 0x106aa070] ++
  [0x19a4c116, 0x1e376c08, 0x2748774c, 0x34b0bcb5, 0x391c0cb3, 0x4ed8aa4a, 0x5b9cca4f, 0x682e6ff3] ++
  [0x748f82ee, 0x78a5636f, 0x84c87814, 0x8cc70208, 0x90befffa, 0xa4506ceb, 0xbef9a3f7, 0xc67178f2]

/-! ### Padding, blocks, schedule -/

/-- `pad(M)` (R145): the least k with L + 1 + k ≡ 56 (mod 64) is (55 − L) mod 64, written here without negative numbers. -/
def shaPad (m : List Byte) : List Byte :=
  m ++ [0x80] ++ List.replicate ((55 + 64 - m.length % 64) % 64) 0 ++ beBytes (8 * m.length) 8

/-- A block read as sixteen big-endian words (R146). -/
def blockWords (block : List Byte) : List Word :=
  (groups 4 16 block).map (fun s => BitVec.ofNat 32 (beInt s))

/-- One more word of the schedule, from the words so far with the newest first: W[t−2], W[t−7], W[t−15], W[t−16] stand at
places 1, 6, 14, 15 (R147). -/
def scheduleNext (newest : List Word) : Word :=
  smallSigma1 (newest.getD 1 0) + newest.getD 6 0 + smallSigma0 (newest.getD 14 0) + newest.getD 15 0

/-- `n` more words of the schedule, the newest first (R147). -/
def scheduleGrow : Nat → List Word → List Word
  | 0, newest => newest
  | n + 1, newest => scheduleGrow n (scheduleNext newest :: newest)

/-- The message schedule W[0..63] of a block (R146, R147). -/
def schedule (block : List Byte) : List Word :=
  (scheduleGrow 48 (blockWords block).reverse).reverse

/-! ### Compression -/

/-- One round, with K[t] and W[t] (R148). -/
def shaRound (v : HashVars) (k w : Word) : HashVars :=
  let t1 := v.h + bigSigma1 v.e + shaCh v.e v.f v.g + k + w
  let t2 := bigSigma0 v.a + shaMaj v.a v.b v.c
  { a := t1 + t2, b := v.a, c := v.b, d := v.c, e := v.d + t1, f := v.e, g := v.f, h := v.g }

/-- The sixty-four rounds on a block's schedule (R148). -/
def shaRounds (v : HashVars) (w : List Word) : HashVars :=
  (shaK.zip w).foldl (fun v kw => shaRound v kw.1 kw.2) v

/-- The hash value after one more block (R148). -/
def shaBlock (hv : HashVars) (block : List Byte) : HashVars :=
  let v := shaRounds hv (schedule block)
  { a := hv.a + v.a, b := hv.b + v.b, c := hv.c + v.c, d := hv.d + v.d
    e := hv.e + v.e, f := hv.f + v.f, g := hv.g + v.g, h := hv.h + v.h }

/-- The eight final words, each as four big-endian bytes (R149). -/
def HashVars.bytes (hv : HashVars) : List Byte :=
  [hv.a, hv.b, hv.c, hv.d, hv.e, hv.f, hv.g, hv.h].flatMap (fun w => beBytes w.toNat 4)

/-- `SHA256(M)` (R140, R145 to R149). -/
def sha256 (m : List Byte) : List Byte :=
  let p := shaPad m
  ((groups 64 (p.length / 64) p).foldl shaBlock shaInit).bytes

/-! ### The command -/

/-- SHA256 computes the digest of a buffer region (R150). -/
def execSha256 (s : State) : Result :=
  let src := s.param 0
  let n := s.param 1
  let dst := s.param 2
  checkRegions s [(src, n), (dst, 32)] <|
  memRead s src n fun m =>
  .next ((s.memWrite dst (sha256 m)).setR 0 32).finish

end Sys2Proof.Machine
end

