-- ==== Sys2Proof/Machine/PublicKey.lean ====
section
/-! DEFINITION. Modular exponentiation (R250) and the command MODEXP (R251); RSA_ENC and RSA_DEC are other names of its word (R252,
R253). -/

namespace Sys2Proof.Machine

/-- Square and multiply over the low `k` bits of the exponent, for a base already reduced. -/
def powModBits (n : Nat) : Nat → Nat → Nat → Nat
  | 0, _, _ => 1 % n
  | k + 1, b, x =>
    let rest := powModBits n k (b * b % n) (x / 2)
    if x % 2 = 1 then b * rest % n else rest

/-- `modexp(b, x, n)` = b^x mod n (R250), by square and multiply: the method is free as long as the result is exact, and that it
is, is the statement ModexpIsTheModularPower. -/
def modexp (b x n : Nat) : Nat :=
  powModBits n (bitLen x) (b % n) x

/-- MODEXP computes a modular power of big-endian byte-string integers (R251). -/
def execModexp (s : State) : Result :=
  let ba := s.param 0
  let bl := s.param 1
  let ea := s.param 2
  let el := s.param 3
  let na := s.param 4
  let nl := s.param 5
  let dst := s.param 6
  checkLens s [bl, el, nl] <|
  checkRegions s [(ba, bl), (ea, el), (na, nl), (dst, nl)] <|
  memRead s ba bl fun b =>
  memRead s ea el fun x =>
  memRead s na nl fun n =>
  if beInt n = 0 then .next (s.raise .emodzero)
  else
    let out := beMin (modexp (beInt b) (beInt x) (beInt n))
    .next (((s.memWrite dst out).setR 0 out.length).finish)

end Sys2Proof.Machine
end

