-- ==== Sys2Proof/Machine/Hybrid.lean ====
section
/-! DEFINITION. The hybrid file codec: the key text (R271, R272), the wrapped key (R270), and the commands HYB_ENC (R273) and
HYB_DEC (R274). -/

namespace Sys2Proof.Machine

/-- `hexdigit(v)` for v in 0..15 (R271). -/
def hexDigit (v : Nat) : Byte :=
  if v < 10 then BitVec.ofNat 8 (0x30 + v) else BitVec.ofNat 8 (0x61 + v - 10)

/-- `keytext(K)`: lowercase hexadecimal digits, the high nibble of each byte first (R271). -/
def keyText (key : List Byte) : List Byte :=
  key.flatMap (fun b => [hexDigit (b.toNat / 16), hexDigit (b.toNat % 16)])

/-- The value of a lowercase hexadecimal digit, if the byte is one (R272). -/
def hexVal (t : Byte) : Option Nat :=
  if 0x30 ≤ t.toNat ∧ t.toNat ≤ 0x39 then some (t.toNat - 0x30)
  else if 0x61 ≤ t.toNat ∧ t.toNat ≤ 0x66 then some (t.toNat - 0x61 + 10)
  else none

/-- The bytes a text of digit pairs stands for. -/
def hexPairs : List Byte → Option (List Byte)
  | [] => some []
  | [_] => none
  | t0 :: t1 :: rest =>
    match hexVal t0, hexVal t1, hexPairs rest with
    | some v0, some v1, some bs => some (BitVec.ofNat 8 (16 * v0 + v1) :: bs)
    | _, _, _ => none

/-- `keyparse(T)`: exactly 64 lowercase hexadecimal digits, or a failure (R272). -/
def keyParse (t : List Byte) : Option (List Byte) :=
  if t.length = 64 then hexPairs t else none

/-- The wrapped key `WK` of a session key (R270). -/
def wrapKey (key : List Byte) (e n : Nat) : List Byte :=
  beMin (modexp (beInt (keyText key)) e n)

/-- HYB_ENC wraps a file payload for a recipient's public key (R273). -/
def execHybEnc (isrc ksrc : Bool) (s : State) : Result :=
  let fa := s.param 0
  let len := s.param 1
  let na := s.param 2
  let nl := s.param 3
  let ea := s.param 4
  let el := s.param 5
  let cd := s.param 6
  let wd := s.param 7
  let iva := s.param 8
  let ka := s.param 9
  let lc := paddedLen len
  checkLens s [nl, el] <|
  checkRegions s ([(fa, len), (na, nl), (ea, el), (cd, lc), (wd, nl), (iva, 16)] ++ if ksrc then [(ka, 32)] else []) <|
  memRead s fa len fun x =>
  memRead s na nl fun n =>
  memRead s ea el fun e =>
  memReadIf isrc s iva 16 fun ivIn =>
  memReadIf ksrc s ka 32 fun keyIn =>
  if beInt n = 0 then .next (s.raise .emodzero)
  else
    givenOrDrawn ksrc keyIn 32 s fun key s =>
    givenOrDrawn isrc ivIn 16 s fun iv s =>
    withKey s key fun w s =>
    let wk := wrapKey key (beInt e) (beInt n)
    .next ((((((s.memWrite cd (cbcEnc w iv x)).memWrite wd wk).memWriteIf (!isrc) iva iv).setR 0 lc).setR 1 wk.length).finish)

/-- HYB_DEC unwraps a file payload with the holder's private key (R274). -/
def execHybDec (s : State) : Result :=
  let ca := s.param 0
  let len := s.param 1
  let wa := s.param 2
  let wl := s.param 3
  let iva := s.param 4
  let na := s.param 5
  let nl := s.param 6
  let da := s.param 7
  let dl := s.param 8
  let dst := s.param 9
  checkLens s [wl, nl, dl] <|
  checkCtLen s len <|
  checkRegions s [(ca, len), (wa, wl), (iva, 16), (na, nl), (da, dl), (dst, len)] <|
  memRead s ca len fun y =>
  memRead s wa wl fun c =>
  memRead s iva 16 fun iv =>
  memRead s na nl fun n =>
  memRead s da dl fun d =>
  if beInt n = 0 then .next (s.raise .emodzero)
  else
    match keyParse (beMin (modexp (beInt c) (beInt d) (beInt n))) with
    | none => .next (s.raise .ekeydec)
    | some key =>
      withKey s key fun w s =>
      let out := unpad (cbcDecRaw w iv y)
      .next ((((s.memWrite dst out.1).setR 0 out.1.length).setR 1 out.2).finish)

end Sys2Proof.Machine
end

