-- ==== Sys2Proof/Machine/Misc.lean ====
section
/-! DEFINITION. The miscellaneous commands: NOP (R320) and RNG_FILL (R321). -/

namespace Sys2Proof.Machine

/-- NOP does nothing but complete (R320). -/
def execNop (s : State) : Result :=
  .next s.finish

/-- RNG_FILL writes fresh entropy bytes to the buffer (R321). -/
def execRngFill (s : State) : Result :=
  let dst := s.param 0
  let n := s.param 1
  checkRegions s [(dst, n)] <|
  drawEntropy s n fun v s =>
  .next ((s.memWrite dst v).setR 0 n).finish

end Sys2Proof.Machine
end

