-- ==== Sys2Proof/Machine/Dispatch.lean ====
section
/-! DEFINITION. One engine step of each command: one arm per row of the opcode table, each a call of that command's own meaning. -/

namespace Sys2Proof.Machine

/-- The engine runs the command `i` for one step in the state `s` (R339). -/
def exec (i : Instr) (s : State) : Host.Outcome State Fault Refusal :=
  match i with
  | .nop => Sys2Proof.Machine.execNop s
  | .rngFill => Sys2Proof.Machine.execRngFill s
  | .sha256 => Sys2Proof.Machine.execSha256 s
  | .kexp => Sys2Proof.Machine.execKexp s
  | .aesEnc => Sys2Proof.Machine.execAesEnc s
  | .aesDec => Sys2Proof.Machine.execAesDec s
  | .cbcEnc isrc => Sys2Proof.Machine.execCbcEnc isrc s
  | .cbcDec => Sys2Proof.Machine.execCbcDec s
  | .modexp => Sys2Proof.Machine.execModexp s
  | .hybEnc isrc ksrc => Sys2Proof.Machine.execHybEnc isrc ksrc s
  | .hybDec => Sys2Proof.Machine.execHybDec s
  | .frameTx => Sys2Proof.Machine.execFrameTx s
  | .frameRx => Sys2Proof.Machine.execFrameRx s
  | .rawTx => Sys2Proof.Machine.execRawTx s
  | .rawRx => Sys2Proof.Machine.execRawRx s

end Sys2Proof.Machine
end

