-- ==== Sys2Proof/Machine/Engine.lean ====
section
/-! DEFINITION. One step of the command engine (R338, R339), and the environment's own moves (R52, R53, R55, R370). -/

namespace Sys2Proof.Machine

/-- The engine takes a step: idle it does nothing; an illegal word ends with `EILLEGAL`; a command runs (R339, R351).  While
`rst` is asserted the engine is held, for a reset ends the command without a completion (R372; log entry 8). -/
def engineStep (s : State) : Result :=
  if s.rst then .next s
  else
    match s.phase with
    | .idle => .next s
    | .run (.illegal _) => .next (s.raise .eillegal)
    | .run (.command i) => exec i s

/-- The RX environment appends a byte while its stream is open (R52). -/
def State.rxAppend (s : State) (b : Byte) : State :=
  if s.env.rxClosed then s else { s with env := { s.env with rxQ := s.env.rxQ ++ [b] } }

/-- The RX environment closes its stream; once closed it stays closed (R52). -/
def State.rxCloses (s : State) : State :=
  { s with env := { s.env with rxClosed := true } }

/-- The TX environment is ready for `n` more bytes (R53; log entry 6). -/
def State.txReadyFor (s : State) (n : Nat) : State :=
  { s with env := { s.env with txCredit := s.env.txCredit + n } }

/-- The TX environment closes its stream; once closed it stays closed (R53). -/
def State.txCloses (s : State) : State :=
  { s with env := { s.env with txClosed := true } }

/-- The entropy source has an answer ready (R55; log entry 4). -/
def State.entropyReady (s : State) (a : EntropyAnswer) : State :=
  { s with env := { s.env with entropyQ := s.env.entropyQ ++ [a] } }

/-- The reset input is asserted (R370).  DESIGN CHOICE (log entry 8): the level of `irq` stays as it was until the release, after which
it is 0; the spec gives it only from the release on. -/
def State.rstAsserted (s : State) : State :=
  { s with rst := true }

/-- The reset input is deasserted: every piece of core state takes its reset value (R370).  DESIGN CHOICE (log entry 8): a release
while `rst` is not asserted, of which no rule speaks, resets the core all the same. -/
def State.rstReleased (s : State) : State := s.afterReset

end Sys2Proof.Machine
end

