-- ==== Sys2Proof/Machine/HostBus.lean ====
section
/-! DEFINITION. Host bus accesses: the register map (R31 to R41), the buffer window (R82, R84), what a read answers and what a write
does, while idle and while BUSY (R86), the soft reset (R371) and the abort request (R342). -/

namespace Sys2Proof.Machine

/-- The offset of a register (R31). -/
def Reg.offset : Reg → Nat
  | .id => 0x000
  | .ctrl => 0x004
  | .cmd => 0x008
  | .status => 0x00C
  | .r i => 0x010 + 4 * i.val
  | .bufsize => 0x020
  | .nmaxsize => 0x024
  | .p i => 0x040 + 4 * i.val
  | .buf a => 0x10000 + a

/-- The registers of the map outside the parameter and buffer windows (R31). -/
def namedRegs : List (Nat × Reg) :=
  [(0x000, .id), (0x004, .ctrl), (0x008, .cmd), (0x00C, .status), (0x010, .r 0), (0x014, .r 1), (0x018, .r 2),
    (0x01C, .r 3), (0x020, .bufsize), (0x024, .nmaxsize)]

/-- The register at an aligned offset, and `none` for a reserved offset (R31, R41, R82). -/
def regAt (bufBytes offset : Nat) : Option Reg :=
  if offset < 0x040 then namedRegs.lookup offset
  else if offset < 0x080 then some (.p (Fin.ofNat 16 ((offset - 0x040) / 4)))
  else if 0x10000 ≤ offset ∧ offset - 0x10000 + 4 ≤ bufBytes then some (.buf (offset - 0x10000))
  else none

/-- The access serves an aligned 32-bit word inside the window (R81). -/
def Access.served (a : Access) : Bool :=
  a.size == 4 && a.offset % 4 == 0 && decide (a.offset < 0x20000)

/-- The access at a host bus address, if the address lies in the core's window (R9, R93). -/
def Access.ofAddress (addr size : Nat) (write : Bool) (value : Word) : Option Access :=
  if Config.coreBase ≤ addr ∧ addr < Config.coreBase + 0x20000 then
    some { offset := addr - Config.coreBase, size := size, write := write, value := value }
  else none

/-- The value of `ID` (R32): MAGIC 0x5346, MAJOR 0x01, MINOR 0x00. -/
def idWord : Word := 0x5346#16 ++ 0x01#8 ++ 0x00#8

/-- A host read of `STATUS` (R35, R36): while a stream command runs, `WAIT` reads as a free value (U3, log entry 5), otherwise
as 0. -/
def readStatus (s : State) : State :=
  if s.streamRunning then s.tickDraw.answer (.data (s.status.word (Config.waitSeen s.env.draws)))
  else s.answer (.data (s.status.word false))

/-- A host read of the buffer word at byte `a` (R82, R84): while BUSY it answers 0 and sets `HAZ` (R86). -/
def readBuf (s : State) (a : Nat) : Result :=
  if s.status.busy then .next (s.markHaz.answer (.data 0))
  else memRead s a 4 fun bs => .next (s.answer (.data (le32 bs)))

/-- A host read of a register (R31 to R40). -/
def readReg (s : State) (reg : Reg) : Result :=
  match reg with
  | .id => .next (s.answer (.data idWord))
  | .ctrl => .next (s.answer (.data (ctrlWord s.irqEn)))
  | .cmd => .next (s.answer (.data s.cmd))
  | .status => .next (readStatus s)
  | .r i => .next (s.answer (.data s.r[i]))
  | .bufsize => .next (s.answer (.data (BitVec.ofNat 32 s.cfg.bufBytes)))
  | .nmaxsize => .next (s.answer (.data (BitVec.ofNat 32 s.cfg.nmaxBytes)))
  | .p i => .next (s.answer (.data s.p[i]))
  | .buf a => readBuf s a

/-- A host write of `CTRL` (R33, R342, R371): `SRST` resets and the other bits are ignored; otherwise `IRQ_EN` takes bit 0, and
`ABORT` sets the abort latch if a stream command runs. -/
def writeCtrl (s : State) (v : Word) : State :=
  if v.getLsbD 2 then s.afterReset
  else { s with irqEn := v.getLsbD 0, abortPending := s.abortPending || (v.getLsbD 1 && s.streamRunning) }

/-- A host write of `CMD` (R34): it issues a command, or is ignored while BUSY and sets `OVR`. -/
def writeCmd (s : State) (v : Word) : State :=
  if s.status.busy then s.markOvr else s.issue v

/-- A host write of a parameter register (R40, R86). -/
def writeP (s : State) (i : Fin 16) (v : Word) : State :=
  if s.status.busy then s.markHaz else s.setP i v

/-- A host write of the buffer word at byte `a` (R82, R84, R86). -/
def writeBuf (s : State) (a : Nat) (v : Word) : State :=
  if s.status.busy then s.markHaz else s.memWrite a (lanes v)

/-- A host write of a register (R31 to R40); writes of read-only registers are ignored. -/
def writeReg (s : State) (reg : Reg) (v : Word) : State :=
  match reg with
  | .id => s
  | .ctrl => writeCtrl s v
  | .cmd => writeCmd s v
  | .status => { s with status := s.status.writeOneClear v }
  | .r _ => s
  | .bufsize => s
  | .nmaxsize => s
  | .p i => writeP s i v
  | .buf a => writeBuf s a v

/-- A read at an offset of the window: a reserved offset reads 0 (R41). -/
def hostRead (s : State) (offset : Nat) : Result :=
  match regAt s.cfg.bufBytes offset with
  | some reg => readReg s reg
  | none => .next (s.answer (.data 0))

/-- A write at an offset of the window: at a reserved offset it is ignored (R41). -/
def hostWrite (s : State) (offset : Nat) (v : Word) : State :=
  match regAt s.cfg.bufBytes offset with
  | some reg => (writeReg s reg v).answer .ok
  | none => s.answer .ok

/-- One host access (R80, R81).  While `rst` is asserted accesses are ignored and reads answer 0 (R370; log entry 8).  A bus
error changes nothing but what the host sees (R81, R334; log entry 9). -/
def hostAccess (s : State) (a : Access) : Result :=
  if s.rst then .next (s.answer (if a.write then .ok else .data 0))
  else if a.served then
    if a.write then .next (hostWrite s a.offset a.value) else hostRead s a.offset
  else .next (s.answer .busError)

end Sys2Proof.Machine
end

