-- ==== Sys2Proof/Machine/HostProgram.lean ====
section
/-! DEFINITION. Assembler and host programs (R118 to R120): the text of a command word, the pseudo-operations and their expansions, and
the host agent that runs a program line by line with its own control flow (R119, R121). -/

namespace Sys2Proof.Machine

/-! ### Command mnemonics (R118) -/

/-- The mnemonic of a command (R113). -/
def mnemonic : Instr → String
  | .nop => "NOP"
  | .rngFill => "RNG_FILL"
  | .sha256 => "SHA256"
  | .kexp => "KEXP"
  | .aesEnc => "AES_ENC"
  | .aesDec => "AES_DEC"
  | .cbcEnc _ => "CBC_ENC"
  | .cbcDec => "CBC_DEC"
  | .modexp => "MODEXP"
  | .hybEnc _ _ => "HYB_ENC"
  | .hybDec => "HYB_DEC"
  | .frameTx => "FRAME_TX"
  | .frameRx => "FRAME_RX"
  | .rawTx => "RAW_TX"
  | .rawRx => "RAW_RX"

/-- A command as the assembler writes it: the mnemonic, `.keybuf` for `KSRC` = 1, then `.ivbuf` for `ISRC` = 1 (R118). -/
def assembly (i : Instr) : String :=
  mnemonic i ++ (if i.fields.ksrc then ".keybuf" else "") ++ (if i.fields.isrc then ".ivbuf" else "")

/-- A hexadecimal digit as a character (lower case: log entry 20). -/
def hexChar (v : Nat) : Char :=
  if v < 10 then Char.ofNat (0x30 + v) else Char.ofNat (0x61 + v - 10)

/-- The last `n` hexadecimal digits of a number, the highest first. -/
def hexDigits (x : Nat) : Nat → List Char
  | 0 => []
  | n + 1 => hexDigits (x / 16) n ++ [hexChar (x % 16)]

/-- A word as a disassembler prints it: a command, or `.word 0x` and eight digits (R118). -/
def disassemble (w : Word) : String :=
  match decode w with
  | .command i => assembly i
  | .illegal _ => ".word 0x" ++ String.ofList (hexDigits w.toNat 8)

/-! ### Programs and pseudo-operations (R119, R120) -/

/-- A statement of a host program's source: the base operations of R119, with labels, and the pseudo-operations of R120. -/
inductive Stmt where
  | label (n : Nat)
  | write (reg : Reg) (v : Word)
  | read (reg : Reg)
  | bne (reg : Reg) (mask value : Word) (lab : Nat)
  | wait
  | writeBytes (a : Nat) (s : List Byte)
  | readBytes (a n : Nat)
  | run (cmd : Word) (vals : List Word)
  | rsaEnc (m mlen e elen n nlen dst : Word)
  | rsaDec (c clen d dlen n nlen dst : Word)
  | clrst
deriving DecidableEq, Repr

/-- `WAIT`, at line `at_`: poll until `BUSY` = 0 (R120). -/
def waitOp (at_ : Nat) : HostOp := .bne .status 0x1 0x0 at_

/-- `W P0, v0` … `W Pk, vk` (R120). -/
def paramWrites (vals : List Word) : List HostOp :=
  (vals.take 16).zipIdx.map (fun v => .write (.p (Fin.ofNat 16 v.2)) v.1)

/-- `RUN`: the parameters, the command word, then `WAIT` (R120). -/
def runOps (at_ : Nat) (cmd : Word) (vals : List Word) : List HostOp :=
  let ops := paramWrites vals ++ [.write .cmd cmd]
  ops ++ [waitOp (at_ + ops.length)]

/-- `WB`: each group of four bytes as one buffer word, a final partial group padded with zero bytes (R120). -/
def writeBytesOps (a : Nat) (s : List Byte) : List HostOp :=
  (groups 4 ((s.length + 3) / 4) s).zipIdx.map
    (fun g => .write (.buf (a + 4 * g.2)) (le32 (g.1 ++ List.replicate (4 - g.1.length) 0)))

/-- `RB`: the buffer words that hold `n` bytes (R120). -/
def readBytesOps (a n : Nat) : List HostOp :=
  (List.range ((n + 3) / 4)).map (fun k => .read (.buf (a + 4 * k)))

/-- The operations of a statement that stands at line `at_`, with the lines of the labels (R119, R120).  RSA_ENC and RSA_DEC are
`RUN MODEXP` with the same seven operands (R252, R253); `CLRST` is `W STATUS, 0x3E`. -/
def Stmt.ops (lines : Nat → Nat) (at_ : Nat) : Stmt → List HostOp
  | .label _ => []
  | .write reg v => [.write reg v]
  | .read reg => [.read reg]
  | .bne reg mask value lab => [.bne reg mask value (lines lab)]
  | .wait => [waitOp at_]
  | .writeBytes a s => writeBytesOps a s
  | .readBytes a n => readBytesOps a n
  | .run cmd vals => runOps at_ cmd vals
  | .rsaEnc m mlen e elen n nlen dst => runOps at_ (encode .modexp) [m, mlen, e, elen, n, nlen, dst]
  | .rsaDec c clen d dlen n nlen dst => runOps at_ (encode .modexp) [c, clen, d, dlen, n, nlen, dst]
  | .clrst => [.write .status 0x3E]

/-- How many lines a statement takes: it does not depend on where it stands. -/
def Stmt.size (st : Stmt) : Nat := (st.ops (fun _ => 0) 0).length

/-- The line a label names: the next line after it (R119).  DESIGN CHOICE (log entry 13): of two labels with one number the first
in the program counts, and a label that is not there names the end of the program. -/
def labelLine (lab : Nat) : Nat → List Stmt → Nat
  | at_, [] => at_
  | at_, .label n :: rest => if n = lab then at_ else labelLine lab at_ rest
  | at_, st :: rest => labelLine lab (at_ + st.size) rest

/-- The operations of a program's statements from line `at_` on. -/
def opsFrom (lines : Nat → Nat) : Nat → List Stmt → List HostOp
  | _, [] => []
  | at_, st :: rest => st.ops lines at_ ++ opsFrom lines (at_ + st.size) rest

/-- A host program, its labels resolved and its pseudo-operations expanded (R119, R120). -/
def assembleProgram (prog : List Stmt) : List HostOp :=
  opsFrom (fun lab => labelLine lab 0 prog) 0 prog

/-! ### The host runs its program (R119) -/

/-- The access of a line. -/
def HostOp.access : HostOp → Access
  | .write reg v => { offset := reg.offset, size := 4, write := true, value := v }
  | .read reg => { offset := reg.offset, size := 4, write := false, value := 0 }
  | .bne reg _ _ _ => { offset := reg.offset, size := 4, write := false, value := 0 }

/-- The host goes to line `n`. -/
def State.hostGoto (s : State) (n : Nat) : State :=
  { s with host := { s.host with line := n } }

/-- The host keeps the value a read line gave (R119). -/
def State.hostKeeps (s : State) (v : Word) : State :=
  { s with host := { s.host with reads := s.host.reads ++ [v] } }

/-- The host after the access of the line `op` has been answered: a write goes on, a read keeps its value, `BNE` goes to its
target if (value ∧ mask) ≠ value (R119). -/
def afterLine (op : HostOp) (t : State) : State :=
  let next := t.hostGoto (t.host.line + 1)
  match op, t.host.bus with
  | .read _, .data v => next.hostKeeps v
  | .bne _ mask value target, .data v => if v &&& mask = value then next else t.hostGoto target
  | _, _ => next

/-- The host runs the next line of its program; past its end it does nothing. -/
def hostProgramStep (s : State) : Result :=
  match s.host.prog[s.host.line]? with
  | none => .next s
  | some op =>
    match hostAccess s op.access with
    | .next t => .next (afterLine op t)
    | .fault f => .fault f
    | .refused r => .refused r

end Sys2Proof.Machine
end

