-- ==== Sys2Proof/Machine/Events.lean ====
section
/-! DEFINITION. What each agent's move does (R11). -/

namespace Sys2Proof.Machine

/-- One move of an agent (R11). -/
def eventStep (e : Event) (s : State) : Result :=
  match e with
  | .engine => engineStep s
  | .access a => hostAccess s a
  | .hostLine => hostProgramStep s
  | .rxByte b => .next (s.rxAppend b)
  | .rxClose => .next s.rxCloses
  | .txReady n => .next (s.txReadyFor n)
  | .txClose => .next s.txCloses
  | .entropy a => .next (s.entropyReady a)
  | .rstAssert => .next s.rstAsserted
  | .rstRelease => .next s.rstReleased

/-- The next move of the script is taken from it; with no move left the engine takes its step (log entry 2). -/
def stepOnce (s : State) : Result :=
  match s.script with
  | [] => engineStep s
  | e :: rest => eventStep e { s with script := rest }

/-- The command word stored where the engine takes its next command from: the core does not fetch (R49), so the state is the
one right after the host's `CMD` write of that word (R338), and the engine moves next (log entry 1). -/
def State.withCommand (s : State) (nbits w : Nat) : State :=
  { s.issue (BitVec.ofNat 32 (w % 2 ^ nbits)) with rst := false, script := .engine :: s.script }

end Sys2Proof.Machine
end

