-- ==== Sys2Proof/Safety.lean ====
section
/-! DEFINITION. The terms in which the statements are made: the invariant of the machine, what a command leaves alone, what it
stores, how it ends, and the tables R116 (regions) and R333 (error codes) as the spec lists them. -/

namespace Sys2Proof.Machine

/-! ### The invariant -/

/-- The parameters lie in the ranges of R9. -/
abbrev State.CfgOk (s : State) : Prop := s.cfg.legal = true

/-- The buffer is in its canonical form and has no byte outside its `BUF_BYTES` (R42). -/
abbrev State.BufOk (s : State) : Prop := s.buf.wf ∧ s.buf.within s.cfg.bufBytes

/-- The four invariants of `STATUS` (R35). -/
abbrev State.StatusOk (s : State) : Prop :=
  (s.status.busy = true →
    s.status.done = false ∧ s.status.err = false ∧ s.status.cancelled = false ∧ s.status.errCode = 0) ∧
  (¬ (s.status.done = true ∧ s.status.err = true) ∧ ¬ (s.status.done = true ∧ s.status.cancelled = true) ∧
    ¬ (s.status.err = true ∧ s.status.cancelled = true)) ∧
  (s.status.err = true → s.status.errCode ≠ 0) ∧
  (s.status.wait = true → s.status.busy = true ∧ s.streamRunning = true)

/-- `STATUS.BUSY` is 0 exactly in the phase `IDLE` (R43). -/
abbrev State.PhaseOk (s : State) : Prop := s.status.busy = false ↔ s.phase = .idle

/-- While a command runs the snapshot equals the live registers and the command is what `CMD` decodes to (R46, R338). -/
abbrev State.SnapOk (s : State) : Prop :=
  s.phase ≠ .idle → s.snap.word = s.cmd ∧ s.snap.params = s.p ∧ s.phase = .run (decode s.cmd)

/-- The result registers are 0 while a command runs (R37, R86). -/
abbrev State.ResultsOk (s : State) : Prop := s.status.busy = true → s.r = Vector.replicate 4 0

/-- The abort latch is set only while a stream command runs (R44, R342). -/
abbrev State.AbortOk (s : State) : Prop := s.abortPending = true → s.streamRunning = true

/-- No key and no schedule is held between steps (R45, R182). -/
abbrev State.KeyOk (s : State) : Prop := s.keyStore = none

/-- Where a checked FRAME_TX stands: its region is in bounds, bytes are left, and every byte of header and payload is either
sent or pending (R294). -/
abbrev State.FrameTxOk (s : State) : Prop :=
  s.param 0 + s.param 1 ≤ s.cfg.bufBytes ∧ s.progress.pending ≠ [] ∧ s.progress.declared = 0 ∧ s.hdrGot ≤ 4 ∧
  (s.hdrGot < 4 → s.progress.doneBytes = 0) ∧
  s.hdrGot + s.progress.doneBytes + s.progress.pending.length = 4 + s.param 1

/-- Where a checked RAW_TX stands (R296). -/
abbrev State.RawTxOk (s : State) : Prop :=
  s.param 0 + s.param 1 ≤ s.cfg.bufBytes ∧ s.progress.pending ≠ [] ∧ s.progress.declared = 0 ∧ s.progress.hdr = [] ∧
  s.progress.doneBytes + s.progress.pending.length = s.param 1

/-- Where a checked FRAME_RX stands: in the header no payload byte is counted; after it the declared length is the header's,
within the capacity, and not yet reached (R295). -/
abbrev State.FrameRxOk (s : State) : Prop :=
  s.param 0 + s.param 1 ≤ s.cfg.bufBytes ∧ s.progress.pending = [] ∧ s.hdrGot ≤ 4 ∧
  (s.hdrGot < 4 → s.progress.declared = 0 ∧ s.progress.doneBytes = 0) ∧
  (s.hdrGot = 4 → s.progress.declared.toNat = beInt s.progress.hdr ∧ s.progress.declared.toNat ≤ s.param 1 ∧
    s.progress.doneBytes < s.progress.declared.toNat)

/-- Where a checked RAW_RX stands (R297). -/
abbrev State.RawRxOk (s : State) : Prop :=
  s.param 0 + s.param 1 ≤ s.cfg.bufBytes ∧ s.progress.pending = [] ∧ s.progress.declared = 0 ∧ s.progress.hdr = [] ∧
  s.progress.doneBytes < s.param 1

/-- The stream counters are 0 but for a stream command that has taken its bounds check (R47). -/
abbrev State.ProgressOk (s : State) : Prop :=
  (s.progress.checked = false → s.progress = Progress.zero) ∧
  (s.progress.checked = true →
    (s.phase = .run (.command .frameTx) ∧ s.FrameTxOk) ∨ (s.phase = .run (.command .frameRx) ∧ s.FrameRxOk) ∨
    (s.phase = .run (.command .rawTx) ∧ s.RawTxOk) ∨ (s.phase = .run (.command .rawRx) ∧ s.RawRxOk))

/-- The invariant of the machine. -/
abbrev State.Inv (s : State) : Prop :=
  s.CfgOk ∧ s.BufOk ∧ s.StatusOk ∧ s.PhaseOk ∧ s.SnapOk ∧ s.ResultsOk ∧ s.AbortOk ∧ s.KeyOk ∧ s.ProgressOk

/-! ### What a command leaves alone, and what it stores -/

/-- Every byte outside `[a, a + n)` reads as before. -/
def Memory.SameOutside (m m' : Memory) (a n : Nat) : Prop :=
  ∀ x, x < a ∨ a + n ≤ x → m'.read x = m.read x

/-- The bytes `bs` stand at `a`, and every byte outside them reads as before. -/
def Memory.Stored (m m' : Memory) (a : Nat) (bs : List Byte) : Prop :=
  m'.readBytes a bs.length = some bs ∧ m.SameOutside m' a bs.length

/-- Every byte reads as before. -/
def Memory.SameReads (m m' : Memory) : Prop := ∀ x, m'.read x = m.read x

/-- What no command changes: the parameters, `CTRL`, `CMD`, `P0` to `P15`, the snapshot, the reset input, the host and what is
still to come. -/
def State.SameHostSide (s t : State) : Prop :=
  t.cfg = s.cfg ∧ t.irqEn = s.irqEn ∧ t.cmd = s.cmd ∧ t.p = s.p ∧ t.snap = s.snap ∧ t.rst = s.rst ∧ t.host = s.host ∧
  t.script = s.script

/-- Both streams are as before. -/
def State.SameStreams (s t : State) : Prop :=
  t.env.rxQ = s.env.rxQ ∧ t.env.rxClosed = s.env.rxClosed ∧ t.env.txLog = s.env.txLog ∧
  t.env.txClosed = s.env.txClosed ∧ t.env.txCredit = s.env.txCredit

/-- The engine is idle, with no abort pending, no key held and the stream counters 0 (R340, R341, R343, R45).  That no bounds check is
taken and no byte is pending, the two fields of `progress` no rule gives a value, is the model's choice (log entry 14), and that the
key storage is absent its reading (log entry 12). -/
def State.EngineIdle (t : State) : Prop :=
  t.phase = .idle ∧ t.abortPending = false ∧ t.keyStore = none ∧ t.progress = Progress.zero

/-- `STATUS` after success (R340): the fields the rule names, and no other field changed. -/
def State.EndedDone (s t : State) : Prop :=
  t.EngineIdle ∧ t.status = { s.status with done := true, errCode := 0, busy := false, wait := false }

/-- `STATUS` after the error with code `c` (R341). -/
def State.EndedErr (s t : State) (c : Byte) : Prop :=
  t.EngineIdle ∧ t.status = { s.status with err := true, errCode := c, busy := false, wait := false }

/-- `STATUS` after a cancellation (R343). -/
def State.EndedCancelled (s t : State) : Prop :=
  t.EngineIdle ∧ t.status = { s.status with cancelled := true, errCode := 0, busy := false, wait := false }

/-- `R0` reads `v0` and the other result registers are as before. -/
def State.ResultIs (s t : State) (v0 : Nat) : Prop :=
  t.r[0] = BitVec.ofNat 32 v0 ∧ t.r[1] = s.r[1] ∧ t.r[2] = s.r[2] ∧ t.r[3] = s.r[3]

/-- `R0` and `R1` read `v0` and `v1` and the other result registers are as before. -/
def State.ResultsAre (s t : State) (v0 v1 : Nat) : Prop :=
  t.r[0] = BitVec.ofNat 32 v0 ∧ t.r[1] = BitVec.ofNat 32 v1 ∧ t.r[2] = s.r[2] ∧ t.r[3] = s.r[3]

/-- The counts of a stream command: `R0`, `R1`, `R2`; `R3` is as before. -/
def State.CountsAre (s t : State) (v0 v1 v2 : Nat) : Prop :=
  t.r[0] = BitVec.ofNat 32 v0 ∧ t.r[1] = BitVec.ofNat 32 v1 ∧ t.r[2] = BitVec.ofNat 32 v2 ∧ t.r[3] = s.r[3]

/-- The error `e` of a compute command, from `s`: nothing but `STATUS` and the engine's hidden state changes (R335, R341). -/
def State.FailsPrecisely (s t : State) (e : ErrCode) : Prop :=
  s.SameHostSide t ∧ s.SameStreams t ∧ t.buf = s.buf ∧ t.r = s.r ∧ s.EndedErr t e.code

/-! ### The spec's tables -/

/-- The regions each command checks, in order (R116 and the command's own rule). -/
def regionsOf (i : Instr) (s : State) : List (Nat × Nat) :=
  match i with
  | .nop => []
  | .rngFill => [(s.param 0, s.param 1)]
  | .sha256 => [(s.param 0, s.param 1), (s.param 2, 32)]
  | .kexp => [(s.param 0, 32), (s.param 1, 240)]
  | .aesEnc => [(s.param 0, 32), (s.param 1, 16), (s.param 2, 16)]
  | .aesDec => [(s.param 0, 32), (s.param 1, 16), (s.param 2, 16)]
  | .cbcEnc _ =>
    [(s.param 0, 32), (s.param 1, s.param 2), (s.param 3, s.param 2 + 16 - s.param 2 % 16), (s.param 4, 16)]
  | .cbcDec => [(s.param 0, 32), (s.param 1, s.param 2), (s.param 3, s.param 2), (s.param 4, 16)]
  | .modexp =>
    [(s.param 0, s.param 1), (s.param 2, s.param 3), (s.param 4, s.param 5), (s.param 6, s.param 5)]
  | .hybEnc _ ksrc =>
    [(s.param 0, s.param 1), (s.param 2, s.param 3), (s.param 4, s.param 5),
      (s.param 6, s.param 1 + 16 - s.param 1 % 16), (s.param 7, s.param 3), (s.param 8, 16)] ++
    (if ksrc then [(s.param 9, 32)] else [])
  | .hybDec =>
    [(s.param 0, s.param 1), (s.param 2, s.param 3), (s.param 4, 16), (s.param 5, s.param 6),
      (s.param 7, s.param 8), (s.param 9, s.param 1)]
  | .frameTx => [(s.param 0, s.param 1)]
  | .frameRx => [(s.param 0, s.param 1)]
  | .rawTx => [(s.param 0, s.param 1)]
  | .rawRx => [(s.param 0, s.param 1)]

/-- The operand lengths each command holds against `NMAX_BYTES` (R251, R273, R274). -/
def rsaLensOf (i : Instr) (s : State) : List Nat :=
  match i with
  | .modexp => [s.param 1, s.param 3, s.param 5]
  | .hybEnc _ _ => [s.param 3, s.param 5]
  | .hybDec => [s.param 3, s.param 6, s.param 8]
  | .nop | .rngFill | .sha256 | .kexp | .aesEnc | .aesDec | .cbcEnc _ | .cbcDec | .frameTx | .frameRx | .rawTx | .rawRx => []

/-- The ciphertext length each command requires to be a positive multiple of 16 (R225, R274). -/
def ctLensOf (i : Instr) (s : State) : List Nat :=
  match i with
  | .cbcDec => [s.param 2]
  | .hybDec => [s.param 1]
  | .nop | .rngFill | .sha256 | .kexp | .aesEnc | .aesDec | .cbcEnc _ | .modexp | .hybEnc _ _ | .frameTx | .frameRx
  | .rawTx | .rawRx => []

/-- Every operand length is within `NMAX_BYTES`. -/
def State.LensOk (s : State) (i : Instr) : Prop := ∀ n ∈ rsaLensOf i s, n ≤ s.cfg.nmaxBytes

/-- Every ciphertext length is a positive multiple of 16. -/
def State.CtLenOk (s : State) (i : Instr) : Prop := ∀ n ∈ ctLensOf i s, n ≠ 0 ∧ n % 16 = 0

/-- Every region lies in the buffer (R90). -/
def State.RegionsOk (s : State) (i : Instr) : Prop := ∀ g ∈ regionsOf i s, g.1 + g.2 ≤ s.cfg.bufBytes

/-- The input regions each command reads once its checks have passed (the command's own rule): an IV or a key only where its flag
says so. -/
def inputsOf (i : Instr) (s : State) : List (Nat × Nat) :=
  match i with
  | .nop | .rngFill | .frameRx | .rawRx => []
  | .sha256 => [(s.param 0, s.param 1)]
  | .kexp => [(s.param 0, 32)]
  | .aesEnc => [(s.param 0, 32), (s.param 1, 16)]
  | .aesDec => [(s.param 0, 32), (s.param 1, 16)]
  | .cbcEnc isrc => [(s.param 0, 32), (s.param 1, s.param 2)] ++ (if isrc then [(s.param 4, 16)] else [])
  | .cbcDec => [(s.param 0, 32), (s.param 1, s.param 2), (s.param 4, 16)]
  | .modexp => [(s.param 0, s.param 1), (s.param 2, s.param 3), (s.param 4, s.param 5)]
  | .hybEnc isrc ksrc =>
    [(s.param 0, s.param 1), (s.param 2, s.param 3), (s.param 4, s.param 5)] ++
    (if isrc then [(s.param 8, 16)] else []) ++ (if ksrc then [(s.param 9, 32)] else [])
  | .hybDec =>
    [(s.param 0, s.param 1), (s.param 2, s.param 3), (s.param 4, 16), (s.param 5, s.param 6), (s.param 7, s.param 8)]
  | .frameTx => [(s.param 0, s.param 1)]
  | .rawTx => [(s.param 0, s.param 1)]

/-- Some byte the command reads has no value (R42). -/
def State.InputUnwritten (s : State) (i : Instr) : Prop :=
  ∃ g ∈ inputsOf i s, ∃ k, k < g.2 ∧ s.buf.read (g.1 + k) = none

/-- The codes each command can raise (the table of R333). -/
def raisable (i : Instr) : List ErrCode :=
  match i with
  | .nop => []
  | .rngFill => [.ebounds, .erng]
  | .sha256 => [.ebounds]
  | .kexp => [.ebounds]
  | .aesEnc => [.ebounds]
  | .aesDec => [.ebounds]
  | .cbcEnc isrc => [.ebounds] ++ (if isrc then [] else [.erng])
  | .cbcDec => [.ectlen, .ebounds]
  | .modexp => [.elen, .ebounds, .emodzero]
  | .hybEnc isrc ksrc => [.elen, .ebounds, .emodzero] ++ (if isrc && ksrc then [] else [.erng])
  | .hybDec => [.elen, .ectlen, .ebounds, .emodzero, .ekeydec]
  | .frameTx => [.ebounds, .etxclosed]
  | .frameRx => [.ebounds, .eframelen, .etrunc]
  | .rawTx => [.ebounds, .etxclosed]
  | .rawRx => [.ebounds, .etrunc]

/-! ### Accesses, moves and runs -/

/-- An aligned 32-bit read at an offset. -/
def readAt (offset : Nat) : Access := { offset := offset, size := 4, write := false, value := 0 }

/-- An aligned 32-bit write at an offset. -/
def writeAt (offset : Nat) (v : Word) : Access := { offset := offset, size := 4, write := true, value := v }

/-- The byte a move of the RX environment brings, if it brings one. -/
def rxByteOf (m : Event) : Option Byte :=
  match m with
  | .rxByte b => some b
  | .engine | .access _ | .hostLine | .rxClose | .txReady _ | .txClose | .entropy _ | .rstAssert | .rstRelease => none

/-- In a program with `pre` before it and `post` after it, the statement `st` stands as the lines `ops` between theirs. -/
def StandsAs (pre : List Stmt) (st : Stmt) (post : List Stmt) (ops : List HostOp) : Prop :=
  ∃ before after, assembleProgram (pre ++ st :: post) = before ++ ops ++ after ∧
    before.length = (assembleProgram pre).length ∧ after.length = (assembleProgram post).length

/-- The values R57 lists for the core's own state.  That no bounds check is taken and no byte is pending, the two fields of `progress`
R57 does not name, is the model's choice (log entry 14), and that the key storage is absent its reading (log entry 12). -/
def State.HasResetValues (t : State) : Prop :=
  t.irqEn = false ∧ t.cmd = 0 ∧ t.status = Status.zero ∧ (∀ i : Fin 4, t.r[i] = 0) ∧ (∀ i : Fin 16, t.p[i] = 0) ∧
  (∀ a, t.buf.read a = none) ∧ t.phase = .idle ∧ t.abortPending = false ∧ t.keyStore = none ∧
  t.progress = Progress.zero ∧ t.irq = false ∧ t.rst = false

/-- A FRAME_TX or other stream command right after issue, its engine free to run (R338): no progress, no abort, no reset. -/
def State.FreshStream (s : State) (i : Instr) : Prop :=
  s.rst = false ∧ s.phase = .run (.command i) ∧ s.progress = Progress.zero ∧ s.abortPending = false

/-- `n` steps, stopping at the first fault or refusal. -/
def runFor : Nat → State → Result
  | 0, s => .next s
  | n + 1, s =>
    match step s with
    | .next t => runFor n t
    | .fault f => .fault f
    | .refused r => .refused r

end Sys2Proof.Machine
end

