-- ==== Sys2Proof/Certificates/Slice0/Obligations.lean ====
section
/-! DEFINITION. The statements for the provers, in the order of OBLIGATIONS.json: decoding, reset and invariant, the host's side, each
command's result with what it leaves alone, errors, streams, and the laws of the algorithms. -/

open Sys2Proof Sys2Proof.Machine

/-! ### Decoding and the step -/

/-- R110, R113, R114, R117: decoding reads exactly the words the encoder writes, so no bit of a word is dropped and no two
commands share a word. -/
def Obligations.DecodesExactlyTheEncodedWords : Prop :=
  ∀ (w : Word) (i : Instr), decode w = .command i ↔ w = encode i

/-- R114, whole: a word is legal exactly when `RSV` = 0 and the flag bits fit the opcode; a row selects the words with
(word ∧ mask) = match; no two rows match the same word. -/
def Obligations.LegalWordsFollowTheFlagTable : Prop :=
  (∀ w : Word, (∃ i, decode w = .command i) ↔ (fieldsOf w).wellFormed = true) ∧
  (∀ w : Word, ∀ row ∈ opcodeTable, w &&& row.2.1 = row.1 →
    decode w = .command (row.2.2 (w.getLsbD 8) (w.getLsbD 9))) ∧
  opcodeTable.Pairwise (fun row row' => ∀ w : Word, w &&& row.2.1 = row.1 → w &&& row'.2.1 ≠ row'.1)

/-- R115, whole: every word is one of the fifteen commands or illegal for one of the four reasons; an illegal word written to
`CMD` while idle is issued and completes with `EILLEGAL`, changing nothing else; NOP is only the word 0.  That after the completion
no bounds check is taken and no byte is pending is the model's choice (log entry 14), and that the key storage is absent its reading
(log entry 12). -/
def Obligations.IllegalWordsCompleteWithEillegal : Prop :=
  (∀ w : Word, (∃ i, decode w = .command i) ∨ (∃ why, decode w = .illegal why)) ∧
  (∀ (w : Word) (why : Illegal), decode w = .illegal why →
    (fieldsOf w).wellFormed = false ∧
    (why = .reservedOpcode → (fieldsOf w).opc ∉ assignedOpcodes) ∧
    (why = .reservedBits → (fieldsOf w).rsv ≠ 0) ∧
    (why = .strayIsrc → (fieldsOf w).isrc = true ∧ (fieldsOf w).opc ≠ 0x28 ∧ (fieldsOf w).opc ≠ 0x40) ∧
    (why = .strayKsrc → (fieldsOf w).ksrc = true ∧ (fieldsOf w).opc ≠ 0x40)) ∧
  (∀ (s : State) (w : Word) (why : Illegal), s.rst = false → s.status.busy = false → decode w = .illegal why →
    ∃ u t, hostAccess s (writeAt 0x008 w) = .next u ∧ engineStep u = .next t ∧ u.EndedErr t 0x01 ∧ t.cmd = w ∧
      (∀ i : Fin 4, t.r[i] = 0) ∧ t.buf = s.buf ∧ t.env = s.env ∧ t.p = s.p ∧ t.irqEn = s.irqEn ∧ t.cfg = s.cfg) ∧
  (∀ w : Word, decode w = .command .nop ↔ w = 0)

/-- R113, R118: some words written out from the encoding, and what they stand for. -/
def Obligations.SampleWordsDecode : Prop :=
  decode 0x00000000 = .command .nop ∧ decode 0x00000001 = .command .rngFill ∧ decode 0x00000010 = .command .sha256 ∧
  decode 0x00000020 = .command .kexp ∧ decode 0x00000028 = .command (.cbcEnc false) ∧
  decode 0x00000128 = .command (.cbcEnc true) ∧ decode 0x00000030 = .command .modexp ∧
  decode 0x00000140 = .command (.hybEnc true false) ∧ decode 0x00000240 = .command (.hybEnc false true) ∧
  decode 0x00000053 = .command .rawRx ∧ decode 0x00000129 = .illegal .strayIsrc ∧
  decode 0x00000228 = .illegal .strayKsrc ∧ decode 0x00000440 = .illegal .reservedBits ∧
  decode 0x00000054 = .illegal .reservedOpcode

/-- R117, R338, R339: a step of the engine runs the decoded command, a `CMD` write of a legal word makes its command the running
one, and the step after `withFetchWord` runs the table word's command on the state right after issue.  The model's choices, which no
rule gives: that the engine moves when the script is empty (log entry 2), and the whole third clause, for `withFetchWord` issues over
a running command and releases the reset input (log entry 1). -/
def Obligations.StepRunsTheDecodedCommand : Prop :=
  (∀ (s : State) (i : Instr) (rest : List Event), s.rst = false → s.phase = .run (.command i) →
    (s.script = [] → step s = exec i s) ∧
    (s.script = .engine :: rest → step s = exec i { s with script := rest })) ∧
  (∀ (s : State) (w : Word) (i : Instr), s.rst = false → s.status.busy = false → decode w = .command i →
    ∃ t, hostAccess s (writeAt 0x008 w) = .next t ∧ t.phase = .run (.command i) ∧ t.snap.params = s.p ∧ t.rst = false ∧
      t.progress = Progress.zero) ∧
  (∀ (s : State) (nbits w : Nat) (i : Instr), decodeTableWord nbits w = some i →
    step (s.withFetchWord nbits w) = exec i { s.issue (BitVec.ofNat 32 (w % 2 ^ nbits)) with rst := false })

/-! ### Reset and the invariant -/

/-- R57, whole: the values after any reset, by the reset input or by `CTRL.SRST`; the constants, and the environment's state,
which a reset leaves unchanged.  The values of the two progress fields that R57 does not name, no bounds check taken and no byte
pending, are the model's choice (log entry 14), and that the key storage is absent is its reading (log entry 12).  That a release of
`rst` resets the core also where `rst` was not asserted is its choice (log entry 8). -/
def Obligations.ResetLeavesTheResetValues : Prop :=
  State.reset.HasResetValues ∧ State.reset.cfg = { bufBytes := 65536, nmaxBytes := 512 } ∧
  (∀ s : State, ∃ t, eventStep .rstRelease s = .next t ∧ t.HasResetValues ∧ t.cfg = s.cfg ∧ t.env = s.env) ∧
  (∀ (s : State) (v : Word), s.rst = false → v.getLsbD 2 = true →
    ∃ t, hostAccess s (writeAt 0x004 v) = .next t ∧ t.HasResetValues ∧ t.cfg = s.cfg ∧ t.env = s.env) ∧
  (∀ t : State, t.HasResetValues → readReg t .id = .next (t.answer (.data 0x53460100)) ∧
    readReg t .bufsize = .next (t.answer (.data (BitVec.ofNat 32 t.cfg.bufBytes))) ∧
    readReg t .nmaxsize = .next (t.answer (.data (BitVec.ofNat 32 t.cfg.nmaxBytes))))

/-- The state after reset meets the invariant.  The environment's and the host's part of it is the model's choice (log
entry 14). -/
def Obligations.ResetStateMeetsInvariant : Prop := State.reset.Inv

/-- R35's invariants of `STATUS`, R37, R42 to R47, R9: every step keeps them, in every state that meets them; and the canonical
form of the buffer is kept whatever else holds of the state.  That the key storage is absent between steps, and what a checked stream
command holds pending, are the model's readings (log entries 12 and 7). -/
def Obligations.StepKeepsInvariant : Prop :=
  (∀ s t : State, s.Inv → step s = .next t → t.Inv) ∧
  (∀ s t : State, s.buf.wf → step s = .next t → t.buf.wf)

/-! ### The host's side -/

/-- R31 to R35, R37 to R41: what each offset reads as, that a write of a read-only register is ignored, that a write of a parameter
register while idle stores the value there and nowhere else, and where the fields of `STATUS` stand in its word.  The other writes
have statements of their own: `CTRL`, `CMD`, `STATUS`, the buffer, and a parameter register while BUSY. -/
def Obligations.RegisterReadsFollowTheMap : Prop :=
  (∀ s : State, s.rst = false →
    hostAccess s (readAt 0x000) = .next (s.answer (.data 0x53460100)) ∧
    hostAccess s (readAt 0x004) = .next (s.answer (.data (if s.irqEn then 1 else 0))) ∧
    hostAccess s (readAt 0x008) = .next (s.answer (.data s.cmd)) ∧
    (s.streamRunning = false → hostAccess s (readAt 0x00C) = .next (s.answer (.data (s.status.word false)))) ∧
    (∀ i : Fin 4, hostAccess s (readAt (0x010 + 4 * i.val)) = .next (s.answer (.data s.r[i]))) ∧
    hostAccess s (readAt 0x020) = .next (s.answer (.data (BitVec.ofNat 32 s.cfg.bufBytes))) ∧
    hostAccess s (readAt 0x024) = .next (s.answer (.data (BitVec.ofNat 32 s.cfg.nmaxBytes))) ∧
    (∀ i : Fin 16, hostAccess s (readAt (0x040 + 4 * i.val)) = .next (s.answer (.data s.p[i]))) ∧
    (∀ v : Word, hostAccess s (writeAt 0x000 v) = .next (s.answer .ok) ∧
      (∀ i : Fin 4, hostAccess s (writeAt (0x010 + 4 * i.val) v) = .next (s.answer .ok)) ∧
      hostAccess s (writeAt 0x020 v) = .next (s.answer .ok) ∧ hostAccess s (writeAt 0x024 v) = .next (s.answer .ok)) ∧
    (s.status.busy = false → ∀ (i : Fin 16) (v : Word), ∃ t, hostAccess s (writeAt (0x040 + 4 * i.val) v) = .next t ∧
      t.p[i] = v ∧ (∀ j : Fin 16, j ≠ i → t.p[j] = s.p[j]) ∧ { t with p := s.p } = s.answer .ok) ∧
    (∀ o, o % 4 = 0 → (0x028 ≤ o ∧ o < 0x040) ∨ (0x080 ≤ o ∧ o < 0x10000) →
      hostAccess s (readAt o) = .next (s.answer (.data 0)) ∧
      ∀ v, hostAccess s (writeAt o v) = .next (s.answer .ok))) ∧
  (∀ (st : Status) (b : Bool),
    (st.word b).getLsbD 0 = st.busy ∧ (st.word b).getLsbD 1 = st.done ∧ (st.word b).getLsbD 2 = st.err ∧
    (st.word b).getLsbD 3 = st.cancelled ∧ (st.word b).getLsbD 4 = st.ovr ∧ (st.word b).getLsbD 5 = st.haz ∧
    (st.word b).getLsbD 6 = b ∧ (st.word b).getLsbD 7 = false ∧ (st.word b).extractLsb' 8 8 = st.errCode ∧
    (st.word b).extractLsb' 16 16 = 0)

/-- R81, whole: which accesses are refused, that a refused access changes nothing but the host's answer, and that an aligned
32-bit access inside the window is never refused.  While `rst` is asserted R370 rules instead. -/
def Obligations.MisalignedAccessIsABusError : Prop :=
  ∀ (s : State) (a : Access), s.rst = false →
    (a.size ≠ 4 ∨ a.offset % 4 ≠ 0 ∨ 0x20000 ≤ a.offset → hostAccess s a = .next (s.answer .busError)) ∧
    (a.size = 4 → a.offset % 4 = 0 → a.offset < 0x20000 →
      (∀ t, hostAccess s a = .next t → t.host.bus ≠ .busError) ∧
      (regAt s.cfg.bufBytes a.offset = none →
        hostAccess s a = .next (s.answer (if a.write then .ok else .data 0))))

/-- R82, whole: the buffer window in little-endian lanes, read and written, and the offsets past the buffer.  The buffer is open
to the host only while idle (R84). -/
def Obligations.BufferWindowLanes : Prop :=
  ∀ (s : State) (a : Nat), s.rst = false → s.CfgOk → s.status.busy = false → a % 4 = 0 →
    (a + 4 ≤ s.cfg.bufBytes →
      (∀ b0 b1 b2 b3 : Byte, s.buf.readBytes a 4 = some [b0, b1, b2, b3] →
        ∃ v : Word, v.toNat = b0.toNat + 2 ^ 8 * b1.toNat + 2 ^ 16 * b2.toNat + 2 ^ 24 * b3.toNat ∧
          hostAccess s (readAt (0x10000 + a)) = .next (s.answer (.data v))) ∧
      (s.buf.readBytes a 4 = none → hostAccess s (readAt (0x10000 + a)) = .fault .unwrittenByte) ∧
      (∀ v : Word, ∃ t, hostAccess s (writeAt (0x10000 + a) v) = .next t ∧
        s.buf.Stored t.buf a [v.extractLsb' 0 8, v.extractLsb' 8 8, v.extractLsb' 16 8, v.extractLsb' 24 8] ∧
        { t with buf := s.buf } = s.answer .ok)) ∧
    (s.cfg.bufBytes ≤ a → a < 0x10000 →
      hostAccess s (readAt (0x10000 + a)) = .next (s.answer (.data 0)) ∧
      ∀ v, hostAccess s (writeAt (0x10000 + a) v) = .next (s.answer .ok))

/-- R34, R40, R86: while BUSY the buffer and the parameter registers are locked and a `CMD` write is ignored. -/
def Obligations.LockedWhileBusy : Prop :=
  ∀ s : State, s.rst = false → s.CfgOk → s.status.busy = true →
    (∀ a, a % 4 = 0 → a + 4 ≤ s.cfg.bufBytes →
      hostAccess s (readAt (0x10000 + a)) =
        .next (State.answer { s with status := { s.status with haz := true } } (.data 0)) ∧
      ∀ v, hostAccess s (writeAt (0x10000 + a) v) =
        .next (State.answer { s with status := { s.status with haz := true } } .ok)) ∧
    (∀ (i : Fin 16) (v : Word), hostAccess s (writeAt (0x040 + 4 * i.val) v) =
      .next (State.answer { s with status := { s.status with haz := true } } .ok)) ∧
    (∀ i : Fin 16, hostAccess s (readAt (0x040 + 4 * i.val)) = .next (s.answer (.data s.p[i]))) ∧
    (∀ v : Word, hostAccess s (writeAt 0x008 v) =
      .next (State.answer { s with status := { s.status with ovr := true } } .ok))

/-- R40, R86, R87, R382: no host access but a write of `CTRL` touches a running command, its operands, its buffer or its
results. -/
def Obligations.HostCannotDisturbARunningCommand : Prop :=
  ∀ (s t : State) (a : Access), s.status.busy = true → ¬ (a.write = true ∧ a.offset = 0x004) →
    hostAccess s a = .next t →
    t.phase = s.phase ∧ t.snap = s.snap ∧ t.progress = s.progress ∧ t.abortPending = s.abortPending ∧ t.buf = s.buf ∧
    t.r = s.r ∧ t.p = s.p ∧ t.cmd = s.cmd ∧ t.irqEn = s.irqEn ∧ t.cfg = s.cfg ∧ t.rst = s.rst ∧ t.script = s.script ∧
    s.SameStreams t ∧ t.env.entropyQ = s.env.entropyQ ∧
    t.status.busy = true ∧ t.status.wait = s.status.wait ∧ t.status.errCode = s.status.errCode

/-- R36, whole: a host write of `STATUS` clears the written ones of bits 1 to 5 and nothing else; a read of `WAIT` is a draw while
a stream command runs and 0 otherwise. -/
def Obligations.StatusWriteOneToClear : Prop :=
  ∀ s : State, s.rst = false →
    (∀ v : Word, ∃ t, hostAccess s (writeAt 0x00C v) = .next t ∧ { t with status := s.status } = s.answer .ok ∧
      t.status.done = (s.status.done && !v.getLsbD 1) ∧ t.status.err = (s.status.err && !v.getLsbD 2) ∧
      t.status.cancelled = (s.status.cancelled && !v.getLsbD 3) ∧ t.status.ovr = (s.status.ovr && !v.getLsbD 4) ∧
      t.status.haz = (s.status.haz && !v.getLsbD 5) ∧ t.status.busy = s.status.busy ∧ t.status.wait = s.status.wait ∧
      t.status.errCode = s.status.errCode) ∧
    (s.streamRunning = false → hostAccess s (readAt 0x00C) = .next (s.answer (.data (s.status.word false)))) ∧
    (s.streamRunning = true → ∃ (b : Bool) (t : State), hostAccess s (readAt 0x00C) = .next t ∧
      t.host = { s.host with bus := .data (s.status.word b) } ∧ { t with host := s.host, env := s.env } = s ∧
      s.SameStreams t)

/-- R338, whole: what a `CMD` write does while idle, and that it is ignored while BUSY. -/
def Obligations.IssueStartsACommand : Prop :=
  ∀ (s : State) (v : Word), s.rst = false →
    (s.status.busy = false → ∃ t, hostAccess s (writeAt 0x008 v) = .next t ∧ t.cmd = v ∧ t.snap.word = v ∧
      t.snap.params = s.p ∧ t.status.done = false ∧ t.status.err = false ∧ t.status.cancelled = false ∧
      t.status.errCode = 0 ∧ (∀ i : Fin 4, t.r[i] = 0) ∧ t.abortPending = false ∧ t.status.busy = true ∧
      t.phase = .run (decode v) ∧ t.status.ovr = s.status.ovr ∧ t.status.haz = s.status.haz ∧ t.buf = s.buf ∧
      t.p = s.p ∧ t.irqEn = s.irqEn ∧ t.env = s.env ∧ t.cfg = s.cfg) ∧
    (s.status.busy = true → hostAccess s (writeAt 0x008 v) =
      .next (State.answer { s with status := { s.status with ovr := true } } .ok))

/-- R33, R342, and R57 and R371 for a write of `SRST`: what `CTRL` reads as, and what a write of it does in every phase.  That after
`SRST` no bounds check is taken and no byte is pending, which R57 does not name, is the model's choice (log entry 14), and that the
key storage is absent its reading (log entry 12). -/
def Obligations.ControlWrites : Prop :=
  ∀ (s : State) (v : Word), s.rst = false →
    (∃ w : Word, hostAccess s (readAt 0x004) = .next (s.answer (.data w)) ∧ w.getLsbD 0 = s.irqEn ∧
      w.extractLsb' 1 31 = 0) ∧
    (v.getLsbD 2 = true → ∃ t, hostAccess s (writeAt 0x004 v) = .next t ∧ t.HasResetValues ∧ t.irqEn = false) ∧
    (v.getLsbD 2 = false → ∃ t, hostAccess s (writeAt 0x004 v) = .next t ∧ t.irqEn = v.getLsbD 0 ∧
      (s.streamRunning = true → v.getLsbD 1 = true → t.abortPending = true) ∧
      (s.streamRunning = false ∨ v.getLsbD 1 = false → t.abortPending = s.abortPending) ∧
      { t with irqEn := s.irqEn, abortPending := s.abortPending } = s.answer .ok)

/-- R56, whole, and what makes the level drop (R344, R383): acknowledging the completion, clearing `IRQ_EN`, issuing the next
command.  `OVR` and `HAZ` do not raise it. -/
def Obligations.InterruptLevel : Prop :=
  (∀ s : State, s.irq = true ↔
    s.irqEn = true ∧ (s.status.done = true ∨ s.status.err = true ∨ s.status.cancelled = true)) ∧
  State.reset.irq = false ∧
  (∀ s t : State, s.rst = false → hostAccess s (writeAt 0x00C 0x3E) = .next t → t.irq = false) ∧
  (∀ (s t : State) (v : Word), s.rst = false → v.getLsbD 0 = false → hostAccess s (writeAt 0x004 v) = .next t →
    t.irq = false) ∧
  (∀ (s t : State) (v : Word), s.rst = false → s.status.busy = false → hostAccess s (writeAt 0x008 v) = .next t →
    t.irq = false) ∧
  (∀ s : State, s.markOvr.irq = s.irq ∧ s.markHaz.irq = s.irq)

/-- R85: while idle no read of any offset changes anything but the host's answer, and a second read answers the same. -/
def Obligations.ReadsHaveNoSideEffect : Prop :=
  ∀ (s t : State) (a : Access), s.PhaseOk → s.status.busy = false → a.write = false → hostAccess s a = .next t →
    t = s.answer t.host.bus ∧ hostAccess t a = .next t

/-- R119, R120: a line of a host program is one access and the control flow the rule gives it, an access leaves the program, its
place and what it has read alone; wherever it stands in a program every statement takes the lines the rules give it: `W`, `R`,
`WAIT`, `WB` with a final partial group padded with zero bytes, `RB`, `RUN`, `CLRST`, RSA_ENC and RSA_DEC; a label takes none, and a
`BNE` to it goes to the next line after it.  The model's choices, which no rule gives: that the program's host is an agent of the
machine, that it does nothing past the end of its program, and that of two labels with one number the first counts (log entry 13). -/
def Obligations.HostProgramsRunLineByLine : Prop :=
  (∀ s : State, s.host.prog[s.host.line]? = none → eventStep .hostLine s = .next s) ∧
  (∀ (s u : State) (reg : Reg) (v : Word), s.host.prog[s.host.line]? = some (.write reg v) →
    hostAccess s (writeAt reg.offset v) = .next u →
    eventStep .hostLine s = .next (u.hostGoto (u.host.line + 1))) ∧
  (∀ (s u : State) (reg : Reg) (x : Word), s.host.prog[s.host.line]? = some (.read reg) →
    hostAccess s (readAt reg.offset) = .next u → u.host.bus = .data x →
    eventStep .hostLine s = .next ((u.hostGoto (u.host.line + 1)).hostKeeps x)) ∧
  (∀ (s u : State) (reg : Reg) (mask value x : Word) (target : Nat),
    s.host.prog[s.host.line]? = some (.bne reg mask value target) → hostAccess s (readAt reg.offset) = .next u →
    u.host.bus = .data x →
    eventStep .hostLine s = .next (u.hostGoto (if x &&& mask = value then u.host.line + 1 else target))) ∧
  (∀ (s u : State) (a : Access), hostAccess s a = .next u →
    u.host.prog = s.host.prog ∧ u.host.line = s.host.line ∧ u.host.reads = s.host.reads) ∧
  (∀ (pre post : List Stmt) (n : Nat), n = (assembleProgram pre).length →
    (∀ (reg : Reg) (v : Word), StandsAs pre (.write reg v) post [.write reg v]) ∧
    (∀ reg : Reg, StandsAs pre (.read reg) post [.read reg]) ∧
    StandsAs pre .wait post [.bne .status 0x1 0x0 n] ∧
    (∀ (a : Nat) (x : List Byte), ∃ ops, StandsAs pre (.writeBytes a x) post ops ∧ ops.length = (x.length + 3) / 4 ∧
      ∀ k, k < ops.length → ∃ v : Word, ops[k]? = some (.write (.buf (a + 4 * k)) v) ∧
        ∀ j, j < 4 → v.extractLsb' (8 * j) 8 = x.getD (4 * k + j) 0) ∧
    (∀ a m : Nat, StandsAs pre (.readBytes a m) post
      ((List.range ((m + 3) / 4)).map (fun k => HostOp.read (.buf (a + 4 * k))))) ∧
    (∀ (cmd : Word) (vals : List Word), vals.length ≤ 16 → StandsAs pre (.run cmd vals) post
      (vals.mapIdx (fun i v => HostOp.write (.p (Fin.ofNat 16 i)) v) ++
        [.write .cmd cmd, .bne .status 0x1 0x0 (n + vals.length + 1)])) ∧
    StandsAs pre .clrst post [.write .status 0x3E] ∧
    (∀ a b c d e f g : Word,
      assembleProgram (pre ++ .rsaEnc a b c d e f g :: post) =
        assembleProgram (pre ++ .run (encode .modexp) [a, b, c, d, e, f, g] :: post) ∧
      assembleProgram (pre ++ .rsaDec a b c d e f g :: post) =
        assembleProgram (pre ++ .run (encode .modexp) [a, b, c, d, e, f, g] :: post)) ∧
    (∀ lab : Nat, StandsAs pre (.label lab) post [] ∧
      (Stmt.label lab ∉ pre → ∀ (pre' post' : List Stmt) (reg : Reg) (mask value : Word),
        pre ++ .label lab :: post = pre' ++ .bne reg mask value lab :: post' →
        StandsAs pre' (.bne reg mask value lab) post' [.bne reg mask value n])))

/-- R370, R372: while `rst` is asserted accesses are ignored, reads answer 0 and no command goes on.  That misaligned accesses
are ignored too, and that the engine is held, is the model's reading, and that the assertion changes nothing but `rst`, so that the
level of `irq` stays, its choice (log entry 8). -/
def Obligations.ResetInputHoldsTheCore : Prop :=
  (∀ s : State, eventStep .rstAssert s = .next { s with rst := true }) ∧
  (∀ (s : State) (a : Access), s.rst = true →
    hostAccess s a = .next (s.answer (if a.write then .ok else .data 0))) ∧
  (∀ s : State, s.rst = true → eventStep .engine s = .next s)

/-! ### What the compute commands do -/

/-- R320: NOP completes and does nothing else. -/
def Obligations.NopOnlyCompletes : Prop :=
  ∀ s : State, ∃ t, exec .nop s = .next t ∧ s.EndedDone t ∧ s.SameHostSide t ∧ t.env = s.env ∧ t.buf = s.buf ∧ t.r = s.r

/-- R14, R55: a draw of n bytes answers n bytes or a failure, a draw of none consults nothing, and an answer the source has ready
is the one drawn.  Where none is ready the answer is free (log entry 4) and nothing is said of it but its length. -/
def Obligations.EntropyAnswersEveryDraw : Prop :=
  (∀ e : Env, e.draw 0 = (some [], e)) ∧
  (∀ (e e' : Env) (n : Nat) (bs : List Byte), e.draw n = (some bs, e') → bs.length = n) ∧
  (∀ (e : Env) (bs : List Byte) (q : List EntropyAnswer), e.entropyQ = .bytes bs :: q → bs ≠ [] →
    e.draw bs.length = (some bs, { e with entropyQ := q, draws := e.draws + 1 })) ∧
  (∀ (e : Env) (n : Nat) (q : List EntropyAnswer), e.entropyQ = .fail :: q → n ≠ 0 →
    e.draw n = (none, { e with entropyQ := q, draws := e.draws + 1 }))

/-- R321: RNG_FILL stores the bytes drawn. -/
def Obligations.RngFillStoresTheDraw : Prop :=
  ∀ (s : State) (v : List Byte) (e : Env), s.RegionsOk .rngFill → s.env.draw (s.param 1) = (some v, e) →
    ∃ t, exec .rngFill s = .next t ∧ s.EndedDone t ∧ s.SameHostSide t ∧ t.env = e ∧ s.SameStreams t ∧
      s.buf.Stored t.buf (s.param 0) v ∧ v.length = s.param 1 ∧ s.ResultIs t (s.param 1)

/-- R150: SHA256 stores the digest of the source region as it was before the write. -/
def Obligations.Sha256StoresTheDigest : Prop :=
  ∀ (s : State) (m : List Byte), s.RegionsOk .sha256 → s.buf.readBytes (s.param 0) (s.param 1) = some m →
    ∃ t, exec .sha256 s = .next t ∧ s.EndedDone t ∧ s.SameHostSide t ∧ t.env = s.env ∧
      s.buf.Stored t.buf (s.param 2) (sha256 m) ∧ (sha256 m).length = 32 ∧ s.ResultIs t 32

/-- R183: KEXP stores the 240 bytes of the key's schedule; the first 32 of them are the key. -/
def Obligations.KexpStoresTheSchedule : Prop :=
  ∀ (s : State) (key : List Byte), s.RegionsOk .kexp → s.buf.readBytes (s.param 0) 32 = some key →
    ∃ t, exec .kexp s = .next t ∧ s.EndedDone t ∧ s.SameHostSide t ∧ t.env = s.env ∧
      s.buf.Stored t.buf (s.param 1) (scheduleBytes (keyExpansion key)) ∧
      (scheduleBytes (keyExpansion key)).length = 240 ∧ (scheduleBytes (keyExpansion key)).take 32 = key ∧
      s.ResultIs t 240

/-- R185, R186: AES_ENC and AES_DEC store one block. -/
def Obligations.AesCommandsStoreTheBlock : Prop :=
  ∀ (s : State) (key x : List Byte), s.RegionsOk .aesEnc → s.buf.readBytes (s.param 0) 32 = some key →
    s.buf.readBytes (s.param 1) 16 = some x →
    (∃ t, exec .aesEnc s = .next t ∧ s.EndedDone t ∧ s.SameHostSide t ∧ t.env = s.env ∧
      s.buf.Stored t.buf (s.param 2) (aes256Enc key x) ∧ s.ResultIs t 16) ∧
    (∃ t, exec .aesDec s = .next t ∧ s.EndedDone t ∧ s.SameHostSide t ∧ t.env = s.env ∧
      s.buf.Stored t.buf (s.param 2) (aes256Dec key x) ∧ s.ResultIs t 16)

/-- R92, R224: CBC_ENC stores the ciphertext and, for a drawn IV, then the IV; both forms. -/
def Obligations.CbcEncStoresTheCiphertext : Prop :=
  ∀ (s : State) (key x iv : List Byte), s.RegionsOk (.cbcEnc true) → s.buf.readBytes (s.param 0) 32 = some key →
    s.buf.readBytes (s.param 1) (s.param 2) = some x →
    (s.buf.readBytes (s.param 4) 16 = some iv →
      ∃ t, exec (.cbcEnc true) s = .next t ∧ s.EndedDone t ∧ s.SameHostSide t ∧ t.env = s.env ∧
        s.buf.Stored t.buf (s.param 3) (cbcEnc (keyExpansion key) iv x) ∧
        s.ResultIs t (s.param 2 + 16 - s.param 2 % 16)) ∧
    (∀ e : Env, s.env.draw 16 = (some iv, e) →
      ∃ t m, exec (.cbcEnc false) s = .next t ∧ s.EndedDone t ∧ s.SameHostSide t ∧ t.env = e ∧ s.SameStreams t ∧
        s.buf.Stored m (s.param 3) (cbcEnc (keyExpansion key) iv x) ∧ m.Stored t.buf (s.param 4) iv ∧
        s.ResultIs t (s.param 2 + 16 - s.param 2 % 16))

/-- R223, R225: CBC_DEC stores the plaintext without its padding; the bytes of the region past it are unchanged. -/
def Obligations.CbcDecStoresThePlaintext : Prop :=
  ∀ (s : State) (key y iv : List Byte), s.CtLenOk .cbcDec → s.RegionsOk .cbcDec →
    s.buf.readBytes (s.param 0) 32 = some key → s.buf.readBytes (s.param 1) (s.param 2) = some y →
    s.buf.readBytes (s.param 4) 16 = some iv →
    ∃ t z n, exec .cbcDec s = .next t ∧ s.EndedDone t ∧ s.SameHostSide t ∧ t.env = s.env ∧
      z = cbcDecRaw (keyExpansion key) iv y ∧ z.length = s.param 2 ∧ z.getLast? = some n ∧
      s.buf.Stored t.buf (s.param 3) (z.take (s.param 2 - n.toNat)) ∧
      s.ResultsAre t (s.param 2 - n.toNat) n.toNat

/-- R250, R251: MODEXP stores the shortest big-endian form of b^x mod n. -/
def Obligations.ModexpStoresThePower : Prop :=
  ∀ (s : State) (b x n : List Byte), s.LensOk .modexp → s.RegionsOk .modexp →
    s.buf.readBytes (s.param 0) (s.param 1) = some b → s.buf.readBytes (s.param 2) (s.param 3) = some x →
    s.buf.readBytes (s.param 4) (s.param 5) = some n → beInt n ≠ 0 →
    ∃ t out, exec .modexp s = .next t ∧ s.EndedDone t ∧ s.SameHostSide t ∧ t.env = s.env ∧
      out = beMin (beInt b ^ beInt x % beInt n) ∧ 1 ≤ out.length ∧ out.length ≤ s.param 5 ∧
      s.buf.Stored t.buf (s.param 6) out ∧ s.ResultIs t out.length

/-- R92, R270, R273: HYB_ENC stores the ciphertext, then the wrapped key, then a drawn IV, in all four forms: key and IV each
drawn or read. -/
def Obligations.HybEncStoresTheTriple : Prop :=
  ∀ (s : State) (isrc ksrc : Bool) (x n ex key iv : List Byte) (e1 e2 : Env), s.LensOk (.hybEnc isrc ksrc) →
    s.RegionsOk (.hybEnc isrc ksrc) → s.buf.readBytes (s.param 0) (s.param 1) = some x →
    s.buf.readBytes (s.param 2) (s.param 3) = some n → s.buf.readBytes (s.param 4) (s.param 5) = some ex →
    beInt n ≠ 0 →
    (if ksrc then s.buf.readBytes (s.param 9) 32 = some key ∧ e1 = s.env else s.env.draw 32 = (some key, e1)) →
    (if isrc then s.buf.readBytes (s.param 8) 16 = some iv ∧ e2 = e1 else e1.draw 16 = (some iv, e2)) →
    ∃ t m m' wk, exec (.hybEnc isrc ksrc) s = .next t ∧ s.EndedDone t ∧ s.SameHostSide t ∧ t.env = e2 ∧ s.SameStreams t ∧
      wk = beMin (beInt (keyText key) ^ beInt ex % beInt n) ∧
      s.buf.Stored m (s.param 6) (cbcEnc (keyExpansion key) iv x) ∧ m.Stored m' (s.param 7) wk ∧
      (isrc = true → m'.SameReads t.buf) ∧ (isrc = false → m'.Stored t.buf (s.param 8) iv) ∧
      s.ResultsAre t (s.param 1 + 16 - s.param 1 % 16) wk.length

/-- R272, R274: HYB_DEC stores the plaintext when the unwrapped text parses as a key. -/
def Obligations.HybDecStoresThePlaintext : Prop :=
  ∀ (s : State) (y c iv n d key : List Byte), s.LensOk .hybDec → s.CtLenOk .hybDec → s.RegionsOk .hybDec →
    s.buf.readBytes (s.param 0) (s.param 1) = some y → s.buf.readBytes (s.param 2) (s.param 3) = some c →
    s.buf.readBytes (s.param 4) 16 = some iv → s.buf.readBytes (s.param 5) (s.param 6) = some n →
    s.buf.readBytes (s.param 7) (s.param 8) = some d → beInt n ≠ 0 →
    keyParse (beMin (beInt c ^ beInt d % beInt n)) = some key →
    ∃ t z k, exec .hybDec s = .next t ∧ s.EndedDone t ∧ s.SameHostSide t ∧ t.env = s.env ∧
      z = cbcDecRaw (keyExpansion key) iv y ∧ z.length = s.param 1 ∧ z.getLast? = some k ∧
      s.buf.Stored t.buf (s.param 9) (z.take (s.param 1 - k.toNat)) ∧
      s.ResultsAre t (s.param 1 - k.toNat) k.toNat

/-! ### Errors -/

/-- R90, R116, R332: a command one of whose regions passes `BUF_BYTES` raises `EBOUNDS`, once its lengths are in order.  R42, U1:
with lengths and bounds in order a command stops with the model's fault exactly when a byte of an input region has no value; a
stream command reads its input in the bounds-check step.  Where in a command the fault comes is the model's reading (log entries 3
and 7). -/
def Obligations.RegionOutsideTheBufferIsEbounds : Prop :=
  (∀ (s : State) (i : Instr), s.progress.checked = false → s.LensOk i → s.CtLenOk i → ¬ s.RegionsOk i →
    ∃ t, exec i s = .next t ∧ s.FailsPrecisely t .ebounds) ∧
  (∀ (s : State) (i : Instr), exec i s = .fault .unwrittenByte ↔
    (i.isStream = true → s.progress.checked = false) ∧ s.LensOk i ∧ s.CtLenOk i ∧ s.RegionsOk i ∧ s.InputUnwritten i)

/-- R332: an operand length above `NMAX_BYTES` raises `ELEN` before anything else is looked at, and a ciphertext length that is
no positive multiple of 16 raises `ECTLEN` before any bounds check. -/
def Obligations.LengthErrorsComeFirst : Prop :=
  (∀ (s : State) (i : Instr), ¬ s.LensOk i → ∃ t, exec i s = .next t ∧ s.FailsPrecisely t .elen) ∧
  (∀ (s : State) (i : Instr), s.LensOk i → ¬ s.CtLenOk i → ∃ t, exec i s = .next t ∧ s.FailsPrecisely t .ectlen)

/-- R251, R273, R274: a modulus of value 0 raises `EMODZERO`, before any draw. -/
def Obligations.ZeroModulusIsEmodzero : Prop :=
  (∀ (s : State) (b x n : List Byte), s.LensOk .modexp → s.RegionsOk .modexp →
    s.buf.readBytes (s.param 0) (s.param 1) = some b → s.buf.readBytes (s.param 2) (s.param 3) = some x →
    s.buf.readBytes (s.param 4) (s.param 5) = some n → beInt n = 0 →
    ∃ t, exec .modexp s = .next t ∧ s.FailsPrecisely t .emodzero ∧ t.env = s.env) ∧
  (∀ (s : State) (isrc ksrc : Bool) (x n ex key iv : List Byte), s.LensOk (.hybEnc isrc ksrc) →
    s.RegionsOk (.hybEnc isrc ksrc) → s.buf.readBytes (s.param 0) (s.param 1) = some x →
    s.buf.readBytes (s.param 2) (s.param 3) = some n → s.buf.readBytes (s.param 4) (s.param 5) = some ex →
    (ksrc = true → s.buf.readBytes (s.param 9) 32 = some key) →
    (isrc = true → s.buf.readBytes (s.param 8) 16 = some iv) → beInt n = 0 →
    ∃ t, exec (.hybEnc isrc ksrc) s = .next t ∧ s.FailsPrecisely t .emodzero ∧ t.env = s.env) ∧
  (∀ (s : State) (y c iv n d : List Byte), s.LensOk .hybDec → s.CtLenOk .hybDec → s.RegionsOk .hybDec →
    s.buf.readBytes (s.param 0) (s.param 1) = some y → s.buf.readBytes (s.param 2) (s.param 3) = some c →
    s.buf.readBytes (s.param 4) 16 = some iv → s.buf.readBytes (s.param 5) (s.param 6) = some n →
    s.buf.readBytes (s.param 7) (s.param 8) = some d → beInt n = 0 →
    ∃ t, exec .hybDec s = .next t ∧ s.FailsPrecisely t .emodzero ∧ t.env = s.env)

/-- R272, R274: HYB_DEC raises `EKEYDEC` exactly on a text that is not 64 lowercase hexadecimal digits, and writes nothing. -/
def Obligations.BadKeyTextIsEkeydec : Prop :=
  (∀ text : List Byte, keyParse text = none ↔
    ¬ (text.length = 64 ∧ ∀ c ∈ text, (0x30 ≤ c.toNat ∧ c.toNat ≤ 0x39) ∨ (0x61 ≤ c.toNat ∧ c.toNat ≤ 0x66))) ∧
  (∀ (s : State) (y c iv n d : List Byte), s.LensOk .hybDec → s.CtLenOk .hybDec → s.RegionsOk .hybDec →
    s.buf.readBytes (s.param 0) (s.param 1) = some y → s.buf.readBytes (s.param 2) (s.param 3) = some c →
    s.buf.readBytes (s.param 4) 16 = some iv → s.buf.readBytes (s.param 5) (s.param 6) = some n →
    s.buf.readBytes (s.param 7) (s.param 8) = some d → beInt n ≠ 0 →
    keyParse (beMin (beInt c ^ beInt d % beInt n)) = none →
    ∃ t, exec .hybDec s = .next t ∧ s.FailsPrecisely t .ekeydec)

/-- R55, R273, R321, R224, R332, R335: a draw that fails makes RNG_FILL, CBC_ENC and HYB_ENC raise `ERNG` with no byte written, in
every form that draws: HYB_ENC at its key draw, whether the IV is drawn or read, and at its IV draw, whether the key was drawn (and
is lost) or read. -/
def Obligations.FailedDrawIsErng : Prop :=
  (∀ (s : State) (e : Env), s.RegionsOk .rngFill → s.env.draw (s.param 1) = (none, e) →
    ∃ t, exec .rngFill s = .next t ∧ s.FailsPrecisely t .erng ∧ t.env = e) ∧
  (∀ (s : State) (key x : List Byte) (e : Env), s.RegionsOk (.cbcEnc false) →
    s.buf.readBytes (s.param 0) 32 = some key → s.buf.readBytes (s.param 1) (s.param 2) = some x →
    s.env.draw 16 = (none, e) → ∃ t, exec (.cbcEnc false) s = .next t ∧ s.FailsPrecisely t .erng ∧ t.env = e) ∧
  (∀ (s : State) (isrc : Bool) (x n ex iv : List Byte) (e : Env), s.LensOk (.hybEnc isrc false) →
    s.RegionsOk (.hybEnc isrc false) → s.buf.readBytes (s.param 0) (s.param 1) = some x →
    s.buf.readBytes (s.param 2) (s.param 3) = some n → s.buf.readBytes (s.param 4) (s.param 5) = some ex →
    (isrc = true → s.buf.readBytes (s.param 8) 16 = some iv) → beInt n ≠ 0 → s.env.draw 32 = (none, e) →
    ∃ t, exec (.hybEnc isrc false) s = .next t ∧ s.FailsPrecisely t .erng ∧ t.env = e) ∧
  (∀ (s : State) (ksrc : Bool) (x n ex key : List Byte) (e1 e2 : Env), s.LensOk (.hybEnc false ksrc) →
    s.RegionsOk (.hybEnc false ksrc) → s.buf.readBytes (s.param 0) (s.param 1) = some x →
    s.buf.readBytes (s.param 2) (s.param 3) = some n → s.buf.readBytes (s.param 4) (s.param 5) = some ex →
    beInt n ≠ 0 →
    (if ksrc then s.buf.readBytes (s.param 9) 32 = some key ∧ e1 = s.env else s.env.draw 32 = (some key, e1)) →
    e1.draw 16 = (none, e2) →
    ∃ t, exec (.hybEnc false ksrc) s = .next t ∧ s.FailsPrecisely t .erng ∧ t.env = e2)

/-- R335, whole: an error of a compute command leaves the buffer, the streams, `P0` to `P15`, `CTRL` and the (zeroed) result
registers as they were; `STATUS` changes as R341 says; draws already taken are lost.  That the source has a queue of ready answers is the model's form of it
(log entry 4); that after the error no bounds check is taken and no byte is pending is its choice (log entry 14), and that the key
storage is absent its reading (log entry 12). -/
def Obligations.ComputeErrorsArePrecise : Prop :=
  ∀ (i : Instr) (s t : State), i.isStream = false → exec i s = .next t → s.status.err = false → t.status.err = true →
    t.buf = s.buf ∧ s.SameStreams t ∧ s.SameHostSide t ∧ t.r = s.r ∧ s.EndedErr t t.status.errCode ∧
    (s.ResultsOk → s.status.busy = true → ∀ j : Fin 4, t.r[j] = 0) ∧ t.env.entropyQ <:+ s.env.entropyQ

/-- R333: a command ends with no error code but those its row of the table lists. -/
def Obligations.OnlyListedErrorsAreRaised : Prop :=
  ∀ (i : Instr) (s t : State), exec i s = .next t → s.status.err = false → t.status.err = true →
    ∃ e ∈ raisable i, t.status.errCode = e.code

/-! ### Every command -/

/-- R339 to R341: a compute command ends in its one step, with success or an error and not both, and is not cancelled. -/
def Obligations.ComputeCommandsEndInOneStep : Prop :=
  ∀ (i : Instr) (s t : State), i.isStream = false → exec i s = .next t → s.status.done = false → s.status.err = false →
    s.status.cancelled = false →
    t.EngineIdle ∧ t.status.busy = false ∧ t.status.wait = false ∧ t.status.cancelled = false ∧
    (t.status.done = true ↔ t.status.err = false) ∧ t.status.ovr = s.status.ovr ∧ t.status.haz = s.status.haz

/-- R14, R40, R46: no command writes a parameter register, `CTRL`, `CMD`, the snapshot or the parameters of the machine, nor
touches `OVR` and `HAZ`. -/
def Obligations.CommandsLeaveTheHostSideAlone : Prop :=
  ∀ (i : Instr) (s t : State), exec i s = .next t →
    s.SameHostSide t ∧ t.status.ovr = s.status.ovr ∧ t.status.haz = s.status.haz

/-- R52, R53, R101: a step of a command takes at most the head of `rx_q`, only in FRAME_RX and RAW_RX, and appends at most one
byte to `tx_log`, only in FRAME_TX and RAW_TX; it closes neither stream. -/
def Obligations.StreamsMoveOnlyByTheirCommands : Prop :=
  ∀ (i : Instr) (s t : State), exec i s = .next t →
    (t.env.rxQ = s.env.rxQ ∨ ((i = .frameRx ∨ i = .rawRx) ∧ ∃ b, s.env.rxQ = b :: t.env.rxQ)) ∧
    (t.env.txLog = s.env.txLog ∨ ((i = .frameTx ∨ i = .rawTx) ∧ ∃ b, t.env.txLog = s.env.txLog ++ [b])) ∧
    t.env.rxClosed = s.env.rxClosed ∧ t.env.txClosed = s.env.txClosed

/-- R52, R53, R54: over any step of the machine, resets among them, a closed stream stays closed, none is added to a closed
`rx_q`, nothing is accepted after a close, and what was accepted stays accepted. -/
def Obligations.ClosedStreamsStayClosed : Prop :=
  ∀ s t : State, step s = .next t →
    (s.env.rxClosed = true → t.env.rxClosed = true ∧ t.env.rxQ <:+ s.env.rxQ) ∧
    (s.env.txClosed = true → t.env.txClosed = true ∧ t.env.txLog = s.env.txLog) ∧ s.env.txLog <+: t.env.txLog

/-- R45, R182: whatever the key storage held before, a compute command does the same: no schedule is cached. -/
def Obligations.KeyStorageHasNoEffect : Prop :=
  ∀ (i : Instr) (s : State) (k : Option KeyStore), i.isStream = false → exec i { s with keyStore := k } = exec i s

/-- R46: a running command reads its operands from the snapshot: other live parameter registers change nothing. -/
def Obligations.CommandsReadOnlyTheSnapshot : Prop :=
  ∀ (i : Instr) (s t : State) (v : Vector Word 16), exec i s = .next t → exec i { s with p := v } = .next { t with p := v }

/-! ### What the stream commands do, step by step -/

/-- R292, R294 to R297, R339: the bounds-check step of each stream command.  A raw transfer of no bytes completes in it (the
step's place is the model's reading, log entry 7). -/
def Obligations.StreamCommandsStart : Prop :=
  ∀ s : State, s.progress.checked = false → s.RegionsOk .frameTx →
    (∀ x : List Byte, s.buf.readBytes (s.param 0) (s.param 1) = some x →
      exec .frameTx s = .next { s with progress :=
        { s.progress with checked := true, pending := beBytes (s.param 1) 4 ++ x } } ∧
      (s.param 1 ≠ 0 → exec .rawTx s = .next { s with progress :=
        { s.progress with checked := true, pending := x } })) ∧
    exec .frameRx s = .next { s with progress := { s.progress with checked := true, pending := [] } } ∧
    (s.param 1 ≠ 0 → exec .rawRx s = .next { s with progress := { s.progress with checked := true, pending := [] } }) ∧
    (s.param 1 = 0 →
      (∃ t, exec .rawTx s = .next t ∧ s.EndedDone t ∧ s.CountsAre t 0 0 0 ∧ s.SameHostSide t ∧ t.env = s.env ∧
        t.buf = s.buf) ∧
      (∃ t, exec .rawRx s = .next t ∧ s.EndedDone t ∧ s.CountsAre t 0 0 0 ∧ s.SameHostSide t ∧ t.env = s.env ∧
        t.buf = s.buf))

/-- R291, R294, R296: a byte step of FRAME_TX and of RAW_TX when the TX environment accepts: the next byte joins `tx_log`, the
counters move, and with the last byte the command completes with its counts.  The model's, which no rule gives: that the completion
falls in the step of the last byte (log entry 7), and that acceptance is counted as credit (log entry 6). -/
def Obligations.TransmitStepSendsOneByte : Prop :=
  ∀ (s : State) (b : Byte) (rest : List Byte) (c : Nat), s.progress.checked = true →
    s.progress.pending = b :: rest → s.abortPending = false → s.env.txClosed = false → s.env.txCredit = c + 1 →
    (∃ t, exec .frameTx s = .next t ∧ s.SameHostSide t ∧ t.buf = s.buf ∧
      t.env = { s.env with txLog := s.env.txLog ++ [b], txCredit := c } ∧
      (rest ≠ [] → t.phase = s.phase ∧ t.abortPending = false ∧ t.keyStore = s.keyStore ∧ t.r = s.r ∧
        t.status = { s.status with wait := false } ∧
        t.progress = { s.progress with
          pending := rest
          hdr := if s.hdrGot < 4 then s.progress.hdr ++ [b] else s.progress.hdr
          doneBytes := if s.hdrGot < 4 then s.progress.doneBytes else s.progress.doneBytes + 1 }) ∧
      (rest = [] → s.EndedDone t ∧
        s.CountsAre t (if s.hdrGot < 4 then s.progress.doneBytes else s.progress.doneBytes + 1) (s.param 1)
          (s.hdrGot + s.progress.doneBytes + 1))) ∧
    (∃ t, exec .rawTx s = .next t ∧ s.SameHostSide t ∧ t.buf = s.buf ∧
      t.env = { s.env with txLog := s.env.txLog ++ [b], txCredit := c } ∧
      (rest ≠ [] → t.phase = s.phase ∧ t.abortPending = false ∧ t.keyStore = s.keyStore ∧ t.r = s.r ∧
        t.status = { s.status with wait := false } ∧
        t.progress = { s.progress with pending := rest, doneBytes := s.progress.doneBytes + 1 }) ∧
      (rest = [] → s.EndedDone t ∧
        s.CountsAre t (s.progress.doneBytes + 1) (s.param 1) (s.hdrGot + s.progress.doneBytes + 1)))

/-- R290, R295, R297: a payload byte step of FRAME_RX and of RAW_RX when a byte is there: it leaves `rx_q`, is stored at its
place and nowhere else, and with the last byte the command completes with its counts.  That the completion falls in the step of the
last byte is the model's reading (log entry 7). -/
def Obligations.ReceiveStepStoresOneByte : Prop :=
  ∀ (s : State) (b : Byte) (q : List Byte), s.progress.checked = true → s.abortPending = false → s.env.rxQ = b :: q →
    (s.hdrGot = 4 → s.progress.doneBytes < s.progress.declared.toNat →
      ∃ t, exec .frameRx s = .next t ∧ s.SameHostSide t ∧ t.env = { s.env with rxQ := q } ∧
        s.buf.Stored t.buf (s.param 0 + s.progress.doneBytes) [b] ∧
        (s.progress.doneBytes + 1 < s.progress.declared.toNat → t.phase = s.phase ∧ t.abortPending = false ∧
          t.keyStore = s.keyStore ∧ t.r = s.r ∧ t.status = { s.status with wait := false } ∧
          t.progress = { s.progress with doneBytes := s.progress.doneBytes + 1 }) ∧
        (s.progress.doneBytes + 1 = s.progress.declared.toNat → s.EndedDone t ∧
          s.CountsAre t s.progress.declared.toNat s.progress.declared.toNat (4 + s.progress.declared.toNat))) ∧
    (s.hdrGot = 0 → s.progress.doneBytes < s.param 1 →
      ∃ t, exec .rawRx s = .next t ∧ s.SameHostSide t ∧ t.env = { s.env with rxQ := q } ∧
        s.buf.Stored t.buf (s.param 0 + s.progress.doneBytes) [b] ∧
        (s.progress.doneBytes + 1 < s.param 1 → t.phase = s.phase ∧ t.abortPending = false ∧
          t.keyStore = s.keyStore ∧ t.r = s.r ∧ t.status = { s.status with wait := false } ∧
          t.progress = { s.progress with doneBytes := s.progress.doneBytes + 1 }) ∧
        (s.progress.doneBytes + 1 = s.param 1 → s.EndedDone t ∧
          s.CountsAre t (s.param 1) (s.param 1) (s.param 1)))

/-- R290, R293, R295, R330: a header byte step of FRAME_RX.  With the fourth byte the length is known: above the capacity it is
`EFRAMELEN` with the payload left in `rx_q`, 0 completes at once, and otherwise the payload follows.  That `EFRAMELEN` and the
completion of the empty frame fall in the step of the fourth header byte is the model's reading (log entry 7). -/
def Obligations.HeaderStepReadsTheLength : Prop :=
  ∀ (s : State) (b : Byte) (q : List Byte), s.progress.checked = true → s.abortPending = false → s.env.rxQ = b :: q →
    s.hdrGot < 4 →
    ∃ t, exec .frameRx s = .next t ∧ s.SameHostSide t ∧ t.env = { s.env with rxQ := q } ∧ t.buf = s.buf ∧
      (s.hdrGot < 3 → t.phase = s.phase ∧ t.abortPending = false ∧ t.keyStore = s.keyStore ∧ t.r = s.r ∧
        t.status = { s.status with wait := false } ∧
        t.progress = { s.progress with hdr := s.progress.hdr ++ [b] }) ∧
      (s.hdrGot = 3 → ∀ d, d = beInt (s.progress.hdr ++ [b]) →
        (s.param 1 < d → s.EndedErr t 0x08 ∧ s.CountsAre t 0 d 4) ∧
        (d = 0 → s.EndedDone t ∧ s.CountsAre t 0 0 4) ∧
        (0 < d → d ≤ s.param 1 → t.phase = s.phase ∧ t.abortPending = false ∧ t.keyStore = s.keyStore ∧ t.r = s.r ∧
          t.status = { s.status with wait := false } ∧
          t.progress = { s.progress with hdr := s.progress.hdr ++ [b], declared := BitVec.ofNat 32 d }))

/-- R290, R291, R343: at a byte boundary where an abort is pending the command ends cancelled, with its counts so far; no byte
moves, though one is there or the stream is closed. -/
def Obligations.AbortCancelsAtAByteBoundary : Prop :=
  ∀ s : State, s.progress.checked = true → s.abortPending = true →
    (s.progress.pending ≠ [] →
      (∃ t, exec .frameTx s = .next t ∧ s.EndedCancelled t ∧ s.SameHostSide t ∧ t.env = s.env ∧ t.buf = s.buf ∧
        s.CountsAre t s.progress.doneBytes (s.param 1) (s.hdrGot + s.progress.doneBytes)) ∧
      (∃ t, exec .rawTx s = .next t ∧ s.EndedCancelled t ∧ s.SameHostSide t ∧ t.env = s.env ∧ t.buf = s.buf ∧
        s.CountsAre t s.progress.doneBytes (s.param 1) (s.hdrGot + s.progress.doneBytes))) ∧
    (∃ t, exec .frameRx s = .next t ∧ s.EndedCancelled t ∧ s.SameHostSide t ∧ t.env = s.env ∧ t.buf = s.buf ∧
      (s.hdrGot < 4 → s.CountsAre t 0 0 s.hdrGot) ∧
      (s.hdrGot = 4 →
        s.CountsAre t s.progress.doneBytes s.progress.declared.toNat (4 + s.progress.doneBytes))) ∧
    (s.hdrGot = 0 → ∃ t, exec .rawRx s = .next t ∧ s.EndedCancelled t ∧ s.SameHostSide t ∧ t.env = s.env ∧
      t.buf = s.buf ∧ s.CountsAre t s.progress.doneBytes (s.param 1) s.progress.doneBytes)

/-- R290, R291, R330: a stream that is closed (and, for RX, empty) ends the command with `ETXCLOSED` or `ETRUNC` and its counts
so far; what moved before stays moved (R336). -/
def Obligations.ClosedStreamFailsTheCommand : Prop :=
  ∀ s : State, s.progress.checked = true → s.abortPending = false →
    (s.progress.pending ≠ [] → s.env.txClosed = true →
      (∃ t, exec .frameTx s = .next t ∧ s.EndedErr t 0x0A ∧ s.SameHostSide t ∧ t.env = s.env ∧ t.buf = s.buf ∧
        s.CountsAre t s.progress.doneBytes (s.param 1) (s.hdrGot + s.progress.doneBytes)) ∧
      (∃ t, exec .rawTx s = .next t ∧ s.EndedErr t 0x0A ∧ s.SameHostSide t ∧ t.env = s.env ∧ t.buf = s.buf ∧
        s.CountsAre t s.progress.doneBytes (s.param 1) (s.hdrGot + s.progress.doneBytes))) ∧
    (s.env.rxQ = [] → s.env.rxClosed = true →
      (∃ t, exec .frameRx s = .next t ∧ s.EndedErr t 0x09 ∧ s.SameHostSide t ∧ t.env = s.env ∧ t.buf = s.buf ∧
        (s.hdrGot < 4 → s.CountsAre t 0 0 s.hdrGot) ∧
        (s.hdrGot = 4 →
          s.CountsAre t s.progress.doneBytes s.progress.declared.toNat (4 + s.progress.doneBytes))) ∧
      (s.hdrGot = 0 → ∃ t, exec .rawRx s = .next t ∧ s.EndedErr t 0x09 ∧ s.SameHostSide t ∧ t.env = s.env ∧
        t.buf = s.buf ∧ s.CountsAre t s.progress.doneBytes (s.param 1) s.progress.doneBytes))

/-- R290, R291, R381: with no byte, no close and no abort the command is held with `WAIT` = 1, and nothing else changes.  That the
TX environment accepts nothing without credit is the model's form of its choice (log entry 6). -/
def Obligations.CommandWaitsWhileNothingMoves : Prop :=
  ∀ s : State, s.progress.checked = true → s.abortPending = false →
    (s.progress.pending ≠ [] → s.env.txClosed = false → s.env.txCredit = 0 →
      exec .frameTx s = .next { s with status := { s.status with wait := true } } ∧
      exec .rawTx s = .next { s with status := { s.status with wait := true } }) ∧
    (s.env.rxQ = [] → s.env.rxClosed = false →
      exec .frameRx s = .next { s with status := { s.status with wait := true } } ∧
      exec .rawRx s = .next { s with status := { s.status with wait := true } })

/-! ### What the stream commands do, whole -/

/-- R293, R294: FRAME_TX, run to its end while the TX environment accepts, sends the 4-byte big-endian length and then the
payload, contiguous, in n + 5 engine steps.  The model's, which no rule gives: the number of steps (log entry 7), that the engine
moves on an empty script (log entry 2), and the credit by which the environment accepts (log entry 6). -/
def Obligations.FrameTxSendsTheFrame : Prop :=
  ∀ (s : State) (x : List Byte), s.FreshStream .frameTx → s.script = [] → s.RegionsOk .frameTx →
    s.buf.readBytes (s.param 0) (s.param 1) = some x → s.env.txClosed = false → s.param 1 + 4 ≤ s.env.txCredit →
    ∃ t, runFor (s.param 1 + 5) s = .next t ∧ s.EndedDone t ∧ s.SameHostSide t ∧ t.buf = s.buf ∧
      t.env = { s.env with txLog := s.env.txLog ++ beBytes (s.param 1) 4 ++ x, txCredit := s.env.txCredit - (s.param 1 + 4) } ∧
      s.CountsAre t (s.param 1) (s.param 1) (s.param 1 + 4)

/-- R293, R295: FRAME_RX, run to its end on a frame that fits, stores exactly the payload and leaves what follows it in
`rx_q`.  The model's, which no rule gives: the number of steps (log entry 7), and that the engine moves on an empty script (log
entry 2). -/
def Obligations.FrameRxStoresThePayload : Prop :=
  ∀ (s : State) (x rest : List Byte), s.FreshStream .frameRx → s.script = [] → s.RegionsOk .frameRx →
    x.length ≤ s.param 1 → s.env.rxQ = beBytes x.length 4 ++ x ++ rest →
    ∃ t, runFor (x.length + 5) s = .next t ∧ s.EndedDone t ∧ s.SameHostSide t ∧ t.env = { s.env with rxQ := rest } ∧
      s.buf.Stored t.buf (s.param 0) x ∧ s.CountsAre t x.length x.length (x.length + 4)

/-- R296, R297: RAW_TX and RAW_RX, run to their ends, move exactly n bytes.  The model's, which no rule gives: the number of steps
(log entry 7), that the engine moves on an empty script (log entry 2), and the credit by which the environment accepts (log
entry 6). -/
def Obligations.RawStreamsMoveExactlyTheBytes : Prop :=
  (∀ (s : State) (x : List Byte), s.FreshStream .rawTx → s.script = [] → s.RegionsOk .rawTx →
    s.buf.readBytes (s.param 0) (s.param 1) = some x → s.env.txClosed = false → s.param 1 ≤ s.env.txCredit →
    ∃ t, runFor (s.param 1 + 1) s = .next t ∧ s.EndedDone t ∧ s.SameHostSide t ∧ t.buf = s.buf ∧
      t.env = { s.env with txLog := s.env.txLog ++ x, txCredit := s.env.txCredit - s.param 1 } ∧
      s.CountsAre t (s.param 1) (s.param 1) (s.param 1)) ∧
  (∀ (s : State) (x rest : List Byte), s.FreshStream .rawRx → s.script = [] → s.RegionsOk .rawRx →
    x.length = s.param 1 → s.env.rxQ = x ++ rest →
    ∃ t, runFor (s.param 1 + 1) s = .next t ∧ s.EndedDone t ∧ s.SameHostSide t ∧ t.env = { s.env with rxQ := rest } ∧
      s.buf.Stored t.buf (s.param 0) x ∧ s.CountsAre t (s.param 1) (s.param 1) (s.param 1))

/-- R298: what FRAME_TX sends of a payload, FRAME_RX of another core returns, whatever the fragmentation: the bytes may arrive one
at a time with any number of engine steps between them.  The model's, which no rule gives: the numbers of steps (log entry 7), that
the engine moves once the script is empty (log entry 2), the credit by which the environment accepts (log entry 6), and that two
cores are two states (log entry 16). -/
def Obligations.FrameRoundTrip : Prop :=
  ∀ (s u : State) (x : List Byte), s.FreshStream .frameTx → s.script = [] → s.RegionsOk .frameTx →
    s.buf.readBytes (s.param 0) (s.param 1) = some x → s.env.txClosed = false → s.param 1 + 4 ≤ s.env.txCredit →
    u.FreshStream .frameRx → u.RegionsOk .frameRx → x.length ≤ u.param 1 → u.env.rxQ = [] → u.env.rxClosed = false →
    (∀ m ∈ u.script, m = .engine ∨ ∃ b, m = .rxByte b) →
    ∃ (t : State) (sent : List Byte), runFor (s.param 1 + 5) s = .next t ∧ t.env.txLog = s.env.txLog ++ sent ∧
      (u.script.filterMap rxByteOf = sent →
        ∃ v, runFor (u.script.length + x.length + 5) u = .next v ∧ u.EndedDone v ∧
          u.buf.Stored v.buf (u.param 0) x ∧ u.CountsAre v x.length x.length (x.length + 4) ∧ v.env.rxQ = [])

/-! ### The algorithms -/

/-- R171, R172, R173, whole: the inverse, the S-box by its definition, and the inverse S-box. -/
def Obligations.SboxTablesMeetTheirDefinition : Prop :=
  ginv 0 = 0 ∧ (∀ b : Byte, b ≠ 0 → gmul b (ginv b) = 0x01 ∧ ∀ c : Byte, gmul b c = 0x01 → c = ginv b) ∧
  (∀ a : Byte, sbox a = ginv a ^^^ (ginv a).rotateLeft 1 ^^^ (ginv a).rotateLeft 2 ^^^ (ginv a).rotateLeft 3 ^^^
    (ginv a).rotateLeft 4 ^^^ 0x63) ∧
  (∀ a : Byte, invSbox (sbox a) = a)

/-- R184: for every key and block, decryption undoes encryption. -/
def Obligations.AesDecryptsWhatItEncrypted : Prop :=
  ∀ key x : List Byte, key.length = 32 → x.length = 16 → aes256Dec key (aes256Enc key x) = x

/-- R226, whole: the padding law, and that decrypting and unpadding an encryption gives the plaintext and its pad count. -/
def Obligations.CbcLaws : Prop :=
  ∀ key iv x : List Byte, key.length = 32 → iv.length = 16 →
    (cbcEnc (keyExpansion key) iv x).length = x.length + 16 - x.length % 16 ∧
    unpad (cbcDecRaw (keyExpansion key) iv (cbcEnc (keyExpansion key) iv x)) = (x, 16 - x.length % 16)

/-- R13, R250: `modexp` is the modular power, for every modulus; `be_min` is the shortest big-endian form. -/
def Obligations.ModexpIsTheModularPower : Prop :=
  (∀ b x n : Nat, modexp b x n = b ^ x % n) ∧
  (∀ x : Nat, beInt (beMin x) = x ∧ (∀ s : List Byte, s ≠ [] → beInt s = x → (beMin x).length ≤ s.length) ∧
    (x ≠ 0 → (beMin x).head? ≠ some 0) ∧ beMin 0 = [0])

/-- R255, R271, R272, R275: with a valid key pair decrypting an encryption of a number below the modulus gives the number, and
HYB_DEC's computation on HYB_ENC's outputs recovers the session key and the file, for a file of any length. -/
def Obligations.RsaAndHybridRoundTrip : Prop :=
  ∀ p q e d : Nat, p.Prime → q.Prime → p ≠ q → e * d % ((p - 1) * (q - 1)) = 1 % ((p - 1) * (q - 1)) →
    (∀ m, m < p * q → modexp (modexp m e (p * q)) d (p * q) = m) ∧
    (∀ key iv x : List Byte, key.length = 32 → iv.length = 16 → beInt (keyText key) < p * q →
      keyParse (beMin (modexp (beInt (wrapKey key e (p * q))) d (p * q))) = some key ∧
      unpad (cbcDecRaw (keyExpansion key) iv (cbcEnc (keyExpansion key) iv x)) = (x, 16 - x.length % 16)) ∧
    (∀ key : List Byte, key.length = 32 → beInt (keyText key) < 2 ^ 511)
end

