-- ==== Sys2Proof/Laws/Memory.lean ====
section
/-! SUPPORT. The buffer: a read after a write, and that every write keeps the canonical form and the buffer's bounds. -/

namespace Sys2Proof.Machine

/-! ### The cells of a byte string -/

theorem mem_cellsAt {c : Host.Cell} {a : Nat} {bs : List Byte} (h : c ∈ cellsAt a bs) :
    a ≤ c.1 ∧ c.1 < a + bs.length := by
  induction bs generalizing a with
  | nil => simp [cellsAt] at h
  | cons b bs ih =>
    rcases List.mem_cons.mp h with rfl | h
    · simp
    · have := ih h
      simp only [List.length_cons]
      omega

theorem cellsAt_wf (a : Nat) (bs : List Byte) : Memory.wf (cellsAt a bs) := by
  induction bs generalizing a with
  | nil => exact List.Pairwise.nil
  | cons b bs ih =>
    refine List.Pairwise.cons (fun c hc => ?_) (ih (a + 1))
    have := mem_cellsAt hc
    simp only
    omega

theorem lookup_cellsAt_outside {x a : Nat} {bs : List Byte} (h : x < a ∨ a + bs.length ≤ x) :
    List.lookup x (cellsAt a bs) = none := by
  rw [List.lookup_eq_none_iff]
  intro c hc
  have := mem_cellsAt hc
  simp only [bne_iff_ne, ne_eq]
  omega

theorem lookup_cellsAt_inside {a i : Nat} {bs : List Byte} (h : i < bs.length) :
    List.lookup (a + i) (cellsAt a bs) = some bs[i] := by
  induction bs generalizing a i with
  | nil => simp at h
  | cons b bs ih =>
    cases i with
    | zero => simp [cellsAt]
    | succ i =>
      have hne : (a + (i + 1) == a) = false := by simp
      have hi : i < bs.length := by simpa using h
      have := ih (a := a + 1) hi
      rw [Nat.add_right_comm, Nat.add_assoc] at this
      simp [cellsAt, List.lookup, hne, this]

/-! ### A read after a write -/

theorem lookup_filter_of_keep {x : Nat} (f : Nat → Bool) (m : Memory) (h : f x = true) :
    List.lookup x (m.filter (fun c => f c.1)) = List.lookup x m := by
  induction m with
  | nil => rfl
  | cons c m ih =>
    obtain ⟨y, b⟩ := c
    by_cases hxy : x = y
    · subst hxy
      simp [h]
    · have hne : (x == y) = false := by simp [hxy]
      rw [List.filter_cons]
      split <;> simp [List.lookup, hne, ih]

theorem lookup_filter_of_drop {x : Nat} (f : Nat → Bool) (m : Memory) (h : f x = false) :
    List.lookup x (m.filter (fun c => f c.1)) = none := by
  rw [List.lookup_eq_none_iff]
  intro c hc
  have := (List.mem_filter.mp hc).2
  rw [bne_iff_ne]
  rintro rfl
  simp [h] at this

/-- A write leaves every byte outside it alone. -/
theorem Memory.read_writeBytes_outside (m : Memory) {x a : Nat} (bs : List Byte)
    (h : x < a ∨ a + bs.length ≤ x) : (m.writeBytes a bs).read x = m.read x := by
  unfold Memory.writeBytes Memory.read
  rw [List.lookup_append, List.lookup_append, lookup_cellsAt_outside h]
  rcases h with h | h
  · rw [lookup_filter_of_keep (fun y => decide (y < a)) m (by simpa using h),
      lookup_filter_of_drop (fun y => decide (a + bs.length ≤ y)) m (by simp; omega)]
    simp
  · rw [lookup_filter_of_drop (fun y => decide (y < a)) m (by simp; omega),
      lookup_filter_of_keep (fun y => decide (a + bs.length ≤ y)) m (by simpa using h)]
    simp

/-- A byte written reads back. -/
theorem Memory.read_writeBytes_inside (m : Memory) {a i : Nat} {bs : List Byte} (h : i < bs.length) :
    (m.writeBytes a bs).read (a + i) = some bs[i] := by
  unfold Memory.writeBytes Memory.read
  rw [List.lookup_append, List.lookup_append, lookup_cellsAt_inside h,
    lookup_filter_of_drop (fun y => decide (y < a)) m (by simp)]
  simp

/-! ### Reading a byte string -/

theorem Memory.readBytes_succ (m : Memory) (a n : Nat) :
    m.readBytes a (n + 1) = (m.read a).bind (fun b => (m.readBytes (a + 1) n).map (fun bs => b :: bs)) := by
  rw [Memory.readBytes]
  cases m.read a <;> simp
  cases m.readBytes (a + 1) n <;> simp

theorem Memory.readBytes_length {m : Memory} {a n : Nat} {bs : List Byte} (h : m.readBytes a n = some bs) :
    bs.length = n := by
  induction n generalizing a bs with
  | zero => simp [Memory.readBytes] at h; simp [h]
  | succ n ih =>
    rw [Memory.readBytes_succ] at h
    simp only [Option.bind_eq_some_iff, Option.map_eq_some_iff] at h
    obtain ⟨b, -, bs', hb, rfl⟩ := h
    simp [ih hb]

/-- A byte string reads as `bs` exactly when each of its bytes does. -/
theorem Memory.readBytes_eq_some_iff {m : Memory} {a n : Nat} {bs : List Byte} :
    m.readBytes a n = some bs ↔ bs.length = n ∧ ∀ i (h : i < bs.length), m.read (a + i) = some bs[i] := by
  induction n generalizing a bs with
  | zero =>
    simp only [Memory.readBytes, Option.some.injEq]
    constructor
    · rintro rfl; simp
    · rintro ⟨h, -⟩; exact (List.eq_nil_of_length_eq_zero h).symm
  | succ n ih =>
    rw [Memory.readBytes_succ]
    simp only [Option.bind_eq_some_iff, Option.map_eq_some_iff, ih]
    constructor
    · rintro ⟨b, hb, bs', ⟨hlen, hall⟩, rfl⟩
      refine ⟨by simp [hlen], fun i hi => ?_⟩
      cases i with
      | zero => simpa using hb
      | succ i =>
        have := hall i (by simpa using hi)
        rw [Nat.add_right_comm, Nat.add_assoc] at this
        simpa using this
    · rintro ⟨hlen, hall⟩
      cases bs with
      | nil => simp at hlen
      | cons b bs =>
        refine ⟨b, hall 0 (by simp), bs, ⟨by simpa using hlen, fun i hi => ?_⟩, rfl⟩
        have := hall (i + 1) (by simpa using hi)
        rw [Nat.add_right_comm, Nat.add_assoc]
        simpa using this

/-- A byte string has no value exactly when one of its bytes has none (R42). -/
theorem Memory.readBytes_eq_none_iff {m : Memory} {a n : Nat} :
    m.readBytes a n = none ↔ ∃ k, k < n ∧ m.read (a + k) = none := by
  induction n generalizing a with
  | zero => simp [Memory.readBytes]
  | succ n ih =>
    rw [Memory.readBytes_succ, Nat.exists_lt_succ_left]
    cases h : m.read a with
    | none => simp
    | some b =>
      have e : ∀ k, a + 1 + k = a + (k + 1) := fun k => by omega
      simp [ih, e]

/-- What was written reads back whole. -/
theorem Memory.readBytes_writeBytes_same (m : Memory) (a : Nat) (bs : List Byte) :
    (m.writeBytes a bs).readBytes a bs.length = some bs :=
  Memory.readBytes_eq_some_iff.mpr ⟨rfl, fun _ h => m.read_writeBytes_inside h⟩

/-- A read of a region does not see a write outside it. -/
theorem Memory.readBytes_of_sameOutside {m m' : Memory} {a n x k : Nat} (h : m.SameOutside m' a n)
    (hd : x + k ≤ a ∨ a + n ≤ x) : m'.readBytes x k = m.readBytes x k := by
  have key : ∀ bs, m'.readBytes x k = some bs ↔ m.readBytes x k = some bs := by
    intro bs
    rw [Memory.readBytes_eq_some_iff, Memory.readBytes_eq_some_iff]
    refine and_congr_right fun hl => forall_congr' fun i => forall_congr' fun hi => ?_
    rw [h (x + i) (by omega)]
  cases h' : m'.readBytes x k with
  | some bs => exact ((key bs).mp h').symm
  | none =>
    cases h'' : m.readBytes x k with
    | none => rfl
    | some bs => rw [(key bs).mpr h''] at h'; simp at h'

/-- A write stores its bytes and nothing else. -/
theorem Memory.stored_writeBytes (m : Memory) (a : Nat) (bs : List Byte) : m.Stored (m.writeBytes a bs) a bs :=
  ⟨m.readBytes_writeBytes_same a bs, fun _ h => m.read_writeBytes_outside bs h⟩

/-! ### Canonical form and bounds -/

/-- A write keeps the canonical form. -/
theorem Memory.writeBytes_wf {m : Memory} (h : m.wf) (a : Nat) (bs : List Byte) : (m.writeBytes a bs).wf := by
  unfold Memory.writeBytes Memory.wf
  rw [List.pairwise_append, List.pairwise_append]
  refine ⟨⟨h.sublist List.filter_sublist, cellsAt_wf a bs, ?_⟩, h.sublist List.filter_sublist, ?_⟩
  · intro c hc d hd
    have h1 := (List.mem_filter.mp hc).2
    have h2 := mem_cellsAt hd
    simp only [decide_eq_true_eq] at h1
    omega
  · intro c hc d hd
    have h2 := (List.mem_filter.mp hd).2
    simp only [decide_eq_true_eq] at h2
    rcases List.mem_append.mp hc with hc | hc
    · have h1 := (List.mem_filter.mp hc).2
      simp only [decide_eq_true_eq] at h1
      omega
    · have h1 := mem_cellsAt hc
      omega

/-- A write inside the buffer keeps every byte inside it. -/
theorem Memory.writeBytes_within {m : Memory} {n : Nat} (h : m.within n) {a : Nat} {bs : List Byte}
    (hb : a + bs.length ≤ n) : (m.writeBytes a bs).within n := by
  intro c hc
  unfold Memory.writeBytes at hc
  rcases List.mem_append.mp hc with hc | hc
  · rcases List.mem_append.mp hc with hc | hc
    · exact h c (List.mem_filter.mp hc).1
    · have := mem_cellsAt hc
      omega
  · exact h c (List.mem_filter.mp hc).1

/-- In the canonical form, storing nothing changes nothing. -/
theorem Memory.writeBytes_nil {m : Memory} (h : m.wf) (a : Nat) : m.writeBytes a [] = m := by
  induction m with
  | nil => rfl
  | cons c m ih =>
    obtain ⟨hc, hm⟩ := List.pairwise_cons.mp h
    have ih := ih hm
    unfold Memory.writeBytes at ih ⊢
    simp only [cellsAt, List.append_nil, List.length_nil, Nat.add_zero, List.filter_cons] at ih ⊢
    by_cases hca : c.1 < a
    · have hac : ¬ a ≤ c.1 := by omega
      simp [hca, hac, ih]
    · have hac : a ≤ c.1 := by omega
      have hnone : m.filter (fun d => decide (d.1 < a)) = [] := by
        rw [List.filter_eq_nil_iff]
        intro d hd
        have := hc d hd
        simp only [decide_eq_true_eq]
        omega
      simp only [hnone, List.nil_append] at ih
      simp [hca, hac, hnone, ih]

end Sys2Proof.Machine
end

