-- ==== Sys2Proof/Laws/State.lean ====
section
/-! SUPPORT. What each named update of the state does to each field: one lemma a field and an update, true by unfolding it. -/

namespace Sys2Proof.Machine

variable (s : State)

/-! ### State.memWrite -/

@[simp] theorem State.memWrite_cfg (a : Nat) (bs : List Byte) : (s.memWrite a bs).cfg = s.cfg := rfl
@[simp] theorem State.memWrite_irqEn (a : Nat) (bs : List Byte) : (s.memWrite a bs).irqEn = s.irqEn := rfl
@[simp] theorem State.memWrite_cmd (a : Nat) (bs : List Byte) : (s.memWrite a bs).cmd = s.cmd := rfl
@[simp] theorem State.memWrite_status (a : Nat) (bs : List Byte) : (s.memWrite a bs).status = s.status := rfl
@[simp] theorem State.memWrite_r (a : Nat) (bs : List Byte) : (s.memWrite a bs).r = s.r := rfl
@[simp] theorem State.memWrite_p (a : Nat) (bs : List Byte) : (s.memWrite a bs).p = s.p := rfl
@[simp] theorem State.memWrite_buf (a : Nat) (bs : List Byte) : (s.memWrite a bs).buf = s.buf.writeBytes a bs := rfl
@[simp] theorem State.memWrite_phase (a : Nat) (bs : List Byte) : (s.memWrite a bs).phase = s.phase := rfl
@[simp] theorem State.memWrite_abortPending (a : Nat) (bs : List Byte) : (s.memWrite a bs).abortPending = s.abortPending := rfl
@[simp] theorem State.memWrite_snap (a : Nat) (bs : List Byte) : (s.memWrite a bs).snap = s.snap := rfl
@[simp] theorem State.memWrite_progress (a : Nat) (bs : List Byte) : (s.memWrite a bs).progress = s.progress := rfl
@[simp] theorem State.memWrite_keyStore (a : Nat) (bs : List Byte) : (s.memWrite a bs).keyStore = s.keyStore := rfl
@[simp] theorem State.memWrite_rst (a : Nat) (bs : List Byte) : (s.memWrite a bs).rst = s.rst := rfl
@[simp] theorem State.memWrite_env (a : Nat) (bs : List Byte) : (s.memWrite a bs).env = s.env := rfl
@[simp] theorem State.memWrite_host (a : Nat) (bs : List Byte) : (s.memWrite a bs).host = s.host := rfl
@[simp] theorem State.memWrite_script (a : Nat) (bs : List Byte) : (s.memWrite a bs).script = s.script := rfl

/-! ### State.memWriteIf -/

@[simp] theorem State.memWriteIf_cfg (c : Bool) (a : Nat) (bs : List Byte) :
    (s.memWriteIf c a bs).cfg = s.cfg := by cases c <;> rfl
@[simp] theorem State.memWriteIf_irqEn (c : Bool) (a : Nat) (bs : List Byte) :
    (s.memWriteIf c a bs).irqEn = s.irqEn := by cases c <;> rfl
@[simp] theorem State.memWriteIf_cmd (c : Bool) (a : Nat) (bs : List Byte) :
    (s.memWriteIf c a bs).cmd = s.cmd := by cases c <;> rfl
@[simp] theorem State.memWriteIf_status (c : Bool) (a : Nat) (bs : List Byte) :
    (s.memWriteIf c a bs).status = s.status := by cases c <;> rfl
@[simp] theorem State.memWriteIf_r (c : Bool) (a : Nat) (bs : List Byte) : (s.memWriteIf c a bs).r = s.r := by cases c <;> rfl
@[simp] theorem State.memWriteIf_p (c : Bool) (a : Nat) (bs : List Byte) : (s.memWriteIf c a bs).p = s.p := by cases c <;> rfl
@[simp] theorem State.memWriteIf_buf (c : Bool) (a : Nat) (bs : List Byte) :
    (s.memWriteIf c a bs).buf = if c then s.buf.writeBytes a bs else s.buf := by cases c <;> rfl
@[simp] theorem State.memWriteIf_phase (c : Bool) (a : Nat) (bs : List Byte) :
    (s.memWriteIf c a bs).phase = s.phase := by cases c <;> rfl
@[simp] theorem State.memWriteIf_abortPending (c : Bool) (a : Nat) (bs : List Byte) :
    (s.memWriteIf c a bs).abortPending = s.abortPending := by cases c <;> rfl
@[simp] theorem State.memWriteIf_snap (c : Bool) (a : Nat) (bs : List Byte) :
    (s.memWriteIf c a bs).snap = s.snap := by cases c <;> rfl
@[simp] theorem State.memWriteIf_progress (c : Bool) (a : Nat) (bs : List Byte) :
    (s.memWriteIf c a bs).progress = s.progress := by cases c <;> rfl
@[simp] theorem State.memWriteIf_keyStore (c : Bool) (a : Nat) (bs : List Byte) :
    (s.memWriteIf c a bs).keyStore = s.keyStore := by cases c <;> rfl
@[simp] theorem State.memWriteIf_rst (c : Bool) (a : Nat) (bs : List Byte) :
    (s.memWriteIf c a bs).rst = s.rst := by cases c <;> rfl
@[simp] theorem State.memWriteIf_env (c : Bool) (a : Nat) (bs : List Byte) :
    (s.memWriteIf c a bs).env = s.env := by cases c <;> rfl
@[simp] theorem State.memWriteIf_host (c : Bool) (a : Nat) (bs : List Byte) :
    (s.memWriteIf c a bs).host = s.host := by cases c <;> rfl
@[simp] theorem State.memWriteIf_script (c : Bool) (a : Nat) (bs : List Byte) :
    (s.memWriteIf c a bs).script = s.script := by cases c <;> rfl

/-! ### State.setR -/

@[simp] theorem State.setR_cfg (i : Fin 4) (v : Nat) : (s.setR i v).cfg = s.cfg := rfl
@[simp] theorem State.setR_irqEn (i : Fin 4) (v : Nat) : (s.setR i v).irqEn = s.irqEn := rfl
@[simp] theorem State.setR_cmd (i : Fin 4) (v : Nat) : (s.setR i v).cmd = s.cmd := rfl
@[simp] theorem State.setR_status (i : Fin 4) (v : Nat) : (s.setR i v).status = s.status := rfl
@[simp] theorem State.setR_r (i : Fin 4) (v : Nat) : (s.setR i v).r = s.r.set i (BitVec.ofNat 32 v) := rfl
@[simp] theorem State.setR_p (i : Fin 4) (v : Nat) : (s.setR i v).p = s.p := rfl
@[simp] theorem State.setR_buf (i : Fin 4) (v : Nat) : (s.setR i v).buf = s.buf := rfl
@[simp] theorem State.setR_phase (i : Fin 4) (v : Nat) : (s.setR i v).phase = s.phase := rfl
@[simp] theorem State.setR_abortPending (i : Fin 4) (v : Nat) : (s.setR i v).abortPending = s.abortPending := rfl
@[simp] theorem State.setR_snap (i : Fin 4) (v : Nat) : (s.setR i v).snap = s.snap := rfl
@[simp] theorem State.setR_progress (i : Fin 4) (v : Nat) : (s.setR i v).progress = s.progress := rfl
@[simp] theorem State.setR_keyStore (i : Fin 4) (v : Nat) : (s.setR i v).keyStore = s.keyStore := rfl
@[simp] theorem State.setR_rst (i : Fin 4) (v : Nat) : (s.setR i v).rst = s.rst := rfl
@[simp] theorem State.setR_env (i : Fin 4) (v : Nat) : (s.setR i v).env = s.env := rfl
@[simp] theorem State.setR_host (i : Fin 4) (v : Nat) : (s.setR i v).host = s.host := rfl
@[simp] theorem State.setR_script (i : Fin 4) (v : Nat) : (s.setR i v).script = s.script := rfl

/-! ### State.setCounts -/

@[simp] theorem State.setCounts_cfg (v0 v1 v2 : Nat) : (s.setCounts v0 v1 v2).cfg = s.cfg := rfl
@[simp] theorem State.setCounts_irqEn (v0 v1 v2 : Nat) : (s.setCounts v0 v1 v2).irqEn = s.irqEn := rfl
@[simp] theorem State.setCounts_cmd (v0 v1 v2 : Nat) : (s.setCounts v0 v1 v2).cmd = s.cmd := rfl
@[simp] theorem State.setCounts_status (v0 v1 v2 : Nat) : (s.setCounts v0 v1 v2).status = s.status := rfl
@[simp] theorem State.setCounts_r (v0 v1 v2 : Nat) :
    (s.setCounts v0 v1 v2).r = ((s.r.set 0 (BitVec.ofNat 32 v0)).set 1 (BitVec.ofNat 32 v1)).set 2 (BitVec.ofNat 32 v2) := rfl
@[simp] theorem State.setCounts_p (v0 v1 v2 : Nat) : (s.setCounts v0 v1 v2).p = s.p := rfl
@[simp] theorem State.setCounts_buf (v0 v1 v2 : Nat) : (s.setCounts v0 v1 v2).buf = s.buf := rfl
@[simp] theorem State.setCounts_phase (v0 v1 v2 : Nat) : (s.setCounts v0 v1 v2).phase = s.phase := rfl
@[simp] theorem State.setCounts_abortPending (v0 v1 v2 : Nat) : (s.setCounts v0 v1 v2).abortPending = s.abortPending := rfl
@[simp] theorem State.setCounts_snap (v0 v1 v2 : Nat) : (s.setCounts v0 v1 v2).snap = s.snap := rfl
@[simp] theorem State.setCounts_progress (v0 v1 v2 : Nat) : (s.setCounts v0 v1 v2).progress = s.progress := rfl
@[simp] theorem State.setCounts_keyStore (v0 v1 v2 : Nat) : (s.setCounts v0 v1 v2).keyStore = s.keyStore := rfl
@[simp] theorem State.setCounts_rst (v0 v1 v2 : Nat) : (s.setCounts v0 v1 v2).rst = s.rst := rfl
@[simp] theorem State.setCounts_env (v0 v1 v2 : Nat) : (s.setCounts v0 v1 v2).env = s.env := rfl
@[simp] theorem State.setCounts_host (v0 v1 v2 : Nat) : (s.setCounts v0 v1 v2).host = s.host := rfl
@[simp] theorem State.setCounts_script (v0 v1 v2 : Nat) : (s.setCounts v0 v1 v2).script = s.script := rfl

/-! ### State.issue -/

@[simp] theorem State.issue_cfg (v : Word) : (s.issue v).cfg = s.cfg := rfl
@[simp] theorem State.issue_irqEn (v : Word) : (s.issue v).irqEn = s.irqEn := rfl
@[simp] theorem State.issue_cmd (v : Word) : (s.issue v).cmd = v := rfl
@[simp] theorem State.issue_status (v : Word) : (s.issue v).status = s.status.atIssue := rfl
@[simp] theorem State.issue_r (v : Word) : (s.issue v).r = Vector.replicate 4 0 := rfl
@[simp] theorem State.issue_p (v : Word) : (s.issue v).p = s.p := rfl
@[simp] theorem State.issue_buf (v : Word) : (s.issue v).buf = s.buf := rfl
@[simp] theorem State.issue_phase (v : Word) : (s.issue v).phase = .run (decode v) := rfl
@[simp] theorem State.issue_abortPending (v : Word) : (s.issue v).abortPending = false := rfl
@[simp] theorem State.issue_snap (v : Word) : (s.issue v).snap = { word := v, params := s.p } := rfl
@[simp] theorem State.issue_progress (v : Word) : (s.issue v).progress = Progress.zero := rfl
@[simp] theorem State.issue_keyStore (v : Word) : (s.issue v).keyStore = s.keyStore := rfl
@[simp] theorem State.issue_rst (v : Word) : (s.issue v).rst = s.rst := rfl
@[simp] theorem State.issue_env (v : Word) : (s.issue v).env = s.env := rfl
@[simp] theorem State.issue_host (v : Word) : (s.issue v).host = s.host := rfl
@[simp] theorem State.issue_script (v : Word) : (s.issue v).script = s.script := rfl

/-! ### State.complete -/

@[simp] theorem State.complete_cfg (st : Status) : (s.complete st).cfg = s.cfg := rfl
@[simp] theorem State.complete_irqEn (st : Status) : (s.complete st).irqEn = s.irqEn := rfl
@[simp] theorem State.complete_cmd (st : Status) : (s.complete st).cmd = s.cmd := rfl
@[simp] theorem State.complete_status (st : Status) : (s.complete st).status = st := rfl
@[simp] theorem State.complete_r (st : Status) : (s.complete st).r = s.r := rfl
@[simp] theorem State.complete_p (st : Status) : (s.complete st).p = s.p := rfl
@[simp] theorem State.complete_buf (st : Status) : (s.complete st).buf = s.buf := rfl
@[simp] theorem State.complete_phase (st : Status) : (s.complete st).phase = .idle := rfl
@[simp] theorem State.complete_abortPending (st : Status) : (s.complete st).abortPending = false := rfl
@[simp] theorem State.complete_snap (st : Status) : (s.complete st).snap = s.snap := rfl
@[simp] theorem State.complete_progress (st : Status) : (s.complete st).progress = Progress.zero := rfl
@[simp] theorem State.complete_keyStore (st : Status) : (s.complete st).keyStore = none := rfl
@[simp] theorem State.complete_rst (st : Status) : (s.complete st).rst = s.rst := rfl
@[simp] theorem State.complete_env (st : Status) : (s.complete st).env = s.env := rfl
@[simp] theorem State.complete_host (st : Status) : (s.complete st).host = s.host := rfl
@[simp] theorem State.complete_script (st : Status) : (s.complete st).script = s.script := rfl

/-! ### State.finish -/

@[simp] theorem State.finish_cfg : s.finish.cfg = s.cfg := rfl
@[simp] theorem State.finish_irqEn : s.finish.irqEn = s.irqEn := rfl
@[simp] theorem State.finish_cmd : s.finish.cmd = s.cmd := rfl
@[simp] theorem State.finish_status : s.finish.status = s.status.atDone := rfl
@[simp] theorem State.finish_r : s.finish.r = s.r := rfl
@[simp] theorem State.finish_p : s.finish.p = s.p := rfl
@[simp] theorem State.finish_buf : s.finish.buf = s.buf := rfl
@[simp] theorem State.finish_phase : s.finish.phase = .idle := rfl
@[simp] theorem State.finish_abortPending : s.finish.abortPending = false := rfl
@[simp] theorem State.finish_snap : s.finish.snap = s.snap := rfl
@[simp] theorem State.finish_progress : s.finish.progress = Progress.zero := rfl
@[simp] theorem State.finish_keyStore : s.finish.keyStore = none := rfl
@[simp] theorem State.finish_rst : s.finish.rst = s.rst := rfl
@[simp] theorem State.finish_env : s.finish.env = s.env := rfl
@[simp] theorem State.finish_host : s.finish.host = s.host := rfl
@[simp] theorem State.finish_script : s.finish.script = s.script := rfl

/-! ### State.raise -/

@[simp] theorem State.raise_cfg (e : ErrCode) : (s.raise e).cfg = s.cfg := rfl
@[simp] theorem State.raise_irqEn (e : ErrCode) : (s.raise e).irqEn = s.irqEn := rfl
@[simp] theorem State.raise_cmd (e : ErrCode) : (s.raise e).cmd = s.cmd := rfl
@[simp] theorem State.raise_status (e : ErrCode) : (s.raise e).status = s.status.atErr e := rfl
@[simp] theorem State.raise_r (e : ErrCode) : (s.raise e).r = s.r := rfl
@[simp] theorem State.raise_p (e : ErrCode) : (s.raise e).p = s.p := rfl
@[simp] theorem State.raise_buf (e : ErrCode) : (s.raise e).buf = s.buf := rfl
@[simp] theorem State.raise_phase (e : ErrCode) : (s.raise e).phase = .idle := rfl
@[simp] theorem State.raise_abortPending (e : ErrCode) : (s.raise e).abortPending = false := rfl
@[simp] theorem State.raise_snap (e : ErrCode) : (s.raise e).snap = s.snap := rfl
@[simp] theorem State.raise_progress (e : ErrCode) : (s.raise e).progress = Progress.zero := rfl
@[simp] theorem State.raise_keyStore (e : ErrCode) : (s.raise e).keyStore = none := rfl
@[simp] theorem State.raise_rst (e : ErrCode) : (s.raise e).rst = s.rst := rfl
@[simp] theorem State.raise_env (e : ErrCode) : (s.raise e).env = s.env := rfl
@[simp] theorem State.raise_host (e : ErrCode) : (s.raise e).host = s.host := rfl
@[simp] theorem State.raise_script (e : ErrCode) : (s.raise e).script = s.script := rfl

/-! ### State.cancel -/

@[simp] theorem State.cancel_cfg : s.cancel.cfg = s.cfg := rfl
@[simp] theorem State.cancel_irqEn : s.cancel.irqEn = s.irqEn := rfl
@[simp] theorem State.cancel_cmd : s.cancel.cmd = s.cmd := rfl
@[simp] theorem State.cancel_status : s.cancel.status = s.status.atCancel := rfl
@[simp] theorem State.cancel_r : s.cancel.r = s.r := rfl
@[simp] theorem State.cancel_p : s.cancel.p = s.p := rfl
@[simp] theorem State.cancel_buf : s.cancel.buf = s.buf := rfl
@[simp] theorem State.cancel_phase : s.cancel.phase = .idle := rfl
@[simp] theorem State.cancel_abortPending : s.cancel.abortPending = false := rfl
@[simp] theorem State.cancel_snap : s.cancel.snap = s.snap := rfl
@[simp] theorem State.cancel_progress : s.cancel.progress = Progress.zero := rfl
@[simp] theorem State.cancel_keyStore : s.cancel.keyStore = none := rfl
@[simp] theorem State.cancel_rst : s.cancel.rst = s.rst := rfl
@[simp] theorem State.cancel_env : s.cancel.env = s.env := rfl
@[simp] theorem State.cancel_host : s.cancel.host = s.host := rfl
@[simp] theorem State.cancel_script : s.cancel.script = s.script := rfl

/-! ### State.loadKey -/

@[simp] theorem State.loadKey_cfg (key : List Byte) (w : List Quad) : (s.loadKey key w).cfg = s.cfg := rfl
@[simp] theorem State.loadKey_irqEn (key : List Byte) (w : List Quad) : (s.loadKey key w).irqEn = s.irqEn := rfl
@[simp] theorem State.loadKey_cmd (key : List Byte) (w : List Quad) : (s.loadKey key w).cmd = s.cmd := rfl
@[simp] theorem State.loadKey_status (key : List Byte) (w : List Quad) : (s.loadKey key w).status = s.status := rfl
@[simp] theorem State.loadKey_r (key : List Byte) (w : List Quad) : (s.loadKey key w).r = s.r := rfl
@[simp] theorem State.loadKey_p (key : List Byte) (w : List Quad) : (s.loadKey key w).p = s.p := rfl
@[simp] theorem State.loadKey_buf (key : List Byte) (w : List Quad) : (s.loadKey key w).buf = s.buf := rfl
@[simp] theorem State.loadKey_phase (key : List Byte) (w : List Quad) : (s.loadKey key w).phase = s.phase := rfl
@[simp] theorem State.loadKey_abortPending (key : List Byte) (w : List Quad) :
    (s.loadKey key w).abortPending = s.abortPending := rfl
@[simp] theorem State.loadKey_snap (key : List Byte) (w : List Quad) : (s.loadKey key w).snap = s.snap := rfl
@[simp] theorem State.loadKey_progress (key : List Byte) (w : List Quad) : (s.loadKey key w).progress = s.progress := rfl
@[simp] theorem State.loadKey_keyStore (key : List Byte) (w : List Quad) :
    (s.loadKey key w).keyStore = some { key := key, words := w } := rfl
@[simp] theorem State.loadKey_rst (key : List Byte) (w : List Quad) : (s.loadKey key w).rst = s.rst := rfl
@[simp] theorem State.loadKey_env (key : List Byte) (w : List Quad) : (s.loadKey key w).env = s.env := rfl
@[simp] theorem State.loadKey_host (key : List Byte) (w : List Quad) : (s.loadKey key w).host = s.host := rfl
@[simp] theorem State.loadKey_script (key : List Byte) (w : List Quad) : (s.loadKey key w).script = s.script := rfl

/-! ### State.withEnv -/

@[simp] theorem State.withEnv_cfg (e : Env) : (s.withEnv e).cfg = s.cfg := rfl
@[simp] theorem State.withEnv_irqEn (e : Env) : (s.withEnv e).irqEn = s.irqEn := rfl
@[simp] theorem State.withEnv_cmd (e : Env) : (s.withEnv e).cmd = s.cmd := rfl
@[simp] theorem State.withEnv_status (e : Env) : (s.withEnv e).status = s.status := rfl
@[simp] theorem State.withEnv_r (e : Env) : (s.withEnv e).r = s.r := rfl
@[simp] theorem State.withEnv_p (e : Env) : (s.withEnv e).p = s.p := rfl
@[simp] theorem State.withEnv_buf (e : Env) : (s.withEnv e).buf = s.buf := rfl
@[simp] theorem State.withEnv_phase (e : Env) : (s.withEnv e).phase = s.phase := rfl
@[simp] theorem State.withEnv_abortPending (e : Env) : (s.withEnv e).abortPending = s.abortPending := rfl
@[simp] theorem State.withEnv_snap (e : Env) : (s.withEnv e).snap = s.snap := rfl
@[simp] theorem State.withEnv_progress (e : Env) : (s.withEnv e).progress = s.progress := rfl
@[simp] theorem State.withEnv_keyStore (e : Env) : (s.withEnv e).keyStore = s.keyStore := rfl
@[simp] theorem State.withEnv_rst (e : Env) : (s.withEnv e).rst = s.rst := rfl
@[simp] theorem State.withEnv_env (e : Env) : (s.withEnv e).env = e := rfl
@[simp] theorem State.withEnv_host (e : Env) : (s.withEnv e).host = s.host := rfl
@[simp] theorem State.withEnv_script (e : Env) : (s.withEnv e).script = s.script := rfl

/-! ### State.held -/

@[simp] theorem State.held_cfg : s.held.cfg = s.cfg := rfl
@[simp] theorem State.held_irqEn : s.held.irqEn = s.irqEn := rfl
@[simp] theorem State.held_cmd : s.held.cmd = s.cmd := rfl
@[simp] theorem State.held_status : s.held.status = { s.status with wait := true } := rfl
@[simp] theorem State.held_r : s.held.r = s.r := rfl
@[simp] theorem State.held_p : s.held.p = s.p := rfl
@[simp] theorem State.held_buf : s.held.buf = s.buf := rfl
@[simp] theorem State.held_phase : s.held.phase = s.phase := rfl
@[simp] theorem State.held_abortPending : s.held.abortPending = s.abortPending := rfl
@[simp] theorem State.held_snap : s.held.snap = s.snap := rfl
@[simp] theorem State.held_progress : s.held.progress = s.progress := rfl
@[simp] theorem State.held_keyStore : s.held.keyStore = s.keyStore := rfl
@[simp] theorem State.held_rst : s.held.rst = s.rst := rfl
@[simp] theorem State.held_env : s.held.env = s.env := rfl
@[simp] theorem State.held_host : s.held.host = s.host := rfl
@[simp] theorem State.held_script : s.held.script = s.script := rfl

/-! ### State.unheld -/

@[simp] theorem State.unheld_cfg : s.unheld.cfg = s.cfg := rfl
@[simp] theorem State.unheld_irqEn : s.unheld.irqEn = s.irqEn := rfl
@[simp] theorem State.unheld_cmd : s.unheld.cmd = s.cmd := rfl
@[simp] theorem State.unheld_status : s.unheld.status = { s.status with wait := false } := rfl
@[simp] theorem State.unheld_r : s.unheld.r = s.r := rfl
@[simp] theorem State.unheld_p : s.unheld.p = s.p := rfl
@[simp] theorem State.unheld_buf : s.unheld.buf = s.buf := rfl
@[simp] theorem State.unheld_phase : s.unheld.phase = s.phase := rfl
@[simp] theorem State.unheld_abortPending : s.unheld.abortPending = s.abortPending := rfl
@[simp] theorem State.unheld_snap : s.unheld.snap = s.snap := rfl
@[simp] theorem State.unheld_progress : s.unheld.progress = s.progress := rfl
@[simp] theorem State.unheld_keyStore : s.unheld.keyStore = s.keyStore := rfl
@[simp] theorem State.unheld_rst : s.unheld.rst = s.rst := rfl
@[simp] theorem State.unheld_env : s.unheld.env = s.env := rfl
@[simp] theorem State.unheld_host : s.unheld.host = s.host := rfl
@[simp] theorem State.unheld_script : s.unheld.script = s.script := rfl

/-! ### State.afterReset -/

@[simp] theorem State.afterReset_cfg : s.afterReset.cfg = s.cfg := rfl
@[simp] theorem State.afterReset_irqEn : s.afterReset.irqEn = false := rfl
@[simp] theorem State.afterReset_cmd : s.afterReset.cmd = 0 := rfl
@[simp] theorem State.afterReset_status : s.afterReset.status = Status.zero := rfl
@[simp] theorem State.afterReset_r : s.afterReset.r = Vector.replicate 4 0 := rfl
@[simp] theorem State.afterReset_p : s.afterReset.p = Vector.replicate 16 0 := rfl
@[simp] theorem State.afterReset_buf : s.afterReset.buf = [] := rfl
@[simp] theorem State.afterReset_phase : s.afterReset.phase = .idle := rfl
@[simp] theorem State.afterReset_abortPending : s.afterReset.abortPending = false := rfl
@[simp] theorem State.afterReset_snap : s.afterReset.snap = { word := 0, params := Vector.replicate 16 0 } := rfl
@[simp] theorem State.afterReset_progress : s.afterReset.progress = Progress.zero := rfl
@[simp] theorem State.afterReset_keyStore : s.afterReset.keyStore = none := rfl
@[simp] theorem State.afterReset_rst : s.afterReset.rst = false := rfl
@[simp] theorem State.afterReset_env : s.afterReset.env = s.env := rfl
@[simp] theorem State.afterReset_host : s.afterReset.host = s.host := rfl
@[simp] theorem State.afterReset_script : s.afterReset.script = s.script := rfl

/-! ### State.answer -/

@[simp] theorem State.answer_cfg (a : BusAnswer) : (s.answer a).cfg = s.cfg := rfl
@[simp] theorem State.answer_irqEn (a : BusAnswer) : (s.answer a).irqEn = s.irqEn := rfl
@[simp] theorem State.answer_cmd (a : BusAnswer) : (s.answer a).cmd = s.cmd := rfl
@[simp] theorem State.answer_status (a : BusAnswer) : (s.answer a).status = s.status := rfl
@[simp] theorem State.answer_r (a : BusAnswer) : (s.answer a).r = s.r := rfl
@[simp] theorem State.answer_p (a : BusAnswer) : (s.answer a).p = s.p := rfl
@[simp] theorem State.answer_buf (a : BusAnswer) : (s.answer a).buf = s.buf := rfl
@[simp] theorem State.answer_phase (a : BusAnswer) : (s.answer a).phase = s.phase := rfl
@[simp] theorem State.answer_abortPending (a : BusAnswer) : (s.answer a).abortPending = s.abortPending := rfl
@[simp] theorem State.answer_snap (a : BusAnswer) : (s.answer a).snap = s.snap := rfl
@[simp] theorem State.answer_progress (a : BusAnswer) : (s.answer a).progress = s.progress := rfl
@[simp] theorem State.answer_keyStore (a : BusAnswer) : (s.answer a).keyStore = s.keyStore := rfl
@[simp] theorem State.answer_rst (a : BusAnswer) : (s.answer a).rst = s.rst := rfl
@[simp] theorem State.answer_env (a : BusAnswer) : (s.answer a).env = s.env := rfl
@[simp] theorem State.answer_host (a : BusAnswer) : (s.answer a).host = { s.host with bus := a } := rfl
@[simp] theorem State.answer_script (a : BusAnswer) : (s.answer a).script = s.script := rfl

/-! ### State.markOvr -/

@[simp] theorem State.markOvr_cfg : s.markOvr.cfg = s.cfg := rfl
@[simp] theorem State.markOvr_irqEn : s.markOvr.irqEn = s.irqEn := rfl
@[simp] theorem State.markOvr_cmd : s.markOvr.cmd = s.cmd := rfl
@[simp] theorem State.markOvr_status : s.markOvr.status = { s.status with ovr := true } := rfl
@[simp] theorem State.markOvr_r : s.markOvr.r = s.r := rfl
@[simp] theorem State.markOvr_p : s.markOvr.p = s.p := rfl
@[simp] theorem State.markOvr_buf : s.markOvr.buf = s.buf := rfl
@[simp] theorem State.markOvr_phase : s.markOvr.phase = s.phase := rfl
@[simp] theorem State.markOvr_abortPending : s.markOvr.abortPending = s.abortPending := rfl
@[simp] theorem State.markOvr_snap : s.markOvr.snap = s.snap := rfl
@[simp] theorem State.markOvr_progress : s.markOvr.progress = s.progress := rfl
@[simp] theorem State.markOvr_keyStore : s.markOvr.keyStore = s.keyStore := rfl
@[simp] theorem State.markOvr_rst : s.markOvr.rst = s.rst := rfl
@[simp] theorem State.markOvr_env : s.markOvr.env = s.env := rfl
@[simp] theorem State.markOvr_host : s.markOvr.host = s.host := rfl
@[simp] theorem State.markOvr_script : s.markOvr.script = s.script := rfl

/-! ### State.markHaz -/

@[simp] theorem State.markHaz_cfg : s.markHaz.cfg = s.cfg := rfl
@[simp] theorem State.markHaz_irqEn : s.markHaz.irqEn = s.irqEn := rfl
@[simp] theorem State.markHaz_cmd : s.markHaz.cmd = s.cmd := rfl
@[simp] theorem State.markHaz_status : s.markHaz.status = { s.status with haz := true } := rfl
@[simp] theorem State.markHaz_r : s.markHaz.r = s.r := rfl
@[simp] theorem State.markHaz_p : s.markHaz.p = s.p := rfl
@[simp] theorem State.markHaz_buf : s.markHaz.buf = s.buf := rfl
@[simp] theorem State.markHaz_phase : s.markHaz.phase = s.phase := rfl
@[simp] theorem State.markHaz_abortPending : s.markHaz.abortPending = s.abortPending := rfl
@[simp] theorem State.markHaz_snap : s.markHaz.snap = s.snap := rfl
@[simp] theorem State.markHaz_progress : s.markHaz.progress = s.progress := rfl
@[simp] theorem State.markHaz_keyStore : s.markHaz.keyStore = s.keyStore := rfl
@[simp] theorem State.markHaz_rst : s.markHaz.rst = s.rst := rfl
@[simp] theorem State.markHaz_env : s.markHaz.env = s.env := rfl
@[simp] theorem State.markHaz_host : s.markHaz.host = s.host := rfl
@[simp] theorem State.markHaz_script : s.markHaz.script = s.script := rfl

/-! ### State.setP -/

@[simp] theorem State.setP_cfg (i : Fin 16) (v : Word) : (s.setP i v).cfg = s.cfg := rfl
@[simp] theorem State.setP_irqEn (i : Fin 16) (v : Word) : (s.setP i v).irqEn = s.irqEn := rfl
@[simp] theorem State.setP_cmd (i : Fin 16) (v : Word) : (s.setP i v).cmd = s.cmd := rfl
@[simp] theorem State.setP_status (i : Fin 16) (v : Word) : (s.setP i v).status = s.status := rfl
@[simp] theorem State.setP_r (i : Fin 16) (v : Word) : (s.setP i v).r = s.r := rfl
@[simp] theorem State.setP_p (i : Fin 16) (v : Word) : (s.setP i v).p = s.p.set i v := rfl
@[simp] theorem State.setP_buf (i : Fin 16) (v : Word) : (s.setP i v).buf = s.buf := rfl
@[simp] theorem State.setP_phase (i : Fin 16) (v : Word) : (s.setP i v).phase = s.phase := rfl
@[simp] theorem State.setP_abortPending (i : Fin 16) (v : Word) : (s.setP i v).abortPending = s.abortPending := rfl
@[simp] theorem State.setP_snap (i : Fin 16) (v : Word) : (s.setP i v).snap = s.snap := rfl
@[simp] theorem State.setP_progress (i : Fin 16) (v : Word) : (s.setP i v).progress = s.progress := rfl
@[simp] theorem State.setP_keyStore (i : Fin 16) (v : Word) : (s.setP i v).keyStore = s.keyStore := rfl
@[simp] theorem State.setP_rst (i : Fin 16) (v : Word) : (s.setP i v).rst = s.rst := rfl
@[simp] theorem State.setP_env (i : Fin 16) (v : Word) : (s.setP i v).env = s.env := rfl
@[simp] theorem State.setP_host (i : Fin 16) (v : Word) : (s.setP i v).host = s.host := rfl
@[simp] theorem State.setP_script (i : Fin 16) (v : Word) : (s.setP i v).script = s.script := rfl

/-! ### State.tickDraw -/

@[simp] theorem State.tickDraw_cfg : s.tickDraw.cfg = s.cfg := rfl
@[simp] theorem State.tickDraw_irqEn : s.tickDraw.irqEn = s.irqEn := rfl
@[simp] theorem State.tickDraw_cmd : s.tickDraw.cmd = s.cmd := rfl
@[simp] theorem State.tickDraw_status : s.tickDraw.status = s.status := rfl
@[simp] theorem State.tickDraw_r : s.tickDraw.r = s.r := rfl
@[simp] theorem State.tickDraw_p : s.tickDraw.p = s.p := rfl
@[simp] theorem State.tickDraw_buf : s.tickDraw.buf = s.buf := rfl
@[simp] theorem State.tickDraw_phase : s.tickDraw.phase = s.phase := rfl
@[simp] theorem State.tickDraw_abortPending : s.tickDraw.abortPending = s.abortPending := rfl
@[simp] theorem State.tickDraw_snap : s.tickDraw.snap = s.snap := rfl
@[simp] theorem State.tickDraw_progress : s.tickDraw.progress = s.progress := rfl
@[simp] theorem State.tickDraw_keyStore : s.tickDraw.keyStore = s.keyStore := rfl
@[simp] theorem State.tickDraw_rst : s.tickDraw.rst = s.rst := rfl
@[simp] theorem State.tickDraw_env : s.tickDraw.env = { s.env with draws := s.env.draws + 1 } := rfl
@[simp] theorem State.tickDraw_host : s.tickDraw.host = s.host := rfl
@[simp] theorem State.tickDraw_script : s.tickDraw.script = s.script := rfl

/-! ### State.streamChecked -/

@[simp] theorem State.streamChecked_cfg (bs : List Byte) : (s.streamChecked bs).cfg = s.cfg := rfl
@[simp] theorem State.streamChecked_irqEn (bs : List Byte) : (s.streamChecked bs).irqEn = s.irqEn := rfl
@[simp] theorem State.streamChecked_cmd (bs : List Byte) : (s.streamChecked bs).cmd = s.cmd := rfl
@[simp] theorem State.streamChecked_status (bs : List Byte) : (s.streamChecked bs).status = s.status := rfl
@[simp] theorem State.streamChecked_r (bs : List Byte) : (s.streamChecked bs).r = s.r := rfl
@[simp] theorem State.streamChecked_p (bs : List Byte) : (s.streamChecked bs).p = s.p := rfl
@[simp] theorem State.streamChecked_buf (bs : List Byte) : (s.streamChecked bs).buf = s.buf := rfl
@[simp] theorem State.streamChecked_phase (bs : List Byte) : (s.streamChecked bs).phase = s.phase := rfl
@[simp] theorem State.streamChecked_abortPending (bs : List Byte) : (s.streamChecked bs).abortPending = s.abortPending := rfl
@[simp] theorem State.streamChecked_snap (bs : List Byte) : (s.streamChecked bs).snap = s.snap := rfl
@[simp] theorem State.streamChecked_progress (bs : List Byte) :
    (s.streamChecked bs).progress = { s.progress with checked := true, pending := bs } := rfl
@[simp] theorem State.streamChecked_keyStore (bs : List Byte) : (s.streamChecked bs).keyStore = s.keyStore := rfl
@[simp] theorem State.streamChecked_rst (bs : List Byte) : (s.streamChecked bs).rst = s.rst := rfl
@[simp] theorem State.streamChecked_env (bs : List Byte) : (s.streamChecked bs).env = s.env := rfl
@[simp] theorem State.streamChecked_host (bs : List Byte) : (s.streamChecked bs).host = s.host := rfl
@[simp] theorem State.streamChecked_script (bs : List Byte) : (s.streamChecked bs).script = s.script := rfl

/-! ### State.gotHeaderByte -/

@[simp] theorem State.gotHeaderByte_cfg (b : Byte) : (s.gotHeaderByte b).cfg = s.cfg := rfl
@[simp] theorem State.gotHeaderByte_irqEn (b : Byte) : (s.gotHeaderByte b).irqEn = s.irqEn := rfl
@[simp] theorem State.gotHeaderByte_cmd (b : Byte) : (s.gotHeaderByte b).cmd = s.cmd := rfl
@[simp] theorem State.gotHeaderByte_status (b : Byte) : (s.gotHeaderByte b).status = s.status := rfl
@[simp] theorem State.gotHeaderByte_r (b : Byte) : (s.gotHeaderByte b).r = s.r := rfl
@[simp] theorem State.gotHeaderByte_p (b : Byte) : (s.gotHeaderByte b).p = s.p := rfl
@[simp] theorem State.gotHeaderByte_buf (b : Byte) : (s.gotHeaderByte b).buf = s.buf := rfl
@[simp] theorem State.gotHeaderByte_phase (b : Byte) : (s.gotHeaderByte b).phase = s.phase := rfl
@[simp] theorem State.gotHeaderByte_abortPending (b : Byte) : (s.gotHeaderByte b).abortPending = s.abortPending := rfl
@[simp] theorem State.gotHeaderByte_snap (b : Byte) : (s.gotHeaderByte b).snap = s.snap := rfl
@[simp] theorem State.gotHeaderByte_progress (b : Byte) :
    (s.gotHeaderByte b).progress = { s.progress with hdr := s.progress.hdr ++ [b] } := rfl
@[simp] theorem State.gotHeaderByte_keyStore (b : Byte) : (s.gotHeaderByte b).keyStore = s.keyStore := rfl
@[simp] theorem State.gotHeaderByte_rst (b : Byte) : (s.gotHeaderByte b).rst = s.rst := rfl
@[simp] theorem State.gotHeaderByte_env (b : Byte) : (s.gotHeaderByte b).env = s.env := rfl
@[simp] theorem State.gotHeaderByte_host (b : Byte) : (s.gotHeaderByte b).host = s.host := rfl
@[simp] theorem State.gotHeaderByte_script (b : Byte) : (s.gotHeaderByte b).script = s.script := rfl

/-! ### State.gotLength -/

@[simp] theorem State.gotLength_cfg (d : Nat) : (s.gotLength d).cfg = s.cfg := rfl
@[simp] theorem State.gotLength_irqEn (d : Nat) : (s.gotLength d).irqEn = s.irqEn := rfl
@[simp] theorem State.gotLength_cmd (d : Nat) : (s.gotLength d).cmd = s.cmd := rfl
@[simp] theorem State.gotLength_status (d : Nat) : (s.gotLength d).status = s.status := rfl
@[simp] theorem State.gotLength_r (d : Nat) : (s.gotLength d).r = s.r := rfl
@[simp] theorem State.gotLength_p (d : Nat) : (s.gotLength d).p = s.p := rfl
@[simp] theorem State.gotLength_buf (d : Nat) : (s.gotLength d).buf = s.buf := rfl
@[simp] theorem State.gotLength_phase (d : Nat) : (s.gotLength d).phase = s.phase := rfl
@[simp] theorem State.gotLength_abortPending (d : Nat) : (s.gotLength d).abortPending = s.abortPending := rfl
@[simp] theorem State.gotLength_snap (d : Nat) : (s.gotLength d).snap = s.snap := rfl
@[simp] theorem State.gotLength_progress (d : Nat) :
    (s.gotLength d).progress = { s.progress with declared := BitVec.ofNat 32 d } := rfl
@[simp] theorem State.gotLength_keyStore (d : Nat) : (s.gotLength d).keyStore = s.keyStore := rfl
@[simp] theorem State.gotLength_rst (d : Nat) : (s.gotLength d).rst = s.rst := rfl
@[simp] theorem State.gotLength_env (d : Nat) : (s.gotLength d).env = s.env := rfl
@[simp] theorem State.gotLength_host (d : Nat) : (s.gotLength d).host = s.host := rfl
@[simp] theorem State.gotLength_script (d : Nat) : (s.gotLength d).script = s.script := rfl

/-! ### State.gotPayloadByte -/

@[simp] theorem State.gotPayloadByte_cfg (a : Nat) (b : Byte) : (s.gotPayloadByte a b).cfg = s.cfg := rfl
@[simp] theorem State.gotPayloadByte_irqEn (a : Nat) (b : Byte) : (s.gotPayloadByte a b).irqEn = s.irqEn := rfl
@[simp] theorem State.gotPayloadByte_cmd (a : Nat) (b : Byte) : (s.gotPayloadByte a b).cmd = s.cmd := rfl
@[simp] theorem State.gotPayloadByte_status (a : Nat) (b : Byte) : (s.gotPayloadByte a b).status = s.status := rfl
@[simp] theorem State.gotPayloadByte_r (a : Nat) (b : Byte) : (s.gotPayloadByte a b).r = s.r := rfl
@[simp] theorem State.gotPayloadByte_p (a : Nat) (b : Byte) : (s.gotPayloadByte a b).p = s.p := rfl
@[simp] theorem State.gotPayloadByte_buf (a : Nat) (b : Byte) : (s.gotPayloadByte a b).buf = s.buf.writeBytes a [b] := rfl
@[simp] theorem State.gotPayloadByte_phase (a : Nat) (b : Byte) : (s.gotPayloadByte a b).phase = s.phase := rfl
@[simp] theorem State.gotPayloadByte_abortPending (a : Nat) (b : Byte) :
    (s.gotPayloadByte a b).abortPending = s.abortPending := rfl
@[simp] theorem State.gotPayloadByte_snap (a : Nat) (b : Byte) : (s.gotPayloadByte a b).snap = s.snap := rfl
@[simp] theorem State.gotPayloadByte_progress (a : Nat) (b : Byte) :
    (s.gotPayloadByte a b).progress = { s.progress with doneBytes := s.progress.doneBytes + 1 } := rfl
@[simp] theorem State.gotPayloadByte_keyStore (a : Nat) (b : Byte) : (s.gotPayloadByte a b).keyStore = s.keyStore := rfl
@[simp] theorem State.gotPayloadByte_rst (a : Nat) (b : Byte) : (s.gotPayloadByte a b).rst = s.rst := rfl
@[simp] theorem State.gotPayloadByte_env (a : Nat) (b : Byte) : (s.gotPayloadByte a b).env = s.env := rfl
@[simp] theorem State.gotPayloadByte_host (a : Nat) (b : Byte) : (s.gotPayloadByte a b).host = s.host := rfl
@[simp] theorem State.gotPayloadByte_script (a : Nat) (b : Byte) : (s.gotPayloadByte a b).script = s.script := rfl

/-! ### State.sentByte -/

@[simp] theorem State.sentByte_cfg (framed : Bool) (b : Byte) (rest : List Byte) : (s.sentByte framed b rest).cfg = s.cfg := rfl
@[simp] theorem State.sentByte_irqEn (framed : Bool) (b : Byte) (rest : List Byte) :
    (s.sentByte framed b rest).irqEn = s.irqEn := rfl
@[simp] theorem State.sentByte_cmd (framed : Bool) (b : Byte) (rest : List Byte) : (s.sentByte framed b rest).cmd = s.cmd := rfl
@[simp] theorem State.sentByte_status (framed : Bool) (b : Byte) (rest : List Byte) :
    (s.sentByte framed b rest).status = s.status := rfl
@[simp] theorem State.sentByte_r (framed : Bool) (b : Byte) (rest : List Byte) : (s.sentByte framed b rest).r = s.r := rfl
@[simp] theorem State.sentByte_p (framed : Bool) (b : Byte) (rest : List Byte) : (s.sentByte framed b rest).p = s.p := rfl
@[simp] theorem State.sentByte_buf (framed : Bool) (b : Byte) (rest : List Byte) : (s.sentByte framed b rest).buf = s.buf := rfl
@[simp] theorem State.sentByte_phase (framed : Bool) (b : Byte) (rest : List Byte) :
    (s.sentByte framed b rest).phase = s.phase := rfl
@[simp] theorem State.sentByte_abortPending (framed : Bool) (b : Byte) (rest : List Byte) :
    (s.sentByte framed b rest).abortPending = s.abortPending := rfl
@[simp] theorem State.sentByte_snap (framed : Bool) (b : Byte) (rest : List Byte) :
    (s.sentByte framed b rest).snap = s.snap := rfl
@[simp] theorem State.sentByte_progress (framed : Bool) (b : Byte) (rest : List Byte) :
    (s.sentByte framed b rest).progress = if framed && decide (s.hdrGot < 4) then { s.progress with hdr := s.progress.hdr ++ [b], pending := rest } else { s.progress with doneBytes := s.progress.doneBytes + 1, pending := rest } := rfl
@[simp] theorem State.sentByte_keyStore (framed : Bool) (b : Byte) (rest : List Byte) :
    (s.sentByte framed b rest).keyStore = s.keyStore := rfl
@[simp] theorem State.sentByte_rst (framed : Bool) (b : Byte) (rest : List Byte) : (s.sentByte framed b rest).rst = s.rst := rfl
@[simp] theorem State.sentByte_env (framed : Bool) (b : Byte) (rest : List Byte) : (s.sentByte framed b rest).env = s.env := rfl
@[simp] theorem State.sentByte_host (framed : Bool) (b : Byte) (rest : List Byte) :
    (s.sentByte framed b rest).host = s.host := rfl
@[simp] theorem State.sentByte_script (framed : Bool) (b : Byte) (rest : List Byte) :
    (s.sentByte framed b rest).script = s.script := rfl

/-! ### State.rxCloses -/

@[simp] theorem State.rxCloses_cfg : s.rxCloses.cfg = s.cfg := rfl
@[simp] theorem State.rxCloses_irqEn : s.rxCloses.irqEn = s.irqEn := rfl
@[simp] theorem State.rxCloses_cmd : s.rxCloses.cmd = s.cmd := rfl
@[simp] theorem State.rxCloses_status : s.rxCloses.status = s.status := rfl
@[simp] theorem State.rxCloses_r : s.rxCloses.r = s.r := rfl
@[simp] theorem State.rxCloses_p : s.rxCloses.p = s.p := rfl
@[simp] theorem State.rxCloses_buf : s.rxCloses.buf = s.buf := rfl
@[simp] theorem State.rxCloses_phase : s.rxCloses.phase = s.phase := rfl
@[simp] theorem State.rxCloses_abortPending : s.rxCloses.abortPending = s.abortPending := rfl
@[simp] theorem State.rxCloses_snap : s.rxCloses.snap = s.snap := rfl
@[simp] theorem State.rxCloses_progress : s.rxCloses.progress = s.progress := rfl
@[simp] theorem State.rxCloses_keyStore : s.rxCloses.keyStore = s.keyStore := rfl
@[simp] theorem State.rxCloses_rst : s.rxCloses.rst = s.rst := rfl
@[simp] theorem State.rxCloses_env : s.rxCloses.env = { s.env with rxClosed := true } := rfl
@[simp] theorem State.rxCloses_host : s.rxCloses.host = s.host := rfl
@[simp] theorem State.rxCloses_script : s.rxCloses.script = s.script := rfl

/-! ### State.txReadyFor -/

@[simp] theorem State.txReadyFor_cfg (n : Nat) : (s.txReadyFor n).cfg = s.cfg := rfl
@[simp] theorem State.txReadyFor_irqEn (n : Nat) : (s.txReadyFor n).irqEn = s.irqEn := rfl
@[simp] theorem State.txReadyFor_cmd (n : Nat) : (s.txReadyFor n).cmd = s.cmd := rfl
@[simp] theorem State.txReadyFor_status (n : Nat) : (s.txReadyFor n).status = s.status := rfl
@[simp] theorem State.txReadyFor_r (n : Nat) : (s.txReadyFor n).r = s.r := rfl
@[simp] theorem State.txReadyFor_p (n : Nat) : (s.txReadyFor n).p = s.p := rfl
@[simp] theorem State.txReadyFor_buf (n : Nat) : (s.txReadyFor n).buf = s.buf := rfl
@[simp] theorem State.txReadyFor_phase (n : Nat) : (s.txReadyFor n).phase = s.phase := rfl
@[simp] theorem State.txReadyFor_abortPending (n : Nat) : (s.txReadyFor n).abortPending = s.abortPending := rfl
@[simp] theorem State.txReadyFor_snap (n : Nat) : (s.txReadyFor n).snap = s.snap := rfl
@[simp] theorem State.txReadyFor_progress (n : Nat) : (s.txReadyFor n).progress = s.progress := rfl
@[simp] theorem State.txReadyFor_keyStore (n : Nat) : (s.txReadyFor n).keyStore = s.keyStore := rfl
@[simp] theorem State.txReadyFor_rst (n : Nat) : (s.txReadyFor n).rst = s.rst := rfl
@[simp] theorem State.txReadyFor_env (n : Nat) : (s.txReadyFor n).env = { s.env with txCredit := s.env.txCredit + n } := rfl
@[simp] theorem State.txReadyFor_host (n : Nat) : (s.txReadyFor n).host = s.host := rfl
@[simp] theorem State.txReadyFor_script (n : Nat) : (s.txReadyFor n).script = s.script := rfl

/-! ### State.txCloses -/

@[simp] theorem State.txCloses_cfg : s.txCloses.cfg = s.cfg := rfl
@[simp] theorem State.txCloses_irqEn : s.txCloses.irqEn = s.irqEn := rfl
@[simp] theorem State.txCloses_cmd : s.txCloses.cmd = s.cmd := rfl
@[simp] theorem State.txCloses_status : s.txCloses.status = s.status := rfl
@[simp] theorem State.txCloses_r : s.txCloses.r = s.r := rfl
@[simp] theorem State.txCloses_p : s.txCloses.p = s.p := rfl
@[simp] theorem State.txCloses_buf : s.txCloses.buf = s.buf := rfl
@[simp] theorem State.txCloses_phase : s.txCloses.phase = s.phase := rfl
@[simp] theorem State.txCloses_abortPending : s.txCloses.abortPending = s.abortPending := rfl
@[simp] theorem State.txCloses_snap : s.txCloses.snap = s.snap := rfl
@[simp] theorem State.txCloses_progress : s.txCloses.progress = s.progress := rfl
@[simp] theorem State.txCloses_keyStore : s.txCloses.keyStore = s.keyStore := rfl
@[simp] theorem State.txCloses_rst : s.txCloses.rst = s.rst := rfl
@[simp] theorem State.txCloses_env : s.txCloses.env = { s.env with txClosed := true } := rfl
@[simp] theorem State.txCloses_host : s.txCloses.host = s.host := rfl
@[simp] theorem State.txCloses_script : s.txCloses.script = s.script := rfl

/-! ### State.entropyReady -/

@[simp] theorem State.entropyReady_cfg (a : EntropyAnswer) : (s.entropyReady a).cfg = s.cfg := rfl
@[simp] theorem State.entropyReady_irqEn (a : EntropyAnswer) : (s.entropyReady a).irqEn = s.irqEn := rfl
@[simp] theorem State.entropyReady_cmd (a : EntropyAnswer) : (s.entropyReady a).cmd = s.cmd := rfl
@[simp] theorem State.entropyReady_status (a : EntropyAnswer) : (s.entropyReady a).status = s.status := rfl
@[simp] theorem State.entropyReady_r (a : EntropyAnswer) : (s.entropyReady a).r = s.r := rfl
@[simp] theorem State.entropyReady_p (a : EntropyAnswer) : (s.entropyReady a).p = s.p := rfl
@[simp] theorem State.entropyReady_buf (a : EntropyAnswer) : (s.entropyReady a).buf = s.buf := rfl
@[simp] theorem State.entropyReady_phase (a : EntropyAnswer) : (s.entropyReady a).phase = s.phase := rfl
@[simp] theorem State.entropyReady_abortPending (a : EntropyAnswer) : (s.entropyReady a).abortPending = s.abortPending := rfl
@[simp] theorem State.entropyReady_snap (a : EntropyAnswer) : (s.entropyReady a).snap = s.snap := rfl
@[simp] theorem State.entropyReady_progress (a : EntropyAnswer) : (s.entropyReady a).progress = s.progress := rfl
@[simp] theorem State.entropyReady_keyStore (a : EntropyAnswer) : (s.entropyReady a).keyStore = s.keyStore := rfl
@[simp] theorem State.entropyReady_rst (a : EntropyAnswer) : (s.entropyReady a).rst = s.rst := rfl
@[simp] theorem State.entropyReady_env (a : EntropyAnswer) :
    (s.entropyReady a).env = { s.env with entropyQ := s.env.entropyQ ++ [a] } := rfl
@[simp] theorem State.entropyReady_host (a : EntropyAnswer) : (s.entropyReady a).host = s.host := rfl
@[simp] theorem State.entropyReady_script (a : EntropyAnswer) : (s.entropyReady a).script = s.script := rfl

/-! ### State.rstAsserted -/

@[simp] theorem State.rstAsserted_cfg : s.rstAsserted.cfg = s.cfg := rfl
@[simp] theorem State.rstAsserted_irqEn : s.rstAsserted.irqEn = s.irqEn := rfl
@[simp] theorem State.rstAsserted_cmd : s.rstAsserted.cmd = s.cmd := rfl
@[simp] theorem State.rstAsserted_status : s.rstAsserted.status = s.status := rfl
@[simp] theorem State.rstAsserted_r : s.rstAsserted.r = s.r := rfl
@[simp] theorem State.rstAsserted_p : s.rstAsserted.p = s.p := rfl
@[simp] theorem State.rstAsserted_buf : s.rstAsserted.buf = s.buf := rfl
@[simp] theorem State.rstAsserted_phase : s.rstAsserted.phase = s.phase := rfl
@[simp] theorem State.rstAsserted_abortPending : s.rstAsserted.abortPending = s.abortPending := rfl
@[simp] theorem State.rstAsserted_snap : s.rstAsserted.snap = s.snap := rfl
@[simp] theorem State.rstAsserted_progress : s.rstAsserted.progress = s.progress := rfl
@[simp] theorem State.rstAsserted_keyStore : s.rstAsserted.keyStore = s.keyStore := rfl
@[simp] theorem State.rstAsserted_rst : s.rstAsserted.rst = true := rfl
@[simp] theorem State.rstAsserted_env : s.rstAsserted.env = s.env := rfl
@[simp] theorem State.rstAsserted_host : s.rstAsserted.host = s.host := rfl
@[simp] theorem State.rstAsserted_script : s.rstAsserted.script = s.script := rfl

/-! ### State.hostGoto -/

@[simp] theorem State.hostGoto_cfg (n : Nat) : (s.hostGoto n).cfg = s.cfg := rfl
@[simp] theorem State.hostGoto_irqEn (n : Nat) : (s.hostGoto n).irqEn = s.irqEn := rfl
@[simp] theorem State.hostGoto_cmd (n : Nat) : (s.hostGoto n).cmd = s.cmd := rfl
@[simp] theorem State.hostGoto_status (n : Nat) : (s.hostGoto n).status = s.status := rfl
@[simp] theorem State.hostGoto_r (n : Nat) : (s.hostGoto n).r = s.r := rfl
@[simp] theorem State.hostGoto_p (n : Nat) : (s.hostGoto n).p = s.p := rfl
@[simp] theorem State.hostGoto_buf (n : Nat) : (s.hostGoto n).buf = s.buf := rfl
@[simp] theorem State.hostGoto_phase (n : Nat) : (s.hostGoto n).phase = s.phase := rfl
@[simp] theorem State.hostGoto_abortPending (n : Nat) : (s.hostGoto n).abortPending = s.abortPending := rfl
@[simp] theorem State.hostGoto_snap (n : Nat) : (s.hostGoto n).snap = s.snap := rfl
@[simp] theorem State.hostGoto_progress (n : Nat) : (s.hostGoto n).progress = s.progress := rfl
@[simp] theorem State.hostGoto_keyStore (n : Nat) : (s.hostGoto n).keyStore = s.keyStore := rfl
@[simp] theorem State.hostGoto_rst (n : Nat) : (s.hostGoto n).rst = s.rst := rfl
@[simp] theorem State.hostGoto_env (n : Nat) : (s.hostGoto n).env = s.env := rfl
@[simp] theorem State.hostGoto_host (n : Nat) : (s.hostGoto n).host = { s.host with line := n } := rfl
@[simp] theorem State.hostGoto_script (n : Nat) : (s.hostGoto n).script = s.script := rfl

/-! ### State.hostKeeps -/

@[simp] theorem State.hostKeeps_cfg (v : Word) : (s.hostKeeps v).cfg = s.cfg := rfl
@[simp] theorem State.hostKeeps_irqEn (v : Word) : (s.hostKeeps v).irqEn = s.irqEn := rfl
@[simp] theorem State.hostKeeps_cmd (v : Word) : (s.hostKeeps v).cmd = s.cmd := rfl
@[simp] theorem State.hostKeeps_status (v : Word) : (s.hostKeeps v).status = s.status := rfl
@[simp] theorem State.hostKeeps_r (v : Word) : (s.hostKeeps v).r = s.r := rfl
@[simp] theorem State.hostKeeps_p (v : Word) : (s.hostKeeps v).p = s.p := rfl
@[simp] theorem State.hostKeeps_buf (v : Word) : (s.hostKeeps v).buf = s.buf := rfl
@[simp] theorem State.hostKeeps_phase (v : Word) : (s.hostKeeps v).phase = s.phase := rfl
@[simp] theorem State.hostKeeps_abortPending (v : Word) : (s.hostKeeps v).abortPending = s.abortPending := rfl
@[simp] theorem State.hostKeeps_snap (v : Word) : (s.hostKeeps v).snap = s.snap := rfl
@[simp] theorem State.hostKeeps_progress (v : Word) : (s.hostKeeps v).progress = s.progress := rfl
@[simp] theorem State.hostKeeps_keyStore (v : Word) : (s.hostKeeps v).keyStore = s.keyStore := rfl
@[simp] theorem State.hostKeeps_rst (v : Word) : (s.hostKeeps v).rst = s.rst := rfl
@[simp] theorem State.hostKeeps_env (v : Word) : (s.hostKeeps v).env = s.env := rfl
@[simp] theorem State.hostKeeps_host (v : Word) : (s.hostKeeps v).host = { s.host with reads := s.host.reads ++ [v] } := rfl
@[simp] theorem State.hostKeeps_script (v : Word) : (s.hostKeeps v).script = s.script := rfl

end Sys2Proof.Machine
end

