-- ==== Sys2Proof/Laws/Ops.lean ====
section
/-! SUPPORT. For each shared operation of the meanings, everything it can do: how it goes on, and what it answers when it answers a
next state.  A proof about a command peels its operations apart with these and never unfolds one. -/

namespace Sys2Proof.Machine

variable {s t : State}

/-! ### Reading operands -/

theorem memRead_of_some {a n : Nat} {k : List Byte → Result} {bs : List Byte} (h : s.buf.readBytes a n = some bs) :
    memRead s a n k = k bs := by
  rw [memRead, h]

theorem memRead_of_none {a n : Nat} {k : List Byte → Result} (h : s.buf.readBytes a n = none) :
    memRead s a n k = .fault .unwrittenByte := by
  rw [memRead, h]

theorem memRead_next_iff {a n : Nat} {k : List Byte → Result} :
    memRead s a n k = .next t ↔ ∃ bs, s.buf.readBytes a n = some bs ∧ k bs = .next t := by
  rw [memRead]
  split <;> simp_all

@[simp] theorem memReadIf_true {a n : Nat} {k : List Byte → Result} : memReadIf true s a n k = memRead s a n k := rfl

@[simp] theorem memReadIf_false {a n : Nat} {k : List Byte → Result} : memReadIf false s a n k = k [] := rfl

theorem memReadIf_of {c : Bool} {a n : Nat} {k : List Byte → Result} {v : List Byte}
    (h : c = true → s.buf.readBytes a n = some v) : ∃ bs, (c = true → bs = v) ∧ memReadIf c s a n k = k bs := by
  cases c with
  | true => exact ⟨v, fun _ => rfl, memRead_of_some (h rfl)⟩
  | false => exact ⟨[], by simp, rfl⟩

/-- A command stops at a read exactly when the bytes lack a value, or at whatever follows, where that does not depend on them. -/
theorem memRead_fault_iff {a n : Nat} {k : List Byte → Result} {P : Prop} (h : ∀ bs, k bs = .fault .unwrittenByte ↔ P) :
    memRead s a n k = .fault .unwrittenByte ↔ s.buf.readBytes a n = none ∨ P := by
  rw [memRead]
  split <;> simp_all

theorem memReadIf_fault_iff {c : Bool} {a n : Nat} {k : List Byte → Result} {P : Prop}
    (h : ∀ bs, k bs = .fault .unwrittenByte ↔ P) :
    memReadIf c s a n k = .fault .unwrittenByte ↔ (c = true ∧ s.buf.readBytes a n = none) ∨ P := by
  cases c with
  | true => simpa using memRead_fault_iff h
  | false => simpa using h []

/-! ### Checks -/

/-- Every region of a list lies in the buffer (R90). -/
def RegionsIn (s : State) (rs : List (Nat × Nat)) : Prop := ∀ g ∈ rs, g.1 + g.2 ≤ s.cfg.bufBytes

@[simp] theorem regionsIn_nil : RegionsIn s [] := by simp [RegionsIn]

@[simp] theorem regionsIn_cons {a n : Nat} {rs : List (Nat × Nat)} :
    RegionsIn s ((a, n) :: rs) ↔ a + n ≤ s.cfg.bufBytes ∧ RegionsIn s rs := by
  simp [RegionsIn]

theorem checkRegions_of_in {rs : List (Nat × Nat)} {k : Result} (h : RegionsIn s rs) : checkRegions s rs k = k := by
  induction rs with
  | nil => rfl
  | cons g rs ih =>
    obtain ⟨a, n⟩ := g
    obtain ⟨h1, h2⟩ := regionsIn_cons.mp h
    simp [checkRegions, State.inBuf, h1, ih h2]

theorem checkRegions_of_not_in {rs : List (Nat × Nat)} {k : Result} (h : ¬ RegionsIn s rs) :
    checkRegions s rs k = .next (s.raise .ebounds) := by
  induction rs with
  | nil => exact absurd regionsIn_nil h
  | cons g rs ih =>
    obtain ⟨a, n⟩ := g
    by_cases h1 : a + n ≤ s.cfg.bufBytes
    · have h2 : ¬ RegionsIn s rs := fun h2 => h (regionsIn_cons.mpr ⟨h1, h2⟩)
      simp [checkRegions, State.inBuf, h1, ih h2]
    · simp [checkRegions, State.inBuf, h1]

theorem checkRegions_fault_iff {rs : List (Nat × Nat)} {k : Result} {f : Fault} :
    checkRegions s rs k = .fault f ↔ RegionsIn s rs ∧ k = .fault f := by
  by_cases h : RegionsIn s rs
  · simp [checkRegions_of_in h, h]
  · simp [checkRegions_of_not_in h, h]

theorem checkRegions_next_iff {rs : List (Nat × Nat)} {k : Result} :
    checkRegions s rs k = .next t ↔
      (RegionsIn s rs ∧ k = .next t) ∨ (¬ RegionsIn s rs ∧ t = s.raise .ebounds) := by
  by_cases h : RegionsIn s rs
  · simp [checkRegions_of_in h, h]
  · simp [checkRegions_of_not_in h, h, eq_comm]

/-- Every operand length of a list is within `NMAX_BYTES` (R251). -/
def LensIn (s : State) (ls : List Nat) : Prop := ∀ n ∈ ls, n ≤ s.cfg.nmaxBytes

theorem checkLens_of_in {ls : List Nat} {k : Result} (h : LensIn s ls) : checkLens s ls k = k := by
  have : (ls.any fun n => decide (s.cfg.nmaxBytes < n)) = false := by
    simpa [LensIn] using h
  simp [checkLens, this]

theorem checkLens_of_not_in {ls : List Nat} {k : Result} (h : ¬ LensIn s ls) :
    checkLens s ls k = .next (s.raise .elen) := by
  have : (ls.any fun n => decide (s.cfg.nmaxBytes < n)) = true := by
    simpa [LensIn] using h
  simp [checkLens, this]

theorem checkLens_fault_iff {ls : List Nat} {k : Result} {f : Fault} :
    checkLens s ls k = .fault f ↔ LensIn s ls ∧ k = .fault f := by
  by_cases h : LensIn s ls
  · simp [checkLens_of_in h, h]
  · simp [checkLens_of_not_in h, h]

theorem checkLens_next_iff {ls : List Nat} {k : Result} :
    checkLens s ls k = .next t ↔ (LensIn s ls ∧ k = .next t) ∨ (¬ LensIn s ls ∧ t = s.raise .elen) := by
  by_cases h : LensIn s ls
  · simp [checkLens_of_in h, h]
  · simp [checkLens_of_not_in h, h, eq_comm]

theorem checkCtLen_of_ok {n : Nat} {k : Result} (h0 : n ≠ 0) (h : n % 16 = 0) : checkCtLen s n k = k := by
  simp [checkCtLen, h0, h]

theorem checkCtLen_of_bad {n : Nat} {k : Result} (h : n = 0 ∨ n % 16 ≠ 0) :
    checkCtLen s n k = .next (s.raise .ectlen) := by
  rw [checkCtLen, if_pos h]

theorem checkCtLen_fault_iff {n : Nat} {k : Result} {f : Fault} :
    checkCtLen s n k = .fault f ↔ (n ≠ 0 ∧ n % 16 = 0) ∧ k = .fault f := by
  by_cases h : n ≠ 0 ∧ n % 16 = 0
  · simp [checkCtLen_of_ok h.1 h.2, h]
  · have h' : n = 0 ∨ n % 16 ≠ 0 := by omega
    simp [checkCtLen_of_bad h', h]

theorem checkCtLen_next_iff {n : Nat} {k : Result} :
    checkCtLen s n k = .next t ↔
      (n ≠ 0 ∧ n % 16 = 0 ∧ k = .next t) ∨ ((n = 0 ∨ n % 16 ≠ 0) ∧ t = s.raise .ectlen) := by
  by_cases h : n = 0 ∨ n % 16 ≠ 0
  · rw [checkCtLen_of_bad h]
    constructor
    · intro ht; exact .inr ⟨h, (Host.Outcome.next.inj ht).symm⟩
    · rintro (⟨h0, h1, -⟩ | ⟨-, rfl⟩)
      · omega
      · rfl
  · obtain ⟨h0, h1⟩ := not_or.mp h
    rw [checkCtLen_of_ok h0 (by omega)]
    constructor
    · intro ht; exact .inl ⟨h0, by omega, ht⟩
    · rintro (⟨-, -, ht⟩ | ⟨h', -⟩)
      · exact ht
      · exact absurd h' h

/-! ### Entropy -/

/-- `e'` is `e` after some draws: the streams are as before, and answers the source had ready may have been taken (R335). -/
def Env.OnlyDrew (e e' : Env) : Prop :=
  e'.rxQ = e.rxQ ∧ e'.rxClosed = e.rxClosed ∧ e'.txLog = e.txLog ∧ e'.txClosed = e.txClosed ∧ e'.txCredit = e.txCredit ∧
  e'.entropyQ <:+ e.entropyQ

theorem Env.OnlyDrew.refl (e : Env) : e.OnlyDrew e := ⟨rfl, rfl, rfl, rfl, rfl, List.suffix_refl _⟩

theorem Env.OnlyDrew.trans {e e' e'' : Env} (h : e.OnlyDrew e') (h' : e'.OnlyDrew e'') : e.OnlyDrew e'' := by
  obtain ⟨a, b, c, d, f, g⟩ := h
  obtain ⟨a', b', c', d', f', g'⟩ := h'
  exact ⟨a'.trans a, b'.trans b, c'.trans c, d'.trans d, f'.trans f, g'.trans g⟩

@[simp] theorem drawnBytes_length (k n : Nat) (bs : List Byte) : (drawnBytes k n bs).length = n := by
  simp [drawnBytes]

@[simp] theorem Env.draw_zero (e : Env) : e.draw 0 = (some [], e) := rfl

/-- A draw leaves the streams alone. -/
theorem Env.draw_onlyDrew (e : Env) (n : Nat) : e.OnlyDrew (e.draw n).2 := by
  unfold Env.draw
  split
  · exact .refl e
  · split
    · next h => exact ⟨rfl, rfl, rfl, rfl, rfl, h ▸ List.suffix_cons _ _⟩
    · next h => exact ⟨rfl, rfl, rfl, rfl, rfl, h ▸ List.suffix_cons _ _⟩
    · exact ⟨rfl, rfl, rfl, rfl, rfl, List.suffix_refl _⟩

/-- A draw that succeeds gives exactly the bytes asked for (R55). -/
theorem Env.draw_length {e : Env} {n : Nat} {bs : List Byte} (h : (e.draw n).1 = some bs) : bs.length = n := by
  unfold Env.draw at h
  split at h
  · simp_all
  · split at h
    · simp only [Option.some.injEq] at h
      simp [← h]
    · simp at h
    · simp only at h
      split at h
      · simp at h
      · simp only [Option.some.injEq] at h
        simp [← h]

theorem drawEntropy_of_some {n : Nat} {k : List Byte → State → Result} {bs : List Byte}
    (h : (s.env.draw n).1 = some bs) : drawEntropy s n k = k bs (s.withEnv (s.env.draw n).2) := by
  unfold drawEntropy
  split <;> simp_all

theorem drawEntropy_of_none {n : Nat} {k : List Byte → State → Result} (h : (s.env.draw n).1 = none) :
    drawEntropy s n k = .next ((s.withEnv (s.env.draw n).2).raise .erng) := by
  unfold drawEntropy
  split <;> simp_all

theorem drawEntropy_of_eq_some {n : Nat} {k : List Byte → State → Result} {bs : List Byte} {e : Env}
    (h : s.env.draw n = (some bs, e)) : drawEntropy s n k = k bs (s.withEnv e) := by
  rw [drawEntropy, h]

theorem drawEntropy_of_eq_none {n : Nat} {k : List Byte → State → Result} {e : Env} (h : s.env.draw n = (none, e)) :
    drawEntropy s n k = .next ((s.withEnv e).raise .erng) := by
  rw [drawEntropy, h]

/-- A draw ends in the command going on with `n` bytes, or in `ERNG`; both with the environment after the draw. -/
theorem drawEntropy_next {n : Nat} {k : List Byte → State → Result} (h : drawEntropy s n k = .next t) :
    (∃ bs, bs.length = n ∧ (s.env.draw n).1 = some bs ∧ k bs (s.withEnv (s.env.draw n).2) = .next t) ∨
      ((s.env.draw n).1 = none ∧ t = (s.withEnv (s.env.draw n).2).raise .erng) := by
  cases hd : (s.env.draw n).1 with
  | some bs =>
    rw [drawEntropy_of_some hd] at h
    exact .inl ⟨bs, Env.draw_length hd, rfl, h⟩
  | none =>
    rw [drawEntropy_of_none hd] at h
    exact .inr ⟨rfl, (Host.Outcome.next.inj h).symm⟩

/-- A draw never stops a command with a fault. -/
theorem drawEntropy_ne_fault {n : Nat} {k : List Byte → State → Result} {f : Fault} (h : ∀ bs u, k bs u ≠ .fault f) :
    drawEntropy s n k ≠ .fault f := by
  rw [drawEntropy]
  split
  · exact h _ _
  · simp

@[simp] theorem givenOrDrawn_true {bs : List Byte} {n : Nat} {k : List Byte → State → Result} :
    givenOrDrawn true bs n s k = k bs s := rfl

@[simp] theorem givenOrDrawn_false {bs : List Byte} {n : Nat} {k : List Byte → State → Result} :
    givenOrDrawn false bs n s k = drawEntropy s n k := rfl

theorem givenOrDrawn_ne_fault {given : Bool} {bs : List Byte} {n : Nat} {k : List Byte → State → Result} {f : Fault}
    (h : ∀ v u, k v u ≠ .fault f) : givenOrDrawn given bs n s k ≠ .fault f := by
  cases given with
  | true => exact h bs s
  | false => exact drawEntropy_ne_fault h

theorem givenOrDrawn_of {given : Bool} {bs v : List Byte} {n : Nat} {e : Env} {k : List Byte → State → Result}
    (h : if given then bs = v ∧ e = s.env else s.env.draw n = (some v, e)) :
    givenOrDrawn given bs n s k = k v (s.withEnv e) := by
  cases given with
  | true =>
    obtain ⟨rfl, rfl⟩ := h
    rfl
  | false => exact drawEntropy_of_eq_some h

/-- A value given or drawn: the command goes on, with streams as before, or ends with `ERNG`. -/
theorem givenOrDrawn_next {given : Bool} {bs : List Byte} {n : Nat} {k : List Byte → State → Result}
    (h : givenOrDrawn given bs n s k = .next t) :
    ∃ e, s.env.OnlyDrew e ∧
      ((∃ v, (given = true → v = bs) ∧ (given = false → v.length = n) ∧ k v (s.withEnv e) = .next t) ∨
        (given = false ∧ t = (s.withEnv e).raise .erng)) := by
  cases given with
  | true => exact ⟨s.env, .refl _, .inl ⟨bs, by simp, by simp, h⟩⟩
  | false =>
    refine ⟨(s.env.draw n).2, s.env.draw_onlyDrew n, ?_⟩
    rcases drawEntropy_next h with ⟨v, hv, -, hk⟩ | ⟨-, rfl⟩
    · exact .inl ⟨v, by simp, fun _ => hv, hk⟩
    · exact .inr ⟨rfl, rfl⟩

/-! ### Streams -/

/-- `rx_take` ends in one of its four ways (R290). -/
theorem rxTake_next {aborted closed : State → State} {k : Byte → State → Result}
    (h : rxTake s aborted closed k = .next t) :
    (s.abortPending = true ∧ t = aborted s.unheld) ∨
    (s.abortPending = false ∧ ∃ b q, s.env.rxQ = b :: q ∧
      k b (s.unheld.withEnv { s.env with rxQ := q }) = .next t) ∨
    (s.abortPending = false ∧ s.env.rxQ = [] ∧ s.env.rxClosed = true ∧ t = closed s.unheld) ∨
    (s.abortPending = false ∧ s.env.rxQ = [] ∧ s.env.rxClosed = false ∧ t = s.held) := by
  unfold rxTake at h
  split at h
  · exact .inl ⟨‹_›, (Host.Outcome.next.inj h).symm⟩
  · have ha : s.abortPending = false := by simpa using ‹¬ s.abortPending = true›
    split at h
    · exact .inr (.inl ⟨ha, _, _, ‹_›, h⟩)
    · split at h
      · exact .inr (.inr (.inl ⟨ha, ‹_›, ‹_›, (Host.Outcome.next.inj h).symm⟩))
      · exact .inr (.inr (.inr ⟨ha, ‹_›, by simpa using ‹¬ s.env.rxClosed = true›, (Host.Outcome.next.inj h).symm⟩))

theorem rxTake_ne_fault {aborted closed : State → State} {k : Byte → State → Result} {f : Fault}
    (h : ∀ b u, k b u ≠ .fault f) : rxTake s aborted closed k ≠ .fault f := by
  rw [rxTake]
  split
  · simp
  · split
    · exact h _ _
    · split <;> simp

theorem rxTake_of_abort {aborted closed : State → State} {k : Byte → State → Result} (h : s.abortPending = true) :
    rxTake s aborted closed k = .next (aborted s.unheld) := by
  simp [rxTake, h]

theorem rxTake_of_byte {aborted closed : State → State} {k : Byte → State → Result} {b : Byte} {q : List Byte}
    (h : s.abortPending = false) (hq : s.env.rxQ = b :: q) :
    rxTake s aborted closed k = k b (s.unheld.withEnv { s.env with rxQ := q }) := by
  simp [rxTake, h, hq]

theorem rxTake_of_closed {aborted closed : State → State} {k : Byte → State → Result} (h : s.abortPending = false)
    (hq : s.env.rxQ = []) (hc : s.env.rxClosed = true) : rxTake s aborted closed k = .next (closed s.unheld) := by
  simp [rxTake, h, hq, hc]

theorem rxTake_of_empty {aborted closed : State → State} {k : Byte → State → Result} (h : s.abortPending = false)
    (hq : s.env.rxQ = []) (hc : s.env.rxClosed = false) : rxTake s aborted closed k = .next s.held := by
  simp [rxTake, h, hq, hc]

/-- `tx_put` ends in one of its four ways (R291). -/
theorem txPut_next {b : Byte} {aborted closed : State → State} {k : State → Result}
    (h : txPut s b aborted closed k = .next t) :
    (s.abortPending = true ∧ t = aborted s.unheld) ∨
    (s.abortPending = false ∧ s.env.txClosed = true ∧ t = closed s.unheld) ∨
    (s.abortPending = false ∧ s.env.txClosed = false ∧ ∃ c, s.env.txCredit = c + 1 ∧
      k (s.unheld.withEnv { s.env with txLog := s.env.txLog ++ [b], txCredit := c }) = .next t) ∨
    (s.abortPending = false ∧ s.env.txClosed = false ∧ s.env.txCredit = 0 ∧ t = s.held) := by
  unfold txPut at h
  split at h
  · exact .inl ⟨‹_›, (Host.Outcome.next.inj h).symm⟩
  · have ha : s.abortPending = false := by simpa using ‹¬ s.abortPending = true›
    split at h
    · exact .inr (.inl ⟨ha, ‹_›, (Host.Outcome.next.inj h).symm⟩)
    · have hc : s.env.txClosed = false := by simpa using ‹¬ s.env.txClosed = true›
      split at h
      · exact .inr (.inr (.inl ⟨ha, hc, _, ‹_›, h⟩))
      · exact .inr (.inr (.inr ⟨ha, hc, ‹_›, (Host.Outcome.next.inj h).symm⟩))

theorem txPut_ne_fault {b : Byte} {aborted closed : State → State} {k : State → Result} {f : Fault}
    (h : ∀ u, k u ≠ .fault f) : txPut s b aborted closed k ≠ .fault f := by
  rw [txPut]
  split
  · simp
  · split
    · simp
    · split
      · exact h _
      · simp

theorem txPut_of_abort {b : Byte} {aborted closed : State → State} {k : State → Result} (h : s.abortPending = true) :
    txPut s b aborted closed k = .next (aborted s.unheld) := by
  simp [txPut, h]

theorem txPut_of_closed {b : Byte} {aborted closed : State → State} {k : State → Result} (h : s.abortPending = false)
    (hc : s.env.txClosed = true) : txPut s b aborted closed k = .next (closed s.unheld) := by
  simp [txPut, h, hc]

theorem txPut_of_credit {b : Byte} {aborted closed : State → State} {k : State → Result} {c : Nat}
    (h : s.abortPending = false) (hc : s.env.txClosed = false) (hn : s.env.txCredit = c + 1) :
    txPut s b aborted closed k =
      k (s.unheld.withEnv { s.env with txLog := s.env.txLog ++ [b], txCredit := c }) := by
  simp [txPut, h, hc, hn]

theorem txPut_of_no_credit {b : Byte} {aborted closed : State → State} {k : State → Result} (h : s.abortPending = false)
    (hc : s.env.txClosed = false) (hn : s.env.txCredit = 0) : txPut s b aborted closed k = .next s.held := by
  simp [txPut, h, hc, hn]

/-! ### A step of the machine -/

theorem step_of_no_script (h : s.script = []) : step s = engineStep s := by
  simp [step, stepOnce, h]

theorem step_of_script {e : Event} {rest : List Event} (h : s.script = e :: rest) :
    step s = eventStep e { s with script := rest } := by
  simp [step, stepOnce, h]

theorem engineStep_idle (hr : s.rst = false) (h : s.phase = .idle) : engineStep s = .next s := by
  simp [engineStep, hr, h]

theorem engineStep_rst (hr : s.rst = true) : engineStep s = .next s := by
  simp [engineStep, hr]

theorem engineStep_illegal {why : Illegal} (hr : s.rst = false) (h : s.phase = .run (.illegal why)) :
    engineStep s = .next (s.raise .eillegal) := by
  simp [engineStep, hr, h]

theorem engineStep_command {i : Instr} (hr : s.rst = false) (h : s.phase = .run (.command i)) :
    engineStep s = exec i s := by
  simp [engineStep, hr, h]

/-- Everything an engine step can do. -/
theorem engineStep_next (h : engineStep s = .next t) :
    t = s ∨ (∃ why, s.phase = .run (.illegal why) ∧ t = s.raise .eillegal) ∨
      ∃ i, s.phase = .run (.command i) ∧ s.rst = false ∧ exec i s = .next t := by
  unfold engineStep at h
  split at h
  · exact .inl (Host.Outcome.next.inj h).symm
  · next hr =>
    split at h
    · exact .inl (Host.Outcome.next.inj h).symm
    · next why hp => exact .inr (.inl ⟨why, hp, (Host.Outcome.next.inj h).symm⟩)
    · next i hp => exact .inr (.inr ⟨i, hp, by simpa using hr, h⟩)

/-- A step is an engine step, or the next move of the script. -/
theorem step_next (h : step s = .next t) :
    (s.script = [] ∧ engineStep s = .next t) ∨
      ∃ e rest, s.script = e :: rest ∧ eventStep e { s with script := rest } = .next t := by
  cases hs : s.script with
  | nil => exact .inl ⟨rfl, by rwa [step_of_no_script hs] at h⟩
  | cons e rest => exact .inr ⟨e, rest, rfl, by rwa [step_of_script hs] at h⟩

/-! ### How a command ends, and runs of steps -/

theorem endedDone_finish {u : State} (h : u.status = s.status ∨ u.status = { s.status with wait := false }) :
    s.EndedDone u.finish := by
  refine ⟨⟨rfl, rfl, rfl, rfl⟩, ?_⟩
  rcases h with h | h <;> simp [Status.atDone, h]

theorem endedErr_raise {u : State} {c : ErrCode} (h : u.status = s.status ∨ u.status = { s.status with wait := false }) :
    s.EndedErr (u.raise c) c.code := by
  refine ⟨⟨rfl, rfl, rfl, rfl⟩, ?_⟩
  rcases h with h | h <;> simp [Status.atErr, h]

theorem endedCancelled_cancel {u : State}
    (h : u.status = s.status ∨ u.status = { s.status with wait := false }) : s.EndedCancelled u.cancel := by
  refine ⟨⟨rfl, rfl, rfl, rfl⟩, ?_⟩
  rcases h with h | h <;> simp [Status.atCancel, h]

/-- The counts a stream command sets stand after its end. -/
theorem countsAre_setCounts {u : State} {a b c : Nat} {st : Status} (h : u.r = s.r) :
    s.CountsAre ((u.setCounts a b c).complete st) a b c := by
  simp [State.CountsAre, State.setCounts, State.setR, State.complete, h]

theorem State.SameHostSide.trans {u : State} (h : s.SameHostSide u) (h' : u.SameHostSide t) : s.SameHostSide t := by
  obtain ⟨a, b, c, d, e, f, g, i⟩ := h
  obtain ⟨a', b', c', d', e', f', g', i'⟩ := h'
  exact ⟨a'.trans a, b'.trans b, c'.trans c, d'.trans d, e'.trans e, f'.trans f, g'.trans g, i'.trans i⟩

@[simp] theorem runFor_zero (s : State) : runFor 0 s = .next s := rfl

theorem runFor_succ {n : Nat} {u : State} (h : step s = .next u) : runFor (n + 1) s = runFor n u := by
  simp only [runFor, h]

end Sys2Proof.Machine
end

