-- ==== Sys2Proof/Laws/Lengths.lean ====
section
/-! SUPPORT. How long each byte string is that a command stores, and how large each number is: a command that checked its output
regions writes nothing outside them (R90). -/

namespace Sys2Proof.Machine

/-! ### Integers and bytes -/

@[simp] theorem beBytes_length (x n : Nat) : (beBytes x n).length = n := by
  induction n generalizing x with
  | zero => rfl
  | succ n ih => simp [beBytes, ih]

theorem foldl_beInt (acc : Nat) (s : List Byte) :
    s.foldl (fun acc b => acc * 256 + b.toNat) acc = acc * 256 ^ s.length + beInt s := by
  induction s generalizing acc with
  | nil => simp [beInt]
  | cons b s ih =>
    simp only [List.foldl_cons, List.length_cons, beInt, Nat.zero_mul, Nat.zero_add]
    rw [ih, ih b.toNat]
    ring

@[simp] theorem beInt_nil : beInt [] = 0 := rfl

theorem beInt_cons (b : Byte) (s : List Byte) : beInt (b :: s) = b.toNat * 256 ^ s.length + beInt s := by
  rw [beInt, List.foldl_cons, Nat.zero_mul, Nat.zero_add, foldl_beInt]

theorem beInt_append (s u : List Byte) : beInt (s ++ u) = beInt s * 256 ^ u.length + beInt u := by
  rw [beInt, List.foldl_append, ← beInt, foldl_beInt]

theorem beInt_lt (s : List Byte) : beInt s < 256 ^ s.length := by
  induction s with
  | nil => simp
  | cons b s ih =>
    rw [beInt_cons, List.length_cons, Nat.pow_succ]
    have hb : b.toNat < 256 := b.isLt
    have : b.toNat * 256 ^ s.length ≤ 255 * 256 ^ s.length := Nat.mul_le_mul_right _ (by omega)
    omega

theorem bitLen_le_of_lt {x k : Nat} (h : x < 2 ^ k) : bitLen x ≤ k := by
  unfold bitLen
  split
  · omega
  · next hx =>
    have := (Nat.log2_lt hx).mpr h
    omega

theorem lt_two_pow_bitLen (x : Nat) : x < 2 ^ bitLen x := by
  unfold bitLen
  split
  · next hx => simp [hx]
  · exact Nat.lt_log2_self

@[simp] theorem beMin_length (x : Nat) : (beMin x).length = max 1 ((bitLen x + 7) / 8) := by
  simp [beMin]

/-- The shortest form of a residue is no longer than the modulus it was reduced by (R251). -/
theorem beMin_length_le {x : Nat} {n : List Byte} (h : x < beInt n) : (beMin x).length ≤ n.length := by
  rw [beMin_length]
  have hlt : x < 2 ^ (8 * n.length) := by
    have := beInt_lt n
    rw [Nat.pow_mul]
    exact h.trans this
  have hb := bitLen_le_of_lt hlt
  have hn : n.length ≠ 0 := by
    intro h0
    rw [List.eq_nil_of_length_eq_zero h0] at h
    simp at h
  omega

theorem powModBits_lt {n : Nat} (h : n ≠ 0) (k b x : Nat) : powModBits n k b x < n := by
  induction k generalizing b x with
  | zero => exact Nat.mod_lt _ (by omega)
  | succ k ih =>
    rw [powModBits]
    split
    · exact Nat.mod_lt _ (by omega)
    · exact ih _ _

theorem modexp_lt {b x n : Nat} (h : n ≠ 0) : modexp b x n < n := powModBits_lt h _ _ _

theorem modexp_bytes_length_le {b x : Nat} {n : List Byte} (h : beInt n ≠ 0) :
    (beMin (modexp b x (beInt n))).length ≤ n.length := beMin_length_le (modexp_lt h)

/-! ### Groups -/

@[simp] theorem groups_length (w n : Nat) (s : List Byte) : (groups w n s).length = n := by
  induction n generalizing s with
  | zero => rfl
  | succ n ih => simp [groups, ih]

theorem groups_each_length {w n : Nat} {s : List Byte} (h : w * n ≤ s.length) : ∀ g ∈ groups w n s, g.length = w := by
  induction n generalizing s with
  | zero => simp [groups]
  | succ n ih =>
    intro g hg
    rw [Nat.mul_succ] at h
    rcases List.mem_cons.mp hg with rfl | hg
    · simp
      omega
    · exact ih (by simp; omega) g hg

/-- The groups of a byte string are its bytes, in order. -/
theorem groups_flatten {w n : Nat} {s : List Byte} (h : s.length = w * n) : (groups w n s).flatten = s := by
  induction n generalizing s with
  | zero => simp_all [groups]
  | succ n ih =>
    rw [Nat.mul_succ] at h
    rw [groups, List.flatten_cons, ih (by simp; omega), List.take_append_drop]

/-! ### Hash and cipher -/

@[simp] theorem sha256_length (m : List Byte) : (sha256 m).length = 32 := by
  simp [sha256, HashVars.bytes]

@[simp] theorem Quad.bytes_length (x : Quad) : x.bytes.length = 4 := rfl

@[simp] theorem aesStore_length (s : AesState) : (aesStore s).length = 16 := rfl

@[simp] theorem encryptBlock_length (w : List Quad) (x : List Byte) : (encryptBlock w x).length = 16 := rfl

@[simp] theorem decryptBlock_length (w : List Quad) (x : List Byte) : (decryptBlock w x).length = 16 := rfl

theorem keyWordsGrow_length (n i : Nat) (newest : List Quad) :
    (keyWordsGrow n i newest).length = newest.length + n := by
  induction n generalizing i newest with
  | zero => rfl
  | succ n ih =>
    rw [keyWordsGrow, ih, List.length_cons]
    omega

@[simp] theorem keyExpansion_length (key : List Byte) : (keyExpansion key).length = 60 := by
  simp [keyExpansion, keyWordsGrow_length]

@[simp] theorem scheduleBytes_length (w : List Quad) : (scheduleBytes w).length = 4 * w.length := by
  induction w with
  | nil => rfl
  | cons x w ih =>
    rw [scheduleBytes, List.flatMap_cons, List.length_append, ← scheduleBytes, ih, Quad.bytes_length, List.length_cons]
    omega

@[simp] theorem xorBytes_length (s u : List Byte) : (xorBytes s u).length = min s.length u.length := by
  simp [xorBytes]

/-! ### Chained mode -/

@[simp] theorem cbcPad_length (x : List Byte) : (cbcPad x).length = paddedLen x.length := by
  simp only [cbcPad, paddedLen, List.length_append, List.length_replicate]
  omega

theorem paddedLen_eq (n : Nat) : paddedLen n = 16 * (n / 16 + 1) := by
  unfold paddedLen
  omega

theorem cbcEncBlocks_length (w : List Quad) (prev : List Byte) (qs : List (List Byte)) :
    (cbcEncBlocks w prev qs).length = 16 * qs.length := by
  induction qs generalizing prev with
  | nil => rfl
  | cons q qs ih =>
    simp only [cbcEncBlocks, List.length_append, encryptBlock_length, ih, List.length_cons]
    omega

@[simp] theorem cbcEnc_length (w : List Quad) (iv x : List Byte) : (cbcEnc w iv x).length = paddedLen x.length := by
  simp only [cbcEnc, cbcEncBlocks_length, groups_length, cbcPad_length, paddedLen_eq]
  omega

theorem cbcDecBlocks_length_le (w : List Quad) (prev : List Byte) (ys : List (List Byte)) :
    (cbcDecBlocks w prev ys).length ≤ 16 * ys.length := by
  induction ys generalizing prev with
  | nil => simp [cbcDecBlocks]
  | cons y ys ih =>
    have := ih y
    simp only [cbcDecBlocks, List.length_append, xorBytes_length, decryptBlock_length, List.length_cons]
    omega

theorem cbcDecBlocks_length {w : List Quad} {prev : List Byte} {ys : List (List Byte)} (hp : prev.length = 16)
    (hy : ∀ y ∈ ys, y.length = 16) : (cbcDecBlocks w prev ys).length = 16 * ys.length := by
  induction ys generalizing prev with
  | nil => rfl
  | cons y ys ih =>
    have hy0 : y.length = 16 := hy y (by simp)
    have := ih hy0 (fun z hz => hy z (by simp [hz]))
    simp only [cbcDecBlocks, List.length_append, xorBytes_length, decryptBlock_length, List.length_cons, hp, this]
    omega

/-- A decryption is as long as its ciphertext (R222). -/
theorem cbcDecRaw_length {w : List Quad} {iv y : List Byte} (hiv : iv.length = 16) (hy : y.length % 16 = 0) :
    (cbcDecRaw w iv y).length = y.length := by
  rw [cbcDecRaw, cbcDecBlocks_length hiv (groups_each_length (by omega)), groups_length]
  omega

/-- What unpadding leaves is no longer than what it was given (R223). -/
theorem unpad_length_le (z : List Byte) : (unpad z).1.length ≤ z.length := by
  simp [unpad]

theorem cbcPlain_length_le (w : List Quad) (iv y : List Byte) : (unpad (cbcDecRaw w iv y)).1.length ≤ y.length := by
  refine (unpad_length_le _).trans ?_
  have := cbcDecBlocks_length_le w iv (groups 16 (y.length / 16) y)
  rw [groups_length] at this
  unfold cbcDecRaw
  omega

theorem wrapKey_length_le {key : List Byte} {e : Nat} {n : List Byte} (h : beInt n ≠ 0) :
    (wrapKey key e (beInt n)).length ≤ n.length := modexp_bytes_length_le h

@[simp] theorem frameHeader_length (n : Nat) : (frameHeader n).length = 4 := beBytes_length n 4

end Sys2Proof.Machine
end

