-- ==== Sys2Proof/Laws/Commands.lean ====
section
/-! SUPPORT. Everything a compute command can do when it answers a next state, said once for all of them (R339 to R341): it ends, in an
error that changes nothing but the environment's draws, or in success with writes inside the buffer and to the result
registers.  And everything one step of a stream command can do (R290 to R292). -/

namespace Sys2Proof.Machine

variable {s t : State}

/-- A buffer reached from `s`'s by writes inside it. -/
def BufFrom (s : State) (buf : Memory) : Prop :=
  (s.buf.wf → buf.wf) ∧ (s.buf.within s.cfg.bufBytes → buf.within s.cfg.bufBytes)

theorem BufFrom.refl (s : State) : BufFrom s s.buf := ⟨id, id⟩

theorem BufFrom.write {buf : Memory} (h : BufFrom s buf) {a : Nat} {bs : List Byte}
    (hb : a + bs.length ≤ s.cfg.bufBytes) : BufFrom s (buf.writeBytes a bs) :=
  ⟨fun hw => Memory.writeBytes_wf (h.1 hw) a bs, fun hw => Memory.writeBytes_within (h.2 hw) hb⟩

theorem BufFrom.writeIf {buf : Memory} (h : BufFrom s buf) {c : Bool} {a : Nat} {bs : List Byte}
    (hb : c = true → a + bs.length ≤ s.cfg.bufBytes) : BufFrom s (if c then buf.writeBytes a bs else buf) := by
  cases c with
  | true => exact h.write (hb rfl)
  | false => exact h

/-- How a compute command that can raise `codes` ends. -/
def ComputeEnd (codes : List ErrCode) (s t : State) : Prop :=
  ∃ e, s.env.OnlyDrew e ∧
    ((∃ c ∈ codes, t = (s.withEnv e).raise c) ∨
      ∃ buf r, BufFrom s buf ∧ t = State.finish { s with env := e, buf := buf, r := r })

theorem ComputeEnd.raise {codes : List ErrCode} (s : State) {c : ErrCode} (hc : c ∈ codes) :
    ComputeEnd codes s (s.raise c) :=
  ⟨s.env, .refl _, .inl ⟨c, hc, rfl⟩⟩

/-- The state just before `finish` differs from `s` at most in the environment, the buffer, the result registers and the key
storage. -/
def BeforeFinish (s u : State) : Prop :=
  u.cfg = s.cfg ∧ u.irqEn = s.irqEn ∧ u.cmd = s.cmd ∧ u.status = s.status ∧ u.p = s.p ∧ u.snap = s.snap ∧ u.rst = s.rst ∧
  u.host = s.host ∧ u.script = s.script

theorem ComputeEnd.of_finish {codes : List ErrCode} {u : State} (he : s.env.OnlyDrew u.env) (hb : BufFrom s u.buf) (hu : BeforeFinish s u) :
    ComputeEnd codes s u.finish := by
  refine ⟨u.env, he, .inr ⟨u.buf, u.r, hb, ?_⟩⟩
  obtain ⟨h1, h2, h3, h4, h5, h6, h7, h8, h9⟩ := hu
  simp only [State.finish, State.complete, h1, h2, h3, h4, h5, h6, h7, h8, h9]

theorem ComputeEnd.of_checkRegions {codes : List ErrCode} {rs : List (Nat × Nat)} {k : Result}
    (h : checkRegions s rs k = .next t) (hc : .ebounds ∈ codes) (hk : RegionsIn s rs → k = .next t → ComputeEnd codes s t) :
    ComputeEnd codes s t := by
  rcases checkRegions_next_iff.mp h with ⟨hr, h⟩ | ⟨-, rfl⟩
  · exact hk hr h
  · exact .raise s hc

theorem ComputeEnd.of_checkLens {codes : List ErrCode} {ls : List Nat} {k : Result} (h : checkLens s ls k = .next t)
    (hc : .elen ∈ codes) (hk : k = .next t → ComputeEnd codes s t) : ComputeEnd codes s t := by
  rcases checkLens_next_iff.mp h with ⟨-, h⟩ | ⟨-, rfl⟩
  · exact hk h
  · exact .raise s hc

theorem ComputeEnd.of_checkCtLen {codes : List ErrCode} {n : Nat} {k : Result} (h : checkCtLen s n k = .next t)
    (hc : .ectlen ∈ codes) (hk : k = .next t → ComputeEnd codes s t) : ComputeEnd codes s t := by
  rcases checkCtLen_next_iff.mp h with ⟨-, -, h⟩ | ⟨-, rfl⟩
  · exact hk h
  · exact .raise s hc

/-- A region that was read has the length it was read with. -/
theorem memRead_next {a n : Nat} {k : List Byte → Result} (h : memRead s a n k = .next t) :
    ∃ bs, bs.length = n ∧ k bs = .next t := by
  obtain ⟨bs, hb, h⟩ := memRead_next_iff.mp h
  exact ⟨bs, Memory.readBytes_length hb, h⟩

theorem memReadIf_next {c : Bool} {a n : Nat} {k : List Byte → Result} (h : memReadIf c s a n k = .next t) :
    ∃ bs, (c = true → bs.length = n) ∧ k bs = .next t := by
  cases c with
  | true =>
    obtain ⟨bs, hb, h⟩ := memRead_next h
    exact ⟨bs, fun _ => hb, h⟩
  | false => exact ⟨[], by simp, h⟩

theorem execNop_end (h : execNop s = .next t) : ComputeEnd (raisable .nop) s t := by
  cases h
  exact ⟨s.env, .refl _, .inr ⟨s.buf, s.r, .refl s, rfl⟩⟩

theorem execRngFill_end (h : execRngFill s = .next t) : ComputeEnd (raisable .rngFill) s t := by
  refine .of_checkRegions h (by simp [raisable]) fun hr h => ?_
  simp only [regionsIn_cons] at hr
  rcases drawEntropy_next h with ⟨bs, hb, -, h⟩ | ⟨-, rfl⟩
  · cases h
    exact ⟨_, s.env.draw_onlyDrew _, .inr ⟨_, _, (BufFrom.refl s).write (by omega), rfl⟩⟩
  · exact ⟨_, s.env.draw_onlyDrew _, .inl ⟨_, by simp [raisable], rfl⟩⟩

theorem execSha256_end (h : execSha256 s = .next t) : ComputeEnd (raisable .sha256) s t := by
  refine .of_checkRegions h (by simp [raisable]) fun hr h => ?_
  simp only [regionsIn_cons] at hr
  obtain ⟨m, -, h⟩ := memRead_next h
  cases h
  exact ⟨s.env, .refl _, .inr ⟨_, _, (BufFrom.refl s).write (by rw [sha256_length]; omega), rfl⟩⟩

theorem execKexp_end (h : execKexp s = .next t) : ComputeEnd (raisable .kexp) s t := by
  refine .of_checkRegions h (by simp [raisable]) fun hr h => ?_
  simp only [regionsIn_cons] at hr
  obtain ⟨key, -, h⟩ := memRead_next h
  cases h
  refine ⟨s.env, .refl _, .inr ⟨_, _, (BufFrom.refl s).write (?_), rfl⟩⟩
  rw [scheduleBytes_length, keyExpansion_length]
  omega

theorem execAesEnc_end (h : execAesEnc s = .next t) : ComputeEnd (raisable .aesEnc) s t := by
  refine .of_checkRegions h (by simp [raisable]) fun hr h => ?_
  simp only [regionsIn_cons] at hr
  obtain ⟨key, -, h⟩ := memRead_next h
  obtain ⟨x, -, h⟩ := memRead_next h
  cases h
  exact ⟨s.env, .refl _, .inr ⟨_, _, (BufFrom.refl s).write (by rw [encryptBlock_length]; omega), rfl⟩⟩

theorem execAesDec_end (h : execAesDec s = .next t) : ComputeEnd (raisable .aesDec) s t := by
  refine .of_checkRegions h (by simp [raisable]) fun hr h => ?_
  simp only [regionsIn_cons] at hr
  obtain ⟨key, -, h⟩ := memRead_next h
  obtain ⟨x, -, h⟩ := memRead_next h
  cases h
  exact ⟨s.env, .refl _, .inr ⟨_, _, (BufFrom.refl s).write (by rw [decryptBlock_length]; omega), rfl⟩⟩

theorem execCbcEnc_end {isrc : Bool} (h : execCbcEnc isrc s = .next t) : ComputeEnd (raisable (.cbcEnc isrc)) s t := by
  refine .of_checkRegions h (by simp [raisable]) fun hr h => ?_
  simp only [regionsIn_cons] at hr
  obtain ⟨key, -, h⟩ := memRead_next h
  obtain ⟨x, hx, h⟩ := memRead_next h
  obtain ⟨ivIn, -, h⟩ := memReadIf_next h
  obtain ⟨e, he, ⟨iv, -, hiv, h⟩ | ⟨hg, rfl⟩⟩ := givenOrDrawn_next h
  · cases h
    have hc : BufFrom s (s.buf.writeBytes (s.param 3) (cbcEnc (keyExpansion key) iv x)) :=
      (BufFrom.refl s).write (by rw [cbcEnc_length, hx]; omega)
    cases isrc with
    | true => exact ⟨e, he, .inr ⟨_, _, hc, rfl⟩⟩
    | false => exact ⟨e, he, .inr ⟨_, _, hc.write (a := s.param 4) (bs := iv) (by rw [hiv rfl]; omega), rfl⟩⟩
  · exact ⟨e, he, .inl ⟨_, by simp [raisable, hg], rfl⟩⟩

theorem execCbcDec_end (h : execCbcDec s = .next t) : ComputeEnd (raisable .cbcDec) s t := by
  refine .of_checkCtLen h (by simp [raisable]) fun h => .of_checkRegions h (by simp [raisable]) fun hr h => ?_
  simp only [regionsIn_cons] at hr
  obtain ⟨key, -, h⟩ := memRead_next h
  obtain ⟨y, hy, h⟩ := memRead_next h
  obtain ⟨iv, -, h⟩ := memRead_next h
  cases h
  refine ⟨s.env, .refl _, .inr ⟨_, _, (BufFrom.refl s).write ?_, rfl⟩⟩
  have := cbcPlain_length_le (keyExpansion key) iv y
  omega

theorem execModexp_end (h : execModexp s = .next t) : ComputeEnd (raisable .modexp) s t := by
  refine .of_checkLens h (by simp [raisable]) fun h => .of_checkRegions h (by simp [raisable]) fun hr h => ?_
  simp only [regionsIn_cons] at hr
  obtain ⟨b, -, h⟩ := memRead_next h
  obtain ⟨x, -, h⟩ := memRead_next h
  obtain ⟨n, hn, h⟩ := memRead_next h
  split at h
  · cases h
    exact .raise s (by simp [raisable])
  · next h0 =>
    cases h
    refine ⟨s.env, .refl _, .inr ⟨_, _, (BufFrom.refl s).write ?_, rfl⟩⟩
    have := modexp_bytes_length_le (b := beInt b) (x := beInt x) h0
    omega

theorem execHybEnc_end {isrc ksrc : Bool} (h : execHybEnc isrc ksrc s = .next t) : ComputeEnd (raisable (.hybEnc isrc ksrc)) s t := by
  refine .of_checkLens h (by simp [raisable]) fun h => .of_checkRegions h (by simp [raisable]) fun hr h => ?_
  simp only [List.cons_append, List.nil_append, regionsIn_cons] at hr
  obtain ⟨x, hx, h⟩ := memRead_next h
  obtain ⟨n, hn, h⟩ := memRead_next h
  obtain ⟨ex, -, h⟩ := memRead_next h
  obtain ⟨ivIn, -, h⟩ := memReadIf_next h
  obtain ⟨keyIn, -, h⟩ := memReadIf_next h
  split at h
  · cases h
    exact .raise s (by simp [raisable])
  · next h0 =>
    obtain ⟨e, he, ⟨key, -, -, h⟩ | ⟨hg, rfl⟩⟩ := givenOrDrawn_next h
    · obtain ⟨e', he', ⟨iv, -, hiv, h⟩ | ⟨hg, rfl⟩⟩ := givenOrDrawn_next h
      · rw [← Host.Outcome.next.inj h]
        have hc : BufFrom s ((s.buf.writeBytes (s.param 6) (cbcEnc (keyExpansion key) iv x)).writeBytes (s.param 7)
            (wrapKey key (beInt ex) (beInt n))) := by
          refine ((BufFrom.refl s).write (by rw [cbcEnc_length, hx]; omega)).write ?_
          have := wrapKey_length_le (key := key) (e := beInt ex) h0
          omega
        refine .of_finish (by simpa using he.trans he') ?_ (by simp [BeforeFinish])
        simp only [State.setR_buf, State.memWriteIf_buf, State.memWrite_buf, State.loadKey_buf, State.withEnv_buf]
        exact hc.writeIf fun hi => by rw [hiv (by simpa using hi)]; omega
      · exact ⟨e', he.trans he', .inl ⟨_, by simp [raisable, hg], rfl⟩⟩
    · exact ⟨e, he, .inl ⟨_, by simp [raisable, hg], rfl⟩⟩

theorem execHybDec_end (h : execHybDec s = .next t) : ComputeEnd (raisable .hybDec) s t := by
  refine .of_checkLens h (by simp [raisable]) fun h => .of_checkCtLen h (by simp [raisable]) fun h => .of_checkRegions h (by simp [raisable]) fun hr h => ?_
  simp only [regionsIn_cons] at hr
  obtain ⟨y, hy, h⟩ := memRead_next h
  obtain ⟨c, -, h⟩ := memRead_next h
  obtain ⟨iv, -, h⟩ := memRead_next h
  obtain ⟨n, -, h⟩ := memRead_next h
  obtain ⟨d, -, h⟩ := memRead_next h
  split at h
  · cases h
    exact .raise s (by simp [raisable])
  · split at h
    · cases h
      exact .raise s (by simp [raisable])
    · next key _ =>
      cases h
      refine ⟨s.env, .refl _, .inr ⟨_, _, (BufFrom.refl s).write ?_, rfl⟩⟩
      have := cbcPlain_length_le (keyExpansion key) iv y
      omega

/-- A compute command that answers a next state has ended (R339). -/
theorem exec_compute_end {i : Instr} (hi : i.isStream = false) (h : exec i s = .next t) : ComputeEnd (raisable i) s t := by
  cases i with
  | nop => exact execNop_end h
  | rngFill => exact execRngFill_end h
  | sha256 => exact execSha256_end h
  | kexp => exact execKexp_end h
  | aesEnc => exact execAesEnc_end h
  | aesDec => exact execAesDec_end h
  | cbcEnc isrc => exact execCbcEnc_end h
  | cbcDec => exact execCbcDec_end h
  | modexp => exact execModexp_end h
  | hybEnc isrc ksrc => exact execHybEnc_end h
  | hybDec => exact execHybDec_end h
  | frameTx => simp [Instr.isStream] at hi
  | frameRx => simp [Instr.isStream] at hi
  | rawTx => simp [Instr.isStream] at hi
  | rawRx => simp [Instr.isStream] at hi

/-! ### One step of a stream command -/

/-- Everything a byte step of FRAME_TX and RAW_TX can do (R291, R294, R296). -/
theorem sendStep_next {framed : Bool} {n : Nat} (h : sendStep s framed n = .next t) :
    (s.progress.pending = [] ∧ t = (s.setCounts s.progress.doneBytes n (s.hdrGot + s.progress.doneBytes)).finish) ∨
    ∃ b rest, s.progress.pending = b :: rest ∧
      ((s.abortPending = true ∧
          t = (s.unheld.setCounts s.progress.doneBytes n (s.hdrGot + s.progress.doneBytes)).cancel) ∨
        (s.abortPending = false ∧ s.env.txClosed = true ∧
          t = (s.unheld.setCounts s.progress.doneBytes n (s.hdrGot + s.progress.doneBytes)).raise .etxclosed) ∨
        (s.abortPending = false ∧ s.env.txClosed = false ∧ s.env.txCredit = 0 ∧ t = s.held) ∨
        (s.abortPending = false ∧ s.env.txClosed = false ∧ ∃ c u, s.env.txCredit = c + 1 ∧
          u = (s.unheld.withEnv { s.env with txLog := s.env.txLog ++ [b], txCredit := c }).sentByte framed b rest ∧
          ((rest = [] ∧ t = (u.setCounts u.progress.doneBytes n (u.hdrGot + u.progress.doneBytes)).finish) ∨
            (rest ≠ [] ∧ t = u)))) := by
  unfold sendStep at h
  simp only at h
  split at h
  · next hp => exact .inl ⟨hp, (Host.Outcome.next.inj h).symm⟩
  · next b rest hp =>
    refine .inr ⟨b, rest, hp, ?_⟩
    rcases txPut_next h with ⟨ha, rfl⟩ | ⟨ha, hc, rfl⟩ | ⟨ha, hc, c, hn, h⟩ | ⟨ha, hc, hn, rfl⟩
    · exact .inl ⟨ha, rfl⟩
    · exact .inr (.inl ⟨ha, hc, rfl⟩)
    · refine .inr (.inr (.inr ⟨ha, hc, c, _, hn, rfl, ?_⟩))
      cases rest with
      | nil => exact .inl ⟨rfl, (Host.Outcome.next.inj h).symm⟩
      | cons b' rest => exact .inr ⟨by simp, (Host.Outcome.next.inj h).symm⟩
    · exact .inr (.inr (.inl ⟨ha, hc, hn, rfl⟩))

/-- Everything a payload byte step of FRAME_RX and RAW_RX can do (R290, R295, R297). -/
theorem receiveStep_next {dst n : Nat} (h : receiveStep s dst n = .next t) :
    (s.abortPending = true ∧
      t = (s.unheld.setCounts s.progress.doneBytes n (s.hdrGot + s.progress.doneBytes)).cancel) ∨
    (s.abortPending = false ∧ s.env.rxQ = [] ∧ s.env.rxClosed = true ∧
      t = (s.unheld.setCounts s.progress.doneBytes n (s.hdrGot + s.progress.doneBytes)).raise .etrunc) ∨
    (s.abortPending = false ∧ s.env.rxQ = [] ∧ s.env.rxClosed = false ∧ t = s.held) ∨
    (s.abortPending = false ∧ ∃ b q u, s.env.rxQ = b :: q ∧
      u = (s.unheld.withEnv { s.env with rxQ := q }).gotPayloadByte (dst + s.progress.doneBytes) b ∧
      ((s.progress.doneBytes + 1 < n ∧ t = u) ∨
        (n ≤ s.progress.doneBytes + 1 ∧
          t = (u.setCounts (s.progress.doneBytes + 1) n (s.hdrGot + (s.progress.doneBytes + 1))).finish))) := by
  unfold receiveStep at h
  simp only at h
  rcases rxTake_next h with ⟨ha, rfl⟩ | ⟨ha, b, q, hq, h⟩ | ⟨ha, hq, hc, rfl⟩ | ⟨ha, hq, hc, rfl⟩
  · exact .inl ⟨ha, rfl⟩
  · refine .inr (.inr (.inr ⟨ha, b, q, _, hq, rfl, ?_⟩))
    split at h
    · next hn => exact .inl ⟨hn, (Host.Outcome.next.inj h).symm⟩
    · next hn => exact .inr ⟨by omega, (Host.Outcome.next.inj h).symm⟩
  · exact .inr (.inl ⟨ha, hq, hc, rfl⟩)
  · exact .inr (.inr (.inl ⟨ha, hq, hc, rfl⟩))

/-- Everything a header byte step of FRAME_RX can do (R290, R295). -/
theorem headerStep_next {cap : Nat} (h : headerStep s cap = .next t) :
    (s.abortPending = true ∧ t = (s.unheld.setCounts 0 0 s.hdrGot).cancel) ∨
    (s.abortPending = false ∧ s.env.rxQ = [] ∧ s.env.rxClosed = true ∧
      t = (s.unheld.setCounts 0 0 s.hdrGot).raise .etrunc) ∨
    (s.abortPending = false ∧ s.env.rxQ = [] ∧ s.env.rxClosed = false ∧ t = s.held) ∨
    (s.abortPending = false ∧ ∃ b q u, s.env.rxQ = b :: q ∧
      u = (s.unheld.withEnv { s.env with rxQ := q }).gotHeaderByte b ∧
      ((s.hdrGot + 1 < 4 ∧ t = u) ∨
        (4 ≤ s.hdrGot + 1 ∧ ∃ d, d = beInt (s.progress.hdr ++ [b]) ∧
          ((cap < d ∧ t = (u.setCounts 0 d 4).raise .eframelen) ∨
            (d ≤ cap ∧ d = 0 ∧ t = (u.setCounts 0 0 4).finish) ∨
            (d ≤ cap ∧ d ≠ 0 ∧ t = u.gotLength d))))) := by
  unfold headerStep at h
  simp only at h
  rcases rxTake_next h with ⟨ha, rfl⟩ | ⟨ha, b, q, hq, h⟩ | ⟨ha, hq, hc, rfl⟩ | ⟨ha, hq, hc, rfl⟩
  · exact .inl ⟨ha, rfl⟩
  · refine .inr (.inr (.inr ⟨ha, b, q, _, hq, rfl, ?_⟩))
    have hg : ((s.unheld.withEnv { s.env with rxQ := q }).gotHeaderByte b).hdrGot = s.hdrGot + 1 := by
      simp [State.hdrGot]
    rw [hg] at h
    split at h
    · next hn => exact .inl ⟨hn, (Host.Outcome.next.inj h).symm⟩
    · next hn =>
      refine .inr ⟨by omega, _, rfl, ?_⟩
      split at h
      · next hd => exact .inl ⟨hd, (Host.Outcome.next.inj h).symm⟩
      · next hd =>
        split at h
        · next h0 => exact .inr (.inl ⟨Nat.le_of_not_lt hd, h0, (Host.Outcome.next.inj h).symm⟩)
        · next h0 => exact .inr (.inr ⟨Nat.le_of_not_lt hd, h0, (Host.Outcome.next.inj h).symm⟩)
  · exact .inr (.inl ⟨ha, hq, hc, rfl⟩)
  · exact .inr (.inr (.inl ⟨ha, hq, hc, rfl⟩))

/-- At most one byte has moved, on the stream the command `i` works on, and no stream has closed (R101). -/
def Env.MovedOne (i : Instr) (e e' : Env) : Prop :=
  (e'.rxQ = e.rxQ ∨ (i = .frameRx ∨ i = .rawRx) ∧ ∃ b, e.rxQ = b :: e'.rxQ) ∧
  (e'.txLog = e.txLog ∨ (i = .frameTx ∨ i = .rawTx) ∧ e.txClosed = false ∧ ∃ b, e'.txLog = e.txLog ++ [b]) ∧
  e'.rxClosed = e.rxClosed ∧ e'.txClosed = e.txClosed ∧ e'.entropyQ = e.entropyQ ∧ e'.draws = e.draws

theorem Env.MovedOne.refl (i : Instr) (e : Env) : e.MovedOne i e := ⟨.inl rfl, .inl rfl, rfl, rfl, rfl, rfl⟩

/-- What one step of the stream command `i` does: it goes on, or it ends in one of the three ways. -/
def StreamStep (i : Instr) (s t : State) : Prop :=
  ∃ env buf, s.env.MovedOne i env ∧ (s.buf.wf → buf.wf) ∧
    ((∃ w pr, t = { s with status := { s.status with wait := w }, progress := pr, env := env, buf := buf }) ∨
      (∃ r, t = State.finish { s with env := env, buf := buf, r := r }) ∨
      (∃ r, t = State.cancel { s with env := env, buf := buf, r := r }) ∨
      ∃ c ∈ raisable i, ∃ r, t = State.raise { s with env := env, buf := buf, r := r } c)

theorem StreamStep.raise {i : Instr} (s : State) {c : ErrCode} (hc : c ∈ raisable i) : StreamStep i s (s.raise c) :=
  ⟨s.env, s.buf, .refl _ _, id, .inr (.inr (.inr ⟨c, hc, s.r, rfl⟩))⟩

/-- A byte step never stops with a fault. -/
theorem sendStep_ne_fault {framed : Bool} {n : Nat} {f : Fault} : sendStep s framed n ≠ .fault f := by
  rw [sendStep]
  dsimp only
  split
  · simp
  · refine txPut_ne_fault fun u => ?_
    split <;> simp

theorem receiveStep_ne_fault {dst n : Nat} {f : Fault} : receiveStep s dst n ≠ .fault f := by
  rw [receiveStep]
  refine rxTake_ne_fault fun b u => ?_
  dsimp only
  split <;> simp

theorem headerStep_ne_fault {cap : Nat} {f : Fault} : headerStep s cap ≠ .fault f := by
  rw [headerStep]
  refine rxTake_ne_fault fun b u => ?_
  dsimp only
  split
  · simp
  · split
    · simp
    · split <;> simp

theorem StreamStep.of_send {i : Instr} {framed : Bool} {n : Nat} (hi : i = .frameTx ∨ i = .rawTx)
    (h : sendStep s framed n = .next t) : StreamStep i s t := by
  have hr : .etxclosed ∈ raisable i := by rcases hi with rfl | rfl <;> simp [raisable]
  rcases sendStep_next h with ⟨-, rfl⟩ | ⟨b, rest, -, ⟨-, rfl⟩ | ⟨-, -, rfl⟩ | ⟨-, -, -, rfl⟩ | ⟨-, ho, c, u, -, rfl, h⟩⟩
  · exact ⟨s.env, s.buf, .refl _ _, id, .inr (.inl ⟨_, rfl⟩)⟩
  · exact ⟨s.env, s.buf, .refl _ _, id, .inr (.inr (.inl ⟨(s.setCounts s.progress.doneBytes n (s.hdrGot + s.progress.doneBytes)).r, rfl⟩))⟩
  · exact ⟨s.env, s.buf, .refl _ _, id, .inr (.inr (.inr ⟨_, hr, (s.setCounts s.progress.doneBytes n (s.hdrGot + s.progress.doneBytes)).r, rfl⟩))⟩
  · exact ⟨s.env, s.buf, .refl _ _, id, .inl ⟨true, s.progress, rfl⟩⟩
  · refine ⟨{ s.env with txLog := s.env.txLog ++ [b], txCredit := c }, s.buf,
      ⟨.inl rfl, .inr ⟨hi, ho, b, rfl⟩, rfl, rfl, rfl, rfl⟩, id, ?_⟩
    rcases h with ⟨-, rfl⟩ | ⟨-, rfl⟩
    · exact .inr (.inl ⟨_, rfl⟩)
    · exact .inl ⟨false, _, rfl⟩

theorem StreamStep.of_receive {i : Instr} {dst n : Nat} (hi : i = .frameRx ∨ i = .rawRx)
    (h : receiveStep s dst n = .next t) : StreamStep i s t := by
  have hr : .etrunc ∈ raisable i := by rcases hi with rfl | rfl <;> simp [raisable]
  rcases receiveStep_next h with ⟨-, rfl⟩ | ⟨-, -, -, rfl⟩ | ⟨-, -, -, rfl⟩ | ⟨-, b, q, u, hq, rfl, h⟩
  · exact ⟨s.env, s.buf, .refl _ _, id, .inr (.inr (.inl ⟨(s.setCounts s.progress.doneBytes n (s.hdrGot + s.progress.doneBytes)).r, rfl⟩))⟩
  · exact ⟨s.env, s.buf, .refl _ _, id, .inr (.inr (.inr ⟨_, hr, (s.setCounts s.progress.doneBytes n (s.hdrGot + s.progress.doneBytes)).r, rfl⟩))⟩
  · exact ⟨s.env, s.buf, .refl _ _, id, .inl ⟨true, s.progress, rfl⟩⟩
  · refine ⟨{ s.env with rxQ := q }, s.buf.writeBytes (dst + s.progress.doneBytes) [b],
      ⟨.inr ⟨hi, b, hq⟩, .inl rfl, rfl, rfl, rfl, rfl⟩, fun hw => Memory.writeBytes_wf hw _ _, ?_⟩
    rcases h with ⟨-, rfl⟩ | ⟨-, rfl⟩
    · exact .inl ⟨false, _, rfl⟩
    · exact .inr (.inl ⟨_, rfl⟩)

theorem StreamStep.of_header {cap : Nat} (h : headerStep s cap = .next t) : StreamStep .frameRx s t := by
  rcases headerStep_next h with ⟨-, rfl⟩ | ⟨-, -, -, rfl⟩ | ⟨-, -, -, rfl⟩ | ⟨-, b, q, u, hq, rfl, h⟩
  · exact ⟨s.env, s.buf, .refl _ _, id, .inr (.inr (.inl ⟨(s.setCounts 0 0 s.hdrGot).r, rfl⟩))⟩
  · exact ⟨s.env, s.buf, .refl _ _, id, .inr (.inr (.inr ⟨.etrunc, by simp [raisable], (s.setCounts 0 0 s.hdrGot).r, rfl⟩))⟩
  · exact ⟨s.env, s.buf, .refl _ _, id, .inl ⟨true, s.progress, rfl⟩⟩
  · refine ⟨{ s.env with rxQ := q }, s.buf, ⟨.inr ⟨.inl rfl, b, hq⟩, .inl rfl, rfl, rfl, rfl, rfl⟩, id, ?_⟩
    rcases h with ⟨-, rfl⟩ | ⟨-, d, -, ⟨-, rfl⟩ | ⟨-, -, rfl⟩ | ⟨-, -, rfl⟩⟩
    · exact .inl ⟨false, _, rfl⟩
    · exact .inr (.inr (.inr ⟨_, by simp [raisable], _, rfl⟩))
    · exact .inr (.inl ⟨_, rfl⟩)
    · exact .inl ⟨false, _, rfl⟩

theorem StreamStep.of_checkRegions {i : Instr} {rs : List (Nat × Nat)} {k : Result} (h : checkRegions s rs k = .next t)
    (hc : .ebounds ∈ raisable i) (hk : RegionsIn s rs → k = .next t → StreamStep i s t) : StreamStep i s t := by
  rcases checkRegions_next_iff.mp h with ⟨hr, h⟩ | ⟨-, rfl⟩
  · exact hk hr h
  · exact .raise s hc

theorem StreamStep.of_checked {i : Instr} {pending : List Byte} (h : t = s.streamChecked pending) : StreamStep i s t :=
  ⟨s.env, s.buf, .refl _ _, id, .inl ⟨s.status.wait, _, h⟩⟩

/-- A step of a stream command (R339). -/
theorem exec_stream_step {i : Instr} (hi : i.isStream = true) (h : exec i s = .next t) : StreamStep i s t := by
  cases i with
  | frameTx =>
    simp only [exec, execFrameTx] at h
    split at h
    · exact .of_send (.inl rfl) h
    · refine .of_checkRegions h (by simp [raisable]) fun _ h => ?_
      obtain ⟨bs, -, h⟩ := memRead_next h
      exact .of_checked (Host.Outcome.next.inj h).symm
  | frameRx =>
    simp only [exec, execFrameRx] at h
    split at h
    · split at h
      · exact .of_header h
      · exact .of_receive (.inl rfl) h
    · exact .of_checkRegions h (by simp [raisable]) fun _ h => .of_checked (Host.Outcome.next.inj h).symm
  | rawTx =>
    simp only [exec, execRawTx] at h
    split at h
    · exact .of_send (.inr rfl) h
    · refine .of_checkRegions h (by simp [raisable]) fun _ h => ?_
      obtain ⟨bs, -, h⟩ := memRead_next h
      split at h
      · exact ⟨s.env, s.buf, .refl _ _, id, .inr (.inl ⟨_, (Host.Outcome.next.inj h).symm⟩)⟩
      · exact .of_checked (Host.Outcome.next.inj h).symm
  | rawRx =>
    simp only [exec, execRawRx] at h
    split at h
    · exact .of_receive (.inr rfl) h
    · refine .of_checkRegions h (by simp [raisable]) fun _ h => ?_
      split at h
      · exact ⟨s.env, s.buf, .refl _ _, id, .inr (.inl ⟨_, (Host.Outcome.next.inj h).symm⟩)⟩
      · exact .of_checked (Host.Outcome.next.inj h).symm
  | nop | rngFill | sha256 | kexp | aesEnc | aesDec | cbcEnc | cbcDec | modexp | hybEnc | hybDec =>
    simp [Instr.isStream] at hi

end Sys2Proof.Machine
end

