-- ==== Sys2Proof/Laws/Field.lean ====
section
/-! SUPPORT. The byte arithmetic of R170 is a commutative ring: `gmul` is additive on both sides, associative and commutative. -/

namespace Sys2Proof.Machine

theorem xor_left_comm (a b c : Byte) : a ^^^ (b ^^^ c) = b ^^^ (a ^^^ c) := by
  rw [← BitVec.xor_assoc, BitVec.xor_comm a b, BitVec.xor_assoc]

/-! ### Additivity -/

@[simp] theorem xtime_zero : xtime 0#8 = 0#8 := by decide

theorem xtime_xor (a b : Byte) : xtime (a ^^^ b) = xtime a ^^^ xtime b := by
  simp only [xtime, BitVec.getLsbD_xor, BitVec.shiftLeft_xor_distrib]
  cases a.getLsbD 7 <;> cases b.getLsbD 7 <;>
    simp [BitVec.xor_assoc, BitVec.xor_comm 27#8]

@[simp] theorem gmulBits_zero (n : Nat) (a : Byte) : gmulBits n a 0#8 = 0#8 := by
  induction n generalizing a with
  | zero => rfl
  | succ n ih => simp [gmulBits, ih]

theorem gmulBits_xor (n : Nat) (a b c : Byte) : gmulBits n a (b ^^^ c) = gmulBits n a b ^^^ gmulBits n a c := by
  induction n generalizing a b c with
  | zero => simp [gmulBits]
  | succ n ih =>
    simp only [gmulBits, xtime_xor, ih]
    cases a.getLsbD 0 <;> simp [BitVec.xor_assoc, xor_left_comm c]

@[simp] theorem zero_gmulBits (n : Nat) (b : Byte) : gmulBits n 0#8 b = 0#8 := by
  induction n generalizing b with
  | zero => rfl
  | succ n ih => simp [gmulBits, ih]

theorem xor_gmulBits (n : Nat) (a a' b : Byte) : gmulBits n (a ^^^ a') b = gmulBits n a b ^^^ gmulBits n a' b := by
  induction n generalizing a a' b with
  | zero => simp [gmulBits]
  | succ n ih =>
    simp only [gmulBits, BitVec.getLsbD_xor, BitVec.ushiftRight_xor_distrib, ih]
    cases a.getLsbD 0 <;> cases a'.getLsbD 0 <;> simp [BitVec.xor_assoc, xor_left_comm b]

@[simp] theorem gmul_zero (a : Byte) : gmul a 0#8 = 0#8 := gmulBits_zero 8 a

@[simp] theorem zero_gmul (a : Byte) : gmul 0#8 a = 0#8 := zero_gmulBits 8 a

theorem gmul_xor (a b c : Byte) : gmul a (b ^^^ c) = gmul a b ^^^ gmul a c := gmulBits_xor 8 a b c

theorem xor_gmul (a b c : Byte) : gmul (a ^^^ b) c = gmul a c ^^^ gmul b c := xor_gmulBits 8 a b c

/-! ### Proof by bits -/

/-- What holds of 0, of each single bit, and with two bytes of their sum, holds of every byte. -/
theorem byte_bits {P : Byte → Prop} (h0 : P 0#8) (hbit : ∀ i < 8, P (BitVec.twoPow 8 i))
    (ha : ∀ a b, P a → P b → P (a ^^^ b)) (a : Byte) : P a := by
  have hand : ∀ i < 8, P (a &&& BitVec.twoPow 8 i) := by
    intro i hi
    rw [BitVec.and_twoPow]
    split
    · exact hbit i hi
    · exact h0
  have hsum : a = (a &&& BitVec.twoPow 8 0) ^^^ (a &&& BitVec.twoPow 8 1) ^^^ (a &&& BitVec.twoPow 8 2) ^^^
      (a &&& BitVec.twoPow 8 3) ^^^ (a &&& BitVec.twoPow 8 4) ^^^ (a &&& BitVec.twoPow 8 5) ^^^
      (a &&& BitVec.twoPow 8 6) ^^^ (a &&& BitVec.twoPow 8 7) := by
    apply BitVec.eq_of_getLsbD_eq
    intro i hi
    match i, hi with
    | 0, _ | 1, _ | 2, _ | 3, _ | 4, _ | 5, _ | 6, _ | 7, _ => simp
  rw [hsum]
  exact ha _ _ (ha _ _ (ha _ _ (ha _ _ (ha _ _ (ha _ _ (ha _ _ (hand 0 (by omega)) (hand 1 (by omega)))
    (hand 2 (by omega))) (hand 3 (by omega))) (hand 4 (by omega))) (hand 5 (by omega))) (hand 6 (by omega)))
    (hand 7 (by omega))

/-- What holds of 0 and of 1, and with a byte of its `xtime`, and with two bytes of their sum, holds of every byte. -/
theorem byte_induction {P : Byte → Prop} (h0 : P 0#8) (h1 : P 1#8) (hx : ∀ a, P a → P (xtime a))
    (ha : ∀ a b, P a → P b → P (a ^^^ b)) (a : Byte) : P a := by
  refine byte_bits h0 (fun i hi => ?_) ha a
  induction i with
  | zero => exact h1
  | succ i ih =>
    have hall : ∀ j < 7, BitVec.twoPow 8 (j + 1) = xtime (BitVec.twoPow 8 j) := by decide
    rw [hall i (by omega)]
    exact hx _ (ih (by omega))

/-! ### The ring laws -/

theorem gmulBits_xtime (n : Nat) (a b : Byte) : gmulBits n a (xtime b) = xtime (gmulBits n a b) := by
  induction n generalizing a b with
  | zero => exact xtime_zero.symm
  | succ n ih =>
    simp only [gmulBits, xtime_xor, ih]
    cases a.getLsbD 0 <;> simp

theorem gmul_xtime (a b : Byte) : gmul a (xtime b) = xtime (gmul a b) := gmulBits_xtime 8 a b

theorem xtime_gmul (a b : Byte) : gmul (xtime a) b = xtime (gmul a b) := by
  induction a using byte_bits with
  | h0 => simp
  | ha a a' iha iha' => rw [xtime_xor, xor_gmul, iha, iha', xor_gmul, xtime_xor]
  | hbit i hi =>
    induction b using byte_bits with
    | h0 => simp
    | ha b b' ihb ihb' => rw [gmul_xor, ihb, ihb', gmul_xor, xtime_xor]
    | hbit j hj =>
      have hall : ∀ i < 8, ∀ j < 8, gmul (xtime (BitVec.twoPow 8 i)) (BitVec.twoPow 8 j) =
          xtime (gmul (BitVec.twoPow 8 i) (BitVec.twoPow 8 j)) := by decide +kernel
      exact hall i hi j hj

@[simp] theorem one_gmul (b : Byte) : gmul 1#8 b = b := by
  simp [gmul, gmulBits]

@[simp] theorem gmul_one (a : Byte) : gmul a 1#8 = a := by
  induction a using byte_induction with
  | h0 => decide
  | h1 => decide
  | hx a ih => rw [xtime_gmul, ih]
  | ha a b iha ihb => rw [xor_gmul, iha, ihb]

theorem gmul_comm (a b : Byte) : gmul a b = gmul b a := by
  induction a using byte_induction with
  | h0 => simp
  | h1 => simp
  | hx a ih => rw [xtime_gmul, ih, gmul_xtime]
  | ha a b iha ihb => rw [xor_gmul, iha, ihb, gmul_xor]

theorem gmul_assoc (a b c : Byte) : gmul (gmul a b) c = gmul a (gmul b c) := by
  induction a using byte_induction with
  | h0 => simp
  | h1 => simp
  | hx a ih => rw [xtime_gmul, xtime_gmul, ih, xtime_gmul]
  | ha a a' iha iha' => rw [xor_gmul, xor_gmul, iha, iha', xor_gmul]

end Sys2Proof.Machine
end

