-- ==== Sys2Proof/Laws/HostBus.lean ====
section
/-! SUPPORT. The register map, everything one host access and one program line can do (R31, R80 to R87, R119), and where the
statements of an assembled program stand (R119, R120). -/

namespace Sys2Proof.Machine

variable {s t : State}

/-! ### The register map -/

theorem mem_of_lookup {α β : Type} [BEq α] [LawfulBEq α] {l : List (α × β)} {a : α} {b : β} (h : l.lookup a = some b) :
    (a, b) ∈ l := by
  induction l with
  | nil => cases h
  | cons x l ih =>
    rw [List.lookup_cons] at h
    split at h
    · next hk =>
      cases eq_of_beq hk
      cases h
      exact List.mem_cons_self
    · exact List.mem_cons_of_mem _ (ih h)

/-- The register the map gives for an aligned offset stands at that offset. -/
theorem regAt_offset {n o : Nat} {reg : Reg} (h4 : o % 4 = 0) (h : regAt n o = some reg) : reg.offset = o := by
  unfold regAt at h
  split at h
  · have hm := mem_of_lookup h
    have hall : ∀ e ∈ namedRegs, e.2.offset = e.1 := by decide
    exact hall _ hm
  · split at h
    · cases h
      simp [Reg.offset, Fin.ofNat]
      omega
    · split at h
      · cases h
        simp [Reg.offset]
        omega
      · cases h

theorem regAt_p (n : Nat) (i : Fin 16) : regAt n (0x040 + 4 * i.val) = some (.p i) := by
  unfold regAt
  rw [if_neg (by omega), if_pos (by omega)]
  congr
  apply Fin.ext
  simp [Fin.ofNat]

theorem regAt_buf {n a : Nat} (h : a + 4 ≤ n) : regAt n (0x10000 + a) = some (.buf a) := by
  unfold regAt
  rw [if_neg (by omega), if_neg (by omega), if_pos (by omega)]
  simp

/-- A buffer word of the map lies whole inside the buffer. -/
theorem regAt_buf_within {n o a : Nat} (h : regAt n o = some (.buf a)) : a + 4 ≤ n := by
  unfold regAt at h
  split at h
  · have hall : ∀ e ∈ namedRegs, ∀ c, e.2 ≠ .buf c := by simp [namedRegs]
    exact absurd rfl (hall _ (mem_of_lookup h) a)
  · split at h
    · cases h
    · split at h
      · simp only [Option.some.injEq, Reg.buf.injEq] at h
        omega
      · cases h

/-- Between the named registers and the parameters, between the parameters and the buffer, and past the buffer the map is
reserved. -/
theorem regAt_reserved {n o : Nat} (h : (0x028 ≤ o ∧ o < 0x040) ∨ (0x080 ≤ o ∧ o < 0x10000) ∨ 0x10000 + n < o + 4 ∧ 0x10000 ≤ o) :
    regAt n o = none := by
  unfold regAt
  split
  · match hl : namedRegs.lookup o with
    | none => rfl
    | some reg =>
      have hall : ∀ e ∈ namedRegs, e.1 < 0x028 := by decide
      have := hall _ (mem_of_lookup hl)
      simp only at this
      omega
  · rw [if_neg (by omega), if_neg (by omega)]

/-! ### One access -/

/-- Everything a host access can do. -/
theorem hostAccess_next {a : Access} (h : hostAccess s a = .next t) :
    (s.rst = true ∧ t = s.answer (if a.write then .ok else .data 0)) ∨
    (s.rst = false ∧ a.served = false ∧ t = s.answer .busError) ∨
    (s.rst = false ∧ a.served = true ∧
      ((a.write = true ∧ ((∃ reg, regAt s.cfg.bufBytes a.offset = some reg ∧ t = (writeReg s reg a.value).answer .ok) ∨
          regAt s.cfg.bufBytes a.offset = none ∧ t = s.answer .ok)) ∨
        (a.write = false ∧ ((∃ reg, regAt s.cfg.bufBytes a.offset = some reg ∧ readReg s reg = .next t) ∨
          regAt s.cfg.bufBytes a.offset = none ∧ t = s.answer (.data 0))))) := by
  unfold hostAccess hostWrite hostRead at h
  split at h
  · next hr => exact .inl ⟨hr, (Host.Outcome.next.inj h).symm⟩
  · next hr =>
    have hr : s.rst = false := by simpa using hr
    split at h
    · next ha =>
      split at h
      · next hw =>
        refine .inr (.inr ⟨hr, ha, .inl ⟨hw, ?_⟩⟩)
        split at h
        · next reg hreg => exact .inl ⟨reg, hreg, (Host.Outcome.next.inj h).symm⟩
        · next hreg => exact .inr ⟨hreg, (Host.Outcome.next.inj h).symm⟩
      · next hw =>
        refine .inr (.inr ⟨hr, ha, .inr ⟨by simpa using hw, ?_⟩⟩)
        split at h
        · next reg hreg => exact .inl ⟨reg, hreg, h⟩
        · next hreg => exact .inr ⟨hreg, (Host.Outcome.next.inj h).symm⟩
    · next ha => exact .inr (.inl ⟨hr, by simpa using ha, (Host.Outcome.next.inj h).symm⟩)

/-- Everything a register read can do: it changes nothing but the host's answer, `HAZ` for a locked buffer word, and the number
of the next free value for `STATUS` while a stream command runs. -/
theorem readReg_next {reg : Reg} (h : readReg s reg = .next t) :
    ∃ v, t = s.answer (.data v) ∨ (t = s.tickDraw.answer (.data v) ∧ s.streamRunning = true) ∨
      (t = s.markHaz.answer (.data v) ∧ s.status.busy = true) := by
  cases reg <;> simp only [readReg, readStatus, readBuf] at h
  case status =>
    split at h
    · next hs => exact ⟨_, .inr (.inl ⟨(Host.Outcome.next.inj h).symm, hs⟩)⟩
    · exact ⟨_, .inl (Host.Outcome.next.inj h).symm⟩
  case buf a =>
    split at h
    · next hb => exact ⟨_, .inr (.inr ⟨(Host.Outcome.next.inj h).symm, hb⟩)⟩
    · obtain ⟨bs, -, h⟩ := memRead_next_iff.mp h
      exact ⟨_, .inl (Host.Outcome.next.inj h).symm⟩
  all_goals exact ⟨_, .inl (Host.Outcome.next.inj h).symm⟩

/-! ### One line of a host program -/

/-- A line changes the host alone after its access. -/
theorem afterLine_eq (op : HostOp) (u : State) : ∃ host, afterLine op u = { u with host := host } := by
  unfold afterLine
  split
  · exact ⟨_, rfl⟩
  · split <;> exact ⟨_, rfl⟩
  · exact ⟨_, rfl⟩

/-- Everything a line can do: past the end nothing, and otherwise its access and then its control flow. -/
theorem hostProgramStep_next (h : hostProgramStep s = .next t) :
    t = s ∨ ∃ op u, hostAccess s op.access = .next u ∧ t = afterLine op u := by
  unfold hostProgramStep at h
  split at h
  · exact .inl (Host.Outcome.next.inj h).symm
  · split at h
    · next u hu => exact .inr ⟨_, u, hu, (Host.Outcome.next.inj h).symm⟩
    · cases h
    · cases h

/-! ### Assembling a program -/

/-- How many lines a statement takes depends neither on where it stands nor on the labels. -/
theorem Stmt.length_ops (lines : Nat → Nat) (at_ : Nat) (st : Stmt) : (st.ops lines at_).length = st.size := by
  cases st <;> simp [Stmt.ops, Stmt.size, runOps, writeBytesOps, readBytesOps, paramWrites]

/-- The lines of a list of statements. -/
def lineCount (prog : List Stmt) : Nat := (prog.map Stmt.size).sum

theorem length_opsFrom (lines : Nat → Nat) (at_ : Nat) (prog : List Stmt) : (opsFrom lines at_ prog).length = lineCount prog := by
  induction prog generalizing at_ with
  | nil => rfl
  | cons st rest ih => simp [opsFrom, lineCount, Stmt.length_ops, ih]

theorem length_assembleProgram (prog : List Stmt) : (assembleProgram prog).length = lineCount prog := length_opsFrom _ _ _

theorem opsFrom_append (lines : Nat → Nat) (at_ : Nat) (pre post : List Stmt) :
    opsFrom lines at_ (pre ++ post) = opsFrom lines at_ pre ++ opsFrom lines (at_ + lineCount pre) post := by
  induction pre generalizing at_ with
  | nil => simp [opsFrom, lineCount]
  | cons st rest ih => simp [opsFrom, lineCount, ih, Nat.add_assoc]

/-- Where a statement stands, its lines stand, with its labels resolved in the whole program. -/
theorem standsAs_ops (pre post : List Stmt) (st : Stmt) :
    StandsAs pre st post
      (st.ops (fun lab => labelLine lab 0 (pre ++ st :: post)) (assembleProgram pre).length) := by
  let lines : Nat → Nat := fun lab => labelLine lab 0 (pre ++ st :: post)
  refine ⟨opsFrom lines 0 pre, opsFrom lines (lineCount pre + st.size) post, ?_, ?_, ?_⟩
  · rw [assembleProgram, opsFrom_append, opsFrom, length_assembleProgram, Nat.zero_add, List.append_assoc]
  · rw [length_opsFrom, length_assembleProgram]
  · rw [length_opsFrom, length_assembleProgram]

theorem labelLine_label (lab n at_ : Nat) (rest : List Stmt) :
    labelLine lab at_ (.label n :: rest) = if n = lab then at_ else labelLine lab at_ rest := rfl

/-- A statement other than the label itself is passed over. -/
theorem labelLine_cons {lab at_ : Nat} {st : Stmt} {rest : List Stmt} (h : st ≠ .label lab) :
    labelLine lab at_ (st :: rest) = labelLine lab (at_ + st.size) rest := by
  cases st with
  | label n => rw [labelLine_label, if_neg (fun e => h (by rw [e]))]; rfl
  | _ => rfl

theorem labelLine_append {lab at_ : Nat} {pre post : List Stmt} (h : Stmt.label lab ∉ pre) :
    labelLine lab at_ (pre ++ post) = labelLine lab (at_ + lineCount pre) post := by
  induction pre generalizing at_ with
  | nil => simp [lineCount]
  | cons st rest ih =>
    rw [List.cons_append, labelLine_cons (fun e => h (by simp [e])), ih (fun e => h (by simp [e]))]
    simp [lineCount, Nat.add_assoc]

/-- A label names the line after what stands before it (R119). -/
theorem labelLine_of_not_mem {lab : Nat} {pre post : List Stmt} (h : Stmt.label lab ∉ pre) :
    labelLine lab 0 (pre ++ .label lab :: post) = (assembleProgram pre).length := by
  rw [labelLine_append h, labelLine_label, if_pos rfl, Nat.zero_add, length_assembleProgram]

end Sys2Proof.Machine
end

