-- ==== Sys2Proof/Laws/PerInstr.lean ====
section
/-! SUPPORT. What is said once for each command: the fields read back from its word are its fields, and they are well formed (R110,
R113, R114). -/

namespace Sys2Proof.Laws.EncodedFields

/-- The fields of the command's word are the command's, with no bit dropped, and are well formed. -/
def Statement (i : Instr) : Prop := fieldsOf (encode i) = i.fields ∧ i.wellFormed = true

theorem nop : Statement .nop := by unfold Statement; decide

theorem rngFill : Statement .rngFill := by unfold Statement; decide

theorem sha256 : Statement .sha256 := by unfold Statement; decide

theorem kexp : Statement .kexp := by unfold Statement; decide

theorem aesEnc : Statement .aesEnc := by unfold Statement; decide

theorem aesDec : Statement .aesDec := by unfold Statement; decide

theorem cbcEnc (isrc : Bool) : Statement (.cbcEnc isrc) := by
  cases isrc <;> (unfold Statement; decide)

theorem cbcDec : Statement .cbcDec := by unfold Statement; decide

theorem modexp : Statement .modexp := by unfold Statement; decide

theorem hybEnc (isrc ksrc : Bool) : Statement (.hybEnc isrc ksrc) := by
  cases isrc <;> cases ksrc <;> (unfold Statement; decide)

theorem hybDec : Statement .hybDec := by unfold Statement; decide

theorem frameTx : Statement .frameTx := by unfold Statement; decide

theorem frameRx : Statement .frameRx := by unfold Statement; decide

theorem rawTx : Statement .rawTx := by unfold Statement; decide

theorem rawRx : Statement .rawRx := by unfold Statement; decide

end Sys2Proof.Laws.EncodedFields
end

