-- ==== Sys2Proof/Tests/Slice0.lean ====
section
/-! SUPPORT. Tests of single steps against the vectors of spec/95_test_vectors.md (the id of each in its comment), words written out
bit by bit from R110 and R113, and a witness for the hypotheses of every statement that has any. -/

open Sys2Proof Sys2Proof.Machine

set_option Elab.async false

namespace Sys2Proof.Tests

/-! ### Helpers -/

/-- The `n` bytes a hexadecimal number writes, the first digits first. -/
def hex (n x : Nat) : List Byte := (List.range n).map (fun i => BitVec.ofNat 8 (x >>> (8 * (n - 1 - i))))

/-- The key `k0` of the vectors. -/
def k0 : List Byte := hex 32 0x000102030405060708090a0b0c0d0e0f101112131415161718191a1b1c1d1e1f

/-- The key `k3` of the vectors. -/
def k3 : List Byte := hex 32 0x603deb1015ca71be2b73aef0857d77811f352c073b6108d72d9810a30914dff4

/-- The initialization vector `iv0` of the vectors. -/
def iv0 : List Byte := hex 16 0x000102030405060708090a0b0c0d0e0f

/-- Both streams open and empty, `n` bytes of room in TX, `q` the entropy source's ready answers. -/
def envWith (q : List EntropyAnswer) (rx : List Byte) (credit : Nat) : Env :=
  { Env.start with entropyQ := q, rxQ := rx, txCredit := credit }

/-- A core after reset with parameters, byte strings in its buffer (rising addresses) and an environment. -/
def idle (params : List Word) (buf : List (Nat × List Byte)) (e : Env) : State :=
  { State.reset with
    p := Vector.ofFn (fun i => params.getD i 0)
    buf := buf.flatMap (fun x => cellsAt x.1 x.2)
    env := e }

/-- That core right after issue of the word `w`. -/
def issued (w : Word) (params : List Word) (buf : List (Nat × List Byte)) (e : Env) : State := (idle params buf e).issue w

/-- That core with a stream command's progress. -/
def moving (w : Word) (params : List Word) (e : Env) (hdr : List Byte) (declared : Word) (doneBytes : Nat)
    (pending : List Byte) : State :=
  { issued w params [] e with
    progress := { checked := true, hdr := hdr, declared := declared, doneBytes := doneBytes, pending := pending } }

/-- The outcome is a next state of which `test` is true. -/
def nextIs (o : Result) (test : State → Bool) : Bool :=
  match o with
  | .next t => test t
  | .fault _ => false
  | .refused _ => false

/-- The outcome is the fault of an unwritten byte. -/
def faults (o : Result) : Bool :=
  match o with
  | .next _ => false
  | .fault .unwrittenByte => true
  | .refused _ => false

/-- `STATUS` and `R0` to `R2` of a state. -/
def shows (t : State) (status r0 r1 r2 : Word) : Bool :=
  t.status.word false == status && t.r[0] == r0 && t.r[1] == r1 && t.r[2] == r2

/-- The bytes at `a` of a state's buffer. -/
def holds (t : State) (a : Nat) (bs : List Byte) : Bool := t.buf.readBytes a bs.length == some bs

/-! ### Well-formedness: one ill-formed word for each check -/

theorem test_reserved_opcode_is_ill_formed :
    (CmdFields.mk 0x54 false false 0).wellFormed = false ∧ (CmdFields.mk 0x54 false false 0).opcOk = false := by decide

theorem test_reserved_bits_are_ill_formed :
    (CmdFields.mk 0x10 false false 0x200000).wellFormed = false ∧ (CmdFields.mk 0x10 false false 0x200000).rsvOk = false := by
  decide

theorem test_stray_isrc_is_ill_formed :
    (CmdFields.mk 0x29 true false 0).wellFormed = false ∧ (CmdFields.mk 0x29 true false 0).isrcOk = false := by decide

theorem test_stray_ksrc_is_ill_formed :
    (CmdFields.mk 0x28 false true 0).wellFormed = false ∧ (CmdFields.mk 0x28 false true 0).ksrcOk = false := by decide

/-- V-30-4 to V-30-9. -/
theorem test_illegal_words :
    decode 0x00000100 = .illegal .strayIsrc ∧ decode 0x00000228 = .illegal .strayKsrc ∧
    decode 0x00000129 = .illegal .strayIsrc ∧ decode 0x00000440 = .illegal .reservedBits ∧
    decode 0x80000010 = .illegal .reservedBits ∧
    [0x00000002, 0x00000011, 0x00000023, 0x0000002A, 0x00000031, 0x00000042, 0x00000054, 0x000000FF].all
      (fun w => decode w == .illegal .reservedOpcode) = true := by decide

/-! ### Decoding: `RSV`, `KSRC`, `ISRC`, `OPC` written out in binary from R110 and R113 -/

theorem test_decode_nop : decode 0b0000000000000000000000_0_0_00000000 = .command .nop := by decide

theorem test_decode_rngFill : decode 0b0000000000000000000000_0_0_00000001 = .command .rngFill := by decide

theorem test_decode_sha256 : decode 0b0000000000000000000000_0_0_00010000 = .command .sha256 := by decide

theorem test_decode_kexp : decode 0b0000000000000000000000_0_0_00100000 = .command .kexp := by decide

theorem test_decode_aesEnc : decode 0b0000000000000000000000_0_0_00100001 = .command .aesEnc := by decide

theorem test_decode_aesDec : decode 0b0000000000000000000000_0_0_00100010 = .command .aesDec := by decide

theorem test_decode_cbcEnc : decode 0b0000000000000000000000_0_0_00101000 = .command (.cbcEnc false) := by decide

theorem test_decode_cbcEnc_ivbuf : decode 0b0000000000000000000000_0_1_00101000 = .command (.cbcEnc true) := by decide

theorem test_decode_cbcDec : decode 0b0000000000000000000000_0_0_00101001 = .command .cbcDec := by decide

theorem test_decode_modexp : decode 0b0000000000000000000000_0_0_00110000 = .command .modexp := by decide

theorem test_decode_hybEnc : decode 0b0000000000000000000000_0_0_01000000 = .command (.hybEnc false false) := by decide

theorem test_decode_hybEnc_ivbuf : decode 0b0000000000000000000000_0_1_01000000 = .command (.hybEnc true false) := by decide

theorem test_decode_hybEnc_keybuf : decode 0b0000000000000000000000_1_0_01000000 = .command (.hybEnc false true) := by decide

theorem test_decode_hybEnc_keybuf_ivbuf : decode 0b0000000000000000000000_1_1_01000000 = .command (.hybEnc true true) := by decide

theorem test_decode_hybDec : decode 0b0000000000000000000000_0_0_01000001 = .command .hybDec := by decide

theorem test_decode_frameTx : decode 0b0000000000000000000000_0_0_01010000 = .command .frameTx := by decide

theorem test_decode_frameRx : decode 0b0000000000000000000000_0_0_01010001 = .command .frameRx := by decide

theorem test_decode_rawTx : decode 0b0000000000000000000000_0_0_01010010 = .command .rawTx := by decide

theorem test_decode_rawRx : decode 0b0000000000000000000000_0_0_01010011 = .command .rawRx := by decide

/-- V-30-2 and V-30-3 as a disassembler prints them (R118). -/
theorem test_disassembly :
    disassemble 0x00000128 = "CBC_ENC.ivbuf" ∧ disassemble 0x00000340 = "HYB_ENC.keybuf.ivbuf" ∧
    disassemble 0x80000010 = ".word 0x80000010" := by decide +kernel

/-! ### One step of each command -/

/-- V-46-1. -/
theorem test_nop_done : nextIs (step (issued 0x00 [] [] Env.start)) (fun t => shows t 0x00000002 0 0 0) = true := by
  decide +kernel

/-- V-30-10. -/
theorem test_illegal_word_ends_with_eillegal :
    nextIs (step (issued 0x00000100 [] [] Env.start)) (fun t => shows t 0x00000104 0 0 0 && t.cmd == 0x00000100) = true := by
  decide +kernel

def rngState (a : EntropyAnswer) : State := issued 0x01 [0x100, 32] [] (envWith [a] [] 0)

/-- V-46-3. -/
theorem test_rngFill_stores_the_draw :
    nextIs (step (rngState (.bytes k3))) (fun t => shows t 0x00000002 32 0 0 && holds t 0x100 k3) = true := by decide +kernel

/-- V-46-4. -/
theorem test_rngFill_failure :
    nextIs (step (rngState .fail)) (fun t => shows t 0x00000604 0 0 0 && t.buf == []) = true := by decide +kernel

def shaState (src n dst : Word) : State := issued 0x10 [src, n, dst] [(0, hex 3 0x616263)] Env.start

/-- V-40-13 (the digest of V-40-2, in place), and V-40-5, where the padding spills into a second block. -/
theorem test_sha256_digests :
    nextIs (step (shaState 0 3 0)) (fun t => shows t 0x00000002 32 0 0 &&
      holds t 0 (hex 32 0xba7816bf8f01cfea414140de5dae2223b00361a396177a9cb410ff61f20015ad)) = true ∧
    sha256 (List.replicate 56 0x61) = hex 32 0xb35439a4ac6f0948b6d6f9e3c6af0f5f590ce20f1bde7090ef7970686ec6738a := by
  decide +kernel

/-- V-40-11. -/
theorem test_sha256_bounds :
    nextIs (step (shaState 0 0 0xFFE1)) (fun t => shows t 0x00000404 0 0 0) = true := by decide +kernel

def kexpState (dst : Word) : State := issued 0x20 [0, dst] [(0, k3)] Env.start

/-- V-41-2 and V-41-9: words w08, w12, w13 and w59 of the schedule. -/
theorem test_kexp_schedule :
    nextIs (step (kexpState 0xFF10)) (fun t => shows t 0x00000002 240 0 0 && holds t 0xFF10 k3 &&
      holds t 0xFF30 (hex 4 0x9ba35411) && holds t 0xFF40 (hex 8 0xa8b09c1a93d194cd) &&
      holds t 0xFFFC (hex 4 0x706c631e)) = true := by decide +kernel

/-- V-41-10. -/
theorem test_kexp_bounds :
    nextIs (step (kexpState 0xFF11)) (fun t => shows t 0x00000404 0 0 0) = true := by decide +kernel

def aesState (w : Word) (x : List Byte) : State := issued w [0, 0x20, 0x20] [(0, k0), (0x20, x)] Env.start

def fipsPlain : List Byte := hex 16 0x00112233445566778899aabbccddeeff

def fipsCipher : List Byte := hex 16 0x8ea2b7ca516745bfeafc49904b496089

/-- V-41-6 (the block of V-41-1, in place). -/
theorem test_aesEnc_block :
    nextIs (step (aesState 0x21 fipsPlain)) (fun t => shows t 0x00000002 16 0 0 && holds t 0x20 fipsCipher) = true := by
  decide +kernel

/-- V-41-4. -/
theorem test_aesEnc_ones :
    aes256Enc (List.replicate 32 0xff) (List.replicate 16 0xff) = hex 16 0xd5f93d6d3311cb309f23621b02fbd5e2 := by decide +kernel

/-- V-41-1. -/
theorem test_aesDec_block :
    nextIs (step (aesState 0x22 fipsCipher)) (fun t => shows t 0x00000002 16 0 0 && holds t 0x20 fipsPlain) = true := by
  decide +kernel

/-- V-41-5. -/
theorem test_aesDec_ones :
    aes256Dec (List.replicate 32 0xff) (List.replicate 16 0) = hex 16 0x6c359ca558428b8d844e59cecfc9f3c4 := by decide +kernel

def cbcPlain : List Byte := hex 16 0x6bc1bee22e409f96e93d7e117393172a

def cbcCipher : List Byte := hex 32 0xf58c4c04d6e5f1ba779eabfb5f7bfbd6485a5c81519cf378fa36d42b8547edc0

def cbcEncState (w : Word) (q : List EntropyAnswer) : State :=
  issued w [0, 0x40, 16, 0xFFE0, 0x20] [(0, k3), (0x20, iv0), (0x40, cbcPlain)] (envWith q [] 0)

/-- V-42-3 (and the fitting destination of V-42-6). -/
theorem test_cbcEnc_ivbuf :
    nextIs (step (cbcEncState 0x128 [])) (fun t => shows t 0x00000002 32 0 0 && holds t 0xFFE0 cbcCipher) = true := by
  decide +kernel

/-- V-42-6, the drawn IV: it is stored at P4. -/
theorem test_cbcEnc_drawn :
    nextIs (step { cbcEncState 0x28 [.bytes iv0] with buf := cellsAt 0 k3 ++ cellsAt 0x40 cbcPlain })
      (fun t => shows t 0x00000002 32 0 0 && holds t 0xFFE0 cbcCipher && holds t 0x20 iv0) = true := by decide +kernel

def cbcDecState (len : Word) (y : List Byte) : State :=
  issued 0x29 [0, 0x40, len, 0x200, 0x20] [(0, k3), (0x20, iv0), (0x40, y)] Env.start

/-- V-42-3, and V-42-6: `ECTLEN` comes before the bounds. -/
theorem test_cbcDec_block :
    nextIs (step (cbcDecState 32 cbcCipher)) (fun t => shows t 0x00000002 16 16 0 && holds t 0x200 cbcPlain &&
      t.buf.read 0x210 == none) = true ∧
    nextIs (step (issued 0x29 [0xFFFF, 0, 15, 0, 0] [] Env.start)) (fun t => shows t 0x00000304 0 0 0) = true := by
  decide +kernel

/-- V-42-4, t = `11`, where there are more pad bytes than bytes, and t = `00`, where no byte is removed. -/
theorem test_cbcDec_pads :
    nextIs (step (cbcDecState 16 (hex 16 0x5592e44addb01a29952040502bb7ea3c)))
      (fun t => shows t 0x00000002 0 17 0 && t.buf.read 0x200 == none) = true ∧
    nextIs (step (cbcDecState 16 (hex 16 0xc9d937daaeada8cfd6efa07c993c40e1)))
      (fun t => shows t 0x00000002 16 0 0 && holds t 0x200 (hex 16 0x4142434445464748494a4b4c4d4e4f00)) = true := by
  decide +kernel

def modexpState (n : List Byte) (len : Word) : State :=
  issued 0x30 [0, 1, 1, 1, 2, len, 0x10] [(0, hex 2 0x4111 ++ n)] Env.start

/-- V-43-10: a modulus with a leading zero byte; the third destination byte is unchanged. -/
theorem test_modexp_power :
    nextIs (step (modexpState (hex 3 0x000ca1) 3)) (fun t => shows t 0x00000002 2 0 0 && holds t 0x10 (hex 2 0x0ae6) &&
      t.buf.read 0x12 == none) = true := by decide +kernel

/-- V-43-11. -/
theorem test_modexp_zero_modulus :
    nextIs (step (modexpState (hex 1 0) 1)) (fun t => shows t 0x00000504 0 0 0) = true := by decide +kernel

/-- The modulus of V-44-1. -/
def hybN : List Byte := hex 66
  0x0200000000000000000000000000000000000000000000000000000000000007cb700000000000000000000000000000000000000000000000000000000005262ee7

/-- The private exponent of V-44-1. -/
def hybD : List Byte := hex 65
  0x765f89a0765f89a0765f89a0765f89a0765f89a0765f89a0765f89a0765f8b6dc26e3d91c26e3d91c26e3d91c26e3d91c26e3d91c26e3d91c26e3d91c26f6e4301

/-- The wrapped key of V-44-1. -/
def hybWk : List Byte := hex 66
  0x019ada7a86b856ff66207dbef10d252939c16cd96db2e7a1aa1002d4d9808f170451e9f866f6a5ecd88953e797b3ed9875f4e405017be4632063b83b182ee56f7267

/-- The IV of V-44-1. -/
def hybIv : List Byte := hex 16 0xf0e0d0c0b0a090807060504030201000

/-- The ciphertext of V-44-1. -/
def hybCt : List Byte := hex 16 0xee06eeb7521e14b5cabd844fa7f0cb00

/-- The buffer layout of PROG-5. -/
def hybEncState (w : Word) (n : List Byte) (q : List EntropyAnswer) : State :=
  issued w [0x40, 5, 0x80, BitVec.ofNat 32 n.length, 0xD0, 3, 0x100, 0x140, 0x20, 0]
    [(0, k0), (0x20, hybIv), (0x40, hex 5 0x68656c6c6f), (0x80, n), (0xD0, hex 3 0x010001)] (envWith q [] 0)

/-- V-44-1. -/
theorem test_hybEnc_hello :
    nextIs (step (hybEncState 0x340 hybN [])) (fun t => shows t 0x00000002 16 66 0 && holds t 0x100 hybCt &&
      holds t 0x140 hybWk) = true := by decide +kernel

/-- V-44-2: the key draw succeeds, the IV draw fails. -/
theorem test_hybEnc_iv_draw_fails :
    nextIs (step (hybEncState 0x40 hybN [.bytes k0, .fail])) (fun t => shows t 0x00000604 0 0 0 &&
      t.buf.read 0x100 == none && t.env.entropyQ == []) = true := by decide +kernel

/-- The buffer layout of PROG-6. -/
def hybDecState (wk d : List Byte) : State :=
  issued 0x41 [0x100, 16, 0x140, BitVec.ofNat 32 wk.length, 0x20, 0x80, 66, 0x200, BitVec.ofNat 32 d.length, 0x300]
    [(0x20, hybIv), (0x80, hybN), (0x100, hybCt), (0x140, wk), (0x200, d)] Env.start

/-- V-44-1. -/
theorem test_hybDec_hello :
    nextIs (step (hybDecState hybWk hybD)) (fun t => shows t 0x00000002 5 11 0 && holds t 0x300 (hex 5 0x68656c6c6f) &&
      t.buf.read 0x305 == none) = true := by decide +kernel

/-- V-44-2, a wrapped key that is no key text, and V-44-3. -/
theorem test_hybDec_bad_key_text :
    nextIs (step (hybDecState (hex 1 0x01) hybD)) (fun t => shows t 0x00000704 0 0 0 && t.buf.read 0x300 == none) = true ∧
    keyParse (List.replicate 64 0x30) = some (List.replicate 32 0) ∧
    keyParse (hex 2 0x3041 ++ List.replicate 62 0x30) = none ∧ keyParse (List.replicate 63 0x30) = none ∧
    keyParse (List.replicate 65 0x30) = none := by decide +kernel

def hello : List Byte := hex 5 0x68656c6c6f

/-- V-45-1, the bounds-check step: header and payload stand ready, nothing has moved. -/
theorem test_frameTx_starts :
    nextIs (step (issued 0x50 [0, 5] [(0, hello)] Env.start)) (fun t => shows t 0x00000001 0 0 0 &&
      t.progress.pending == hex 9 0x0000000568656c6c6f && t.env.txLog == []) = true := by decide +kernel

/-- V-45-14, the close after six bytes. -/
theorem test_frameTx_closed :
    nextIs (step (moving 0x50 [0, 5] { Env.start with txLog := hex 6 0x000000056865, txClosed := true } (hex 4 5) 0 2
      (hex 3 0x6c6c6f))) (fun t => shows t 0x00000A04 2 5 6 && t.env.txLog == hex 6 0x000000056865) = true := by decide +kernel

/-- V-45-6, the fourth header byte: `EFRAMELEN`, the payload stays in `rx_q`. -/
theorem test_frameRx_too_long :
    nextIs (step (moving 0x51 [0x80, 4] (envWith [] (hex 6 0x050102030405) 0) [0, 0, 0] 0 0 []))
      (fun t => shows t 0x00000804 0 5 4 && t.env.rxQ == hex 5 0x0102030405) = true := by decide +kernel

/-- V-45-5, the last payload byte. -/
theorem test_frameRx_last_byte :
    nextIs (step (moving 0x51 [0x80, 3] (envWith [] (hex 2 0x4399) 0) (hex 4 3) 3 2 []))
      (fun t => shows t 0x00000002 3 3 7 && t.env.rxQ == hex 1 0x99 && holds t 0x82 (hex 1 0x43)) = true := by decide +kernel

/-- V-45-16, the last byte. -/
theorem test_rawTx_last_byte :
    nextIs (step (moving 0x52 [0, 2] { envWith [] [] 1 with txLog := [0xde] } [] 0 1 [0xad]))
      (fun t => shows t 0x00000002 2 2 2 && t.env.txLog == hex 2 0xdead) = true := by decide +kernel

/-- V-45-17: no bytes, even on a closed stream. -/
theorem test_rawTx_empty :
    nextIs (step (issued 0x52 [0, 0] [] { Env.start with txClosed := true })) (fun t => shows t 0x00000002 0 0 0) = true := by
  decide +kernel

/-- V-45-20, the last byte: it is taken although the stream is closed. -/
theorem test_rawRx_last_byte :
    nextIs (step (moving 0x53 [0x80, 3] { envWith [] (hex 2 0x0304) 0 with rxClosed := true } [] 0 2 []))
      (fun t => shows t 0x00000002 3 3 3 && t.env.rxQ == hex 1 4 && holds t 0x82 (hex 1 3)) = true := by decide +kernel

/-- PROG-7, the abort of a waiting read. -/
theorem test_rawRx_aborted :
    nextIs (step { moving 0x53 [0x80, 4] Env.start [] 0 0 [] with abortPending := true })
      (fun t => shows t 0x00000008 0 4 0) = true := by decide +kernel

/-! ### One access of the host -/

/-- What the host sees of an access. -/
def sees (o : Result) (a : BusAnswer) : Bool := nextIs o (fun t => t.host.bus == a)

/-- V-10-1 to V-10-3, V-20-3 and V-20-5. -/
theorem test_register_map :
    sees (hostAccess State.reset (readAt 0x000)) (.data 0x53460100) = true ∧
    sees (hostAccess State.reset (readAt 0x020)) (.data 0x00010000) = true ∧
    sees (hostAccess State.reset (readAt 0x024)) (.data 0x00000200) = true ∧
    sees (hostAccess State.reset (readAt 0x0FFFC)) (.data 0) = true ∧
    sees (hostAccess State.reset (readAt 0x002)) .busError = true ∧
    sees (hostAccess State.reset { readAt 0x000 with size := 2 }) .busError = true ∧
    sees (hostAccess State.reset (readAt 0x20000)) .busError = true := by decide +kernel

/-- V-20-1, V-20-2 and V-20-4. -/
theorem test_buffer_window :
    nextIs (hostAccess State.reset (writeAt 0x10000 0x33221100)) (fun t => holds t 0 (hex 4 0x00112233)) = true ∧
    sees (hostAccess (idle [] [(0, hex 4 0x00112233)] Env.start) (readAt 0x10000)) (.data 0x33221100) = true ∧
    faults (hostAccess State.reset (readAt 0x10004)) = true := by decide +kernel

/-- A RAW_RX that waits (V-60-1 to V-60-4). -/
def waiting : State := moving 0x53 [0x80, 4] Env.start [] 0 0 []

/-- V-60-1 to V-60-4. -/
theorem test_locked_while_busy :
    nextIs (hostAccess waiting (writeAt 0x008 0)) (fun t => t.status.ovr && t.cmd == 0x53) = true ∧
    nextIs (hostAccess waiting (writeAt 0x040 5)) (fun t => t.status.haz && t.p[0] == 0x80) = true ∧
    nextIs (hostAccess waiting (readAt 0x10000)) (fun t => t.status.haz && t.host.bus == .data 0) = true ∧
    nextIs (hostAccess waiting (readAt 0x040)) (fun t => !t.status.haz && t.host.bus == .data 0x80) = true := by
  decide +kernel

/-- V-60-8: `ERRCODE` stays. -/
theorem test_status_write_one_to_clear :
    nextIs (hostAccess { State.reset with status := { Status.zero with err := true, errCode := 4 } } (writeAt 0x00C 0x4))
      (fun t => shows t 0x00000400 0 0 0) = true := by decide +kernel

/-- V-70-1 and V-70-2. -/
theorem test_soft_reset :
    nextIs (hostAccess waiting (writeAt 0x004 0x5)) (fun t => shows t 0 0 0 0 && t.phase == .idle && t.cmd == 0 &&
      !t.irqEn && t.p[0] == 0) = true := by decide +kernel

/-! ### Witnesses: states and operands that meet the hypotheses of the statements -/

/-- After a draw the source's first answer is gone. -/
def drawn (e : Env) : Env := { e with entropyQ := e.entropyQ.tail, draws := e.draws + 1 }

theorem witness_LegalWordsFollowTheFlagTable :
    (∃ row ∈ opcodeTable, (0x00000340#32) &&& row.2.1 = row.1) ∧ (∃ row ∈ opcodeTable, (0#32) &&& row.2.1 = row.1) := by
  decide +kernel

/-- Each reason, at the ends of its field. -/
theorem witness_IllegalWordsCompleteWithEillegal :
    State.reset.rst = false ∧ State.reset.status.busy = false ∧ decode 0x000000FF = .illegal .reservedOpcode ∧
    decode 0x00000400 = .illegal .reservedBits ∧ decode 0x80000000 = .illegal .reservedBits ∧
    decode 0x00000100 = .illegal .strayIsrc ∧ decode 0x00000200 = .illegal .strayKsrc := by decide

theorem witness_StepRunsTheDecodedCommand :
    waiting.rst = false ∧ waiting.phase = .run (.command .rawRx) ∧ waiting.script = [] ∧
    ({ waiting with script := [.engine, .rxClose] }).script = .engine :: [.rxClose] ∧ State.reset.rst = false ∧
    State.reset.status.busy = false ∧ decode 0x00000053 = .command .rawRx ∧ decodeTableWord 32 0x53 = some .rawRx ∧
    decodeTableWord 8 0x53 = some .rawRx := by decide +kernel

theorem reset_hasResetValues : State.reset.HasResetValues := by
  refine ⟨rfl, rfl, rfl, by decide, by decide, fun a => rfl, rfl, rfl, rfl, rfl, rfl, rfl⟩

theorem witness_ResetLeavesTheResetValues :
    waiting.rst = false ∧ (0x4#32).getLsbD 2 = true ∧ (0x5#32).getLsbD 2 = true ∧ State.reset.HasResetValues :=
  ⟨by decide +kernel, by decide, by decide, reset_hasResetValues⟩

/-- A waiting RAW_RX meets the invariant. -/
theorem waiting_inv : waiting.Inv := by
  refine ⟨by decide +kernel, ⟨by decide +kernel, by decide +kernel⟩, by decide +kernel, by decide +kernel, by decide +kernel,
    by decide +kernel, by decide +kernel, by decide +kernel, by decide +kernel⟩

theorem witness_StepKeepsInvariant : waiting.Inv ∧ waiting.buf.wf ∧ step waiting = .next waiting.held :=
  ⟨waiting_inv, by decide +kernel, rfl⟩

/-- The reserved offsets at the ends of both ranges, two parameter registers, and an idle state. -/
theorem witness_RegisterReadsFollowTheMap :
    State.reset.rst = false ∧ State.reset.streamRunning = false ∧ State.reset.status.busy = false ∧
    (15 : Fin 16) ≠ 0 ∧
    ∀ o ∈ [0x028, 0x03C, 0x080, 0xFFFC], o % 4 = 0 ∧ ((0x028 ≤ o ∧ o < 0x040) ∨ (0x080 ≤ o ∧ o < 0x10000)) := by decide

/-- A refused size, a refused place, the first offset past the window, the last in it, and a reserved one. -/
theorem witness_MisalignedAccessIsABusError :
    State.reset.rst = false ∧ ({ readAt 0 with size := 2 }).size ≠ 4 ∧ (readAt 0x002).offset % 4 ≠ 0 ∧
    0x20000 ≤ (readAt 0x20000).offset ∧
    ((readAt 0x1FFFC).size = 4 ∧ (readAt 0x1FFFC).offset % 4 = 0 ∧ (readAt 0x1FFFC).offset < 0x20000) ∧
    regAt State.reset.cfg.bufBytes (readAt 0x028).offset = none := by decide +kernel

/-- A core with the smallest buffer. -/
def smallIdle : State := { idle [] [(0, hello ++ hello)] Env.start with cfg := { bufBytes := 1024, nmaxBytes := 65 } }

/-- The first and the last word of the buffer, a word with a value and one without, and the first and last offsets past it. -/
theorem witness_BufferWindowLanes :
    smallIdle.rst = false ∧ smallIdle.CfgOk ∧ smallIdle.status.busy = false ∧ 0 + 4 ≤ smallIdle.cfg.bufBytes ∧
    1020 + 4 ≤ smallIdle.cfg.bufBytes ∧ smallIdle.buf.readBytes 0 4 = some [0x68, 0x65, 0x6c, 0x6c] ∧
    smallIdle.buf.readBytes 1020 4 = none ∧ smallIdle.cfg.bufBytes ≤ 1024 ∧ smallIdle.cfg.bufBytes ≤ 0xFFFC ∧
    1020 % 4 = 0 ∧ 0xFFFC % 4 = 0 := by decide +kernel

theorem witness_LockedWhileBusy :
    waiting.rst = false ∧ waiting.CfgOk ∧ waiting.status.busy = true ∧ 0 + 4 ≤ waiting.cfg.bufBytes ∧
    65532 + 4 ≤ waiting.cfg.bufBytes := by decide +kernel

/-- A write of `P0` and a read of `CTRL` while a command runs. -/
theorem witness_HostCannotDisturbARunningCommand :
    waiting.status.busy = true ∧ ¬ ((writeAt 0x040 5).write = true ∧ (writeAt 0x040 5).offset = 0x004) ∧
    ¬ ((readAt 0x004).write = true ∧ (readAt 0x004).offset = 0x004) ∧
    hostAccess waiting (writeAt 0x040 5) = .next (waiting.markHaz.answer .ok) ∧
    ∃ t, hostAccess waiting (readAt 0x004) = .next t :=
  ⟨by decide +kernel, by decide, by decide, rfl, _, rfl⟩

theorem witness_StatusWriteOneToClear :
    waiting.rst = false ∧ waiting.streamRunning = true ∧ State.reset.rst = false ∧ State.reset.streamRunning = false := by
  decide +kernel

theorem witness_IssueStartsACommand :
    State.reset.rst = false ∧ State.reset.status.busy = false ∧ waiting.rst = false ∧ waiting.status.busy = true := by
  decide +kernel

theorem witness_ControlWrites :
    waiting.rst = false ∧ waiting.streamRunning = true ∧ (0x2#32).getLsbD 1 = true ∧ (0x2#32).getLsbD 2 = false ∧
    (0x1#32).getLsbD 1 = false ∧ (0x4#32).getLsbD 2 = true ∧ State.reset.streamRunning = false := by decide +kernel

theorem witness_InterruptLevel :
    State.reset.rst = false ∧ State.reset.status.busy = false ∧ (0#32).getLsbD 0 = false ∧
    (∃ t, hostAccess State.reset (writeAt 0x00C 0x3E) = .next t) ∧ (∃ t, hostAccess State.reset (writeAt 0x004 0) = .next t) ∧
    (∃ t, hostAccess State.reset (writeAt 0x008 0) = .next t) :=
  ⟨rfl, rfl, rfl, ⟨_, rfl⟩, ⟨_, rfl⟩, ⟨_, rfl⟩⟩

theorem witness_ReadsHaveNoSideEffect :
    State.reset.PhaseOk ∧ State.reset.status.busy = false ∧ (readAt 0x00C).write = false ∧
    ∃ t, hostAccess State.reset (readAt 0x00C) = .next t :=
  ⟨by decide, rfl, rfl, _, rfl⟩

/-- A host whose next line is `op`. -/
def atLine (op : HostOp) : State := { State.reset with host := { HostAgent.start with prog := [op] } }

/-- Each kind of line, with the answer of its access; `BNE` on `ID`, whose value differs from 0 under the full mask; sixteen values
of a `RUN`, a last partial group of a `WB`, and a label with a `BNE` to it after and before. -/
theorem witness_HostProgramsRunLineByLine :
    State.reset.host.prog[State.reset.host.line]? = none ∧
    ((atLine (.write .ctrl 1)).host.prog[(atLine (.write .ctrl 1)).host.line]? = some (.write .ctrl 1) ∧
      ∃ u, hostAccess (atLine (.write .ctrl 1)) (writeAt Reg.ctrl.offset 1) = .next u) ∧
    ((atLine (.read .id)).host.prog[(atLine (.read .id)).host.line]? = some (.read .id) ∧
      ∃ u, hostAccess (atLine (.read .id)) (readAt Reg.id.offset) = .next u ∧ u.host.bus = .data 0x53460100) ∧
    ((atLine (.bne .id 0xFFFFFFFF 0 7)).host.prog[(atLine (.bne .id 0xFFFFFFFF 0 7)).host.line]? =
        some (.bne .id 0xFFFFFFFF 0 7) ∧
      ∃ u, hostAccess (atLine (.bne .id 0xFFFFFFFF 0 7)) (readAt Reg.id.offset) = .next u ∧ u.host.bus = .data 0x53460100) ∧
    (List.replicate 16 (0 : Word)).length ≤ 16 ∧ 1 < (hello.length + 3) / 4 ∧
    (Stmt.label 1 ∉ [Stmt.wait] ∧
      [Stmt.wait] ++ .label 1 :: [.bne .status 0 1 1] = [.wait, .label 1] ++ .bne .status 0 1 1 :: []) ∧
    (Stmt.label 9 ∉ [Stmt.bne .status 6 2 9] ∧
      [Stmt.bne .status 6 2 9] ++ .label 9 :: [] = [] ++ .bne .status 6 2 9 :: [.label 9]) :=
  ⟨rfl, ⟨rfl, _, rfl⟩, ⟨rfl, _, rfl, rfl⟩, ⟨rfl, _, rfl, rfl⟩, by decide, by decide, by decide, by decide⟩

theorem witness_ResetInputHoldsTheCore : waiting.rstAsserted.rst = true := rfl

theorem witness_EntropyAnswersEveryDraw :
    (envWith [.bytes k3] [] 0).draw 32 = (some k3, drawn (envWith [.bytes k3] [] 0)) ∧
    (envWith [.bytes k3] [] 0).entropyQ = .bytes k3 :: [] ∧ k3 ≠ [] ∧ (envWith [.fail] [] 0).entropyQ = .fail :: [] := by
  decide +kernel

theorem witness_RngFillStoresTheDraw :
    (rngState (.bytes k3)).RegionsOk .rngFill ∧
    (rngState (.bytes k3)).env.draw ((rngState (.bytes k3)).param 1) = (some k3, drawn (rngState (.bytes k3)).env) := by
  unfold State.RegionsOk; decide +kernel

theorem witness_Sha256StoresTheDigest :
    (shaState 0 3 0xFFE0).RegionsOk .sha256 ∧
    (shaState 0 3 0xFFE0).buf.readBytes ((shaState 0 3 0xFFE0).param 0) ((shaState 0 3 0xFFE0).param 1) =
      some (hex 3 0x616263) := by
  unfold State.RegionsOk; decide +kernel

theorem witness_KexpStoresTheSchedule :
    (kexpState 0xFF10).RegionsOk .kexp ∧ (kexpState 0xFF10).buf.readBytes ((kexpState 0xFF10).param 0) 32 = some k3 := by
  unfold State.RegionsOk; decide +kernel

theorem witness_AesCommandsStoreTheBlock :
    (aesState 0x21 fipsPlain).RegionsOk .aesEnc ∧
    (aesState 0x21 fipsPlain).buf.readBytes ((aesState 0x21 fipsPlain).param 0) 32 = some k0 ∧
    (aesState 0x21 fipsPlain).buf.readBytes ((aesState 0x21 fipsPlain).param 1) 16 = some fipsPlain := by
  unfold State.RegionsOk; decide +kernel

/-- Both forms: the IV given, and the IV drawn. -/
theorem witness_CbcEncStoresTheCiphertext :
    (cbcEncState 0x28 [.bytes iv0]).RegionsOk (.cbcEnc true) ∧
    (cbcEncState 0x28 [.bytes iv0]).buf.readBytes ((cbcEncState 0x28 [.bytes iv0]).param 0) 32 = some k3 ∧
    (cbcEncState 0x28 [.bytes iv0]).buf.readBytes ((cbcEncState 0x28 [.bytes iv0]).param 1)
      ((cbcEncState 0x28 [.bytes iv0]).param 2) = some cbcPlain ∧
    (cbcEncState 0x28 [.bytes iv0]).buf.readBytes ((cbcEncState 0x28 [.bytes iv0]).param 4) 16 = some iv0 ∧
    (cbcEncState 0x28 [.bytes iv0]).env.draw 16 = (some iv0, drawn (cbcEncState 0x28 [.bytes iv0]).env) := by
  unfold State.RegionsOk; decide +kernel

theorem witness_CbcDecStoresThePlaintext :
    (cbcDecState 32 cbcCipher).CtLenOk .cbcDec ∧ (cbcDecState 32 cbcCipher).RegionsOk .cbcDec ∧
    (cbcDecState 32 cbcCipher).buf.readBytes ((cbcDecState 32 cbcCipher).param 0) 32 = some k3 ∧
    (cbcDecState 32 cbcCipher).buf.readBytes ((cbcDecState 32 cbcCipher).param 1) ((cbcDecState 32 cbcCipher).param 2) =
      some cbcCipher ∧
    (cbcDecState 32 cbcCipher).buf.readBytes ((cbcDecState 32 cbcCipher).param 4) 16 = some iv0 := by
  unfold State.CtLenOk State.RegionsOk; decide +kernel

/-- The hypotheses on a MODEXP state with modulus bytes `n`. -/
def ModexpReads (s : State) (n : List Byte) : Prop :=
  s.LensOk .modexp ∧ s.RegionsOk .modexp ∧ s.buf.readBytes (s.param 0) (s.param 1) = some (hex 1 0x41) ∧
  s.buf.readBytes (s.param 2) (s.param 3) = some (hex 1 0x11) ∧ s.buf.readBytes (s.param 4) (s.param 5) = some n

theorem witness_ModexpStoresThePower :
    ModexpReads (modexpState (hex 2 0x0ca1) 2) (hex 2 0x0ca1) ∧ beInt (hex 2 0x0ca1) ≠ 0 := by
  unfold ModexpReads State.LensOk State.RegionsOk; decide +kernel

/-- The hypotheses on a HYB_ENC state with modulus bytes `n`, all four inputs in the buffer. -/
def HybEncReads (s : State) (isrc ksrc : Bool) (n : List Byte) : Prop :=
  s.LensOk (.hybEnc isrc ksrc) ∧ s.RegionsOk (.hybEnc isrc ksrc) ∧ s.buf.readBytes (s.param 0) (s.param 1) = some hello ∧
  s.buf.readBytes (s.param 2) (s.param 3) = some n ∧ s.buf.readBytes (s.param 4) (s.param 5) = some (hex 3 0x010001) ∧
  s.buf.readBytes (s.param 8) 16 = some hybIv ∧ s.buf.readBytes (s.param 9) 32 = some k0

/-- All four forms: key and IV in the buffer, and ready at the entropy source. -/
theorem witness_HybEncStoresTheTriple :
    (∀ isrc ksrc, HybEncReads (hybEncState 0x340 hybN [.bytes k0, .bytes hybIv]) isrc ksrc hybN) ∧ beInt hybN ≠ 0 ∧
    (envWith [.bytes k0, .bytes hybIv] [] 0).draw 32 = (some k0, drawn (envWith [.bytes k0, .bytes hybIv] [] 0)) ∧
    (drawn (envWith [.bytes k0, .bytes hybIv] [] 0)).draw 16 =
      (some hybIv, drawn (drawn (envWith [.bytes k0, .bytes hybIv] [] 0))) ∧
    (envWith [.bytes hybIv] [] 0).draw 16 = (some hybIv, drawn (envWith [.bytes hybIv] [] 0)) := by
  unfold HybEncReads State.LensOk State.RegionsOk; decide +kernel

/-- The hypotheses on a HYB_DEC state with wrapped key `c`. -/
def HybDecReads (s : State) (c n : List Byte) : Prop :=
  s.LensOk .hybDec ∧ s.CtLenOk .hybDec ∧ s.RegionsOk .hybDec ∧ s.buf.readBytes (s.param 0) (s.param 1) = some hybCt ∧
  s.buf.readBytes (s.param 2) (s.param 3) = some c ∧ s.buf.readBytes (s.param 4) 16 = some hybIv ∧
  s.buf.readBytes (s.param 5) (s.param 6) = some n ∧ s.buf.readBytes (s.param 7) (s.param 8) = some (hex 1 0x01)

/-- With d = 1 and the key text itself as wrapped key the power is the key text, written out for the key of zeros. -/
def zeroText : List Byte := List.replicate 64 0x30

theorem witness_HybDecStoresThePlaintext :
    HybDecReads (hybDecState zeroText (hex 1 0x01)) zeroText hybN ∧ beInt hybN ≠ 0 ∧
    keyParse (beMin (beInt zeroText ^ beInt (hex 1 0x01) % beInt hybN)) = some (List.replicate 32 0) := by
  unfold HybDecReads State.LensOk State.CtLenOk State.RegionsOk; decide +kernel

theorem witness_BadKeyTextIsEkeydec :
    HybDecReads (hybDecState (hex 1 0x01) (hex 1 0x01)) (hex 1 0x01) hybN ∧ beInt hybN ≠ 0 ∧
    keyParse (beMin (beInt (hex 1 0x01) ^ beInt (hex 1 0x01) % beInt hybN)) = none := by
  unfold HybDecReads State.LensOk State.CtLenOk State.RegionsOk; decide +kernel

/-- A KEXP whose key lacks its last byte. -/
def shortKey : State := issued 0x20 [0, 0x20] [(0, List.replicate 31 0)] Env.start

/-- One byte past the buffer; and one byte of an input without a value, with lengths and bounds in order. -/
theorem witness_RegionOutsideTheBufferIsEbounds :
    ((kexpState 0xFF11).progress.checked = false ∧ (kexpState 0xFF11).LensOk .kexp ∧ (kexpState 0xFF11).CtLenOk .kexp ∧
      ¬ (kexpState 0xFF11).RegionsOk .kexp) ∧
    ((Instr.kexp.isStream = true → shortKey.progress.checked = false) ∧ shortKey.LensOk .kexp ∧ shortKey.CtLenOk .kexp ∧
      shortKey.RegionsOk .kexp ∧ shortKey.InputUnwritten .kexp) := by
  unfold State.LensOk State.CtLenOk State.RegionsOk
  refine ⟨?_, ?_, ?_, ?_, ?_, (0, 32), ?_, 31, ?_⟩ <;> decide +kernel

/-- An operand of 513 bytes; a ciphertext of none and of 15 bytes. -/
theorem witness_LengthErrorsComeFirst :
    ¬ (modexpState [] 513).LensOk .modexp ∧ (cbcDecState 0 []).LensOk .cbcDec ∧ ¬ (cbcDecState 0 []).CtLenOk .cbcDec ∧
    ¬ (cbcDecState 15 []).CtLenOk .cbcDec := by
  unfold State.LensOk State.CtLenOk; decide +kernel

/-- Modulus bytes that are all zero, for each of the three commands. -/
theorem witness_ZeroModulusIsEmodzero :
    ModexpReads (modexpState (hex 1 0) 1) (hex 1 0) ∧ beInt (hex 1 0) = 0 ∧
    (∀ isrc ksrc, HybEncReads (hybEncState 0x340 (hex 1 0) []) isrc ksrc (hex 1 0)) ∧
    HybDecReads { hybDecState zeroText (hex 1 0x01) with
      buf := cellsAt 0x20 hybIv ++ cellsAt 0x80 (List.replicate 66 0) ++ cellsAt 0x100 hybCt ++ cellsAt 0x140 zeroText ++
        cellsAt 0x200 (hex 1 0x01) } zeroText (List.replicate 66 0) ∧ beInt (List.replicate 66 0) = 0 := by
  unfold ModexpReads HybEncReads HybDecReads State.LensOk State.CtLenOk State.RegionsOk; decide +kernel

/-- Every form that draws: RNG_FILL, CBC_ENC, the key draw of HYB_ENC with its IV drawn and read, and the IV draw with its key drawn
and read. -/
theorem witness_FailedDrawIsErng :
    ((rngState .fail).RegionsOk .rngFill ∧
      (rngState .fail).env.draw ((rngState .fail).param 1) = (none, drawn (rngState .fail).env)) ∧
    ((cbcEncState 0x28 [.fail]).RegionsOk (.cbcEnc false) ∧
      (cbcEncState 0x28 [.fail]).buf.readBytes ((cbcEncState 0x28 [.fail]).param 0) 32 = some k3 ∧
      (cbcEncState 0x28 [.fail]).buf.readBytes ((cbcEncState 0x28 [.fail]).param 1) ((cbcEncState 0x28 [.fail]).param 2) =
        some cbcPlain ∧
      (cbcEncState 0x28 [.fail]).env.draw 16 = (none, drawn (cbcEncState 0x28 [.fail]).env)) ∧
    ((∀ isrc, HybEncReads (hybEncState 0x40 hybN [.fail]) isrc false hybN) ∧
      (hybEncState 0x40 hybN [.fail]).env.draw 32 = (none, drawn (hybEncState 0x40 hybN [.fail]).env)) ∧
    (HybEncReads (hybEncState 0x240 hybN [.fail]) false true hybN ∧
      (hybEncState 0x240 hybN [.fail]).env.draw 16 = (none, drawn (hybEncState 0x240 hybN [.fail]).env)) ∧
    (HybEncReads (hybEncState 0x40 hybN [.bytes k0, .fail]) false false hybN ∧ beInt hybN ≠ 0 ∧
      (hybEncState 0x40 hybN [.bytes k0, .fail]).env.draw 32 =
        (some k0, drawn (hybEncState 0x40 hybN [.bytes k0, .fail]).env) ∧
      (drawn (hybEncState 0x40 hybN [.bytes k0, .fail]).env).draw 16 =
        (none, drawn (drawn (hybEncState 0x40 hybN [.bytes k0, .fail]).env))) := by
  unfold HybEncReads State.LensOk State.RegionsOk
  refine ⟨?_, ?_, ?_, ?_, ?_⟩ <;> decide +kernel

/-- SHA256 with a destination past the buffer. -/
theorem witness_ComputeErrorsArePrecise :
    Instr.sha256.isStream = false ∧ exec .sha256 (shaState 0 0 0xFFE1) = .next ((shaState 0 0 0xFFE1).raise .ebounds) ∧
    (shaState 0 0 0xFFE1).status.err = false ∧ ((shaState 0 0 0xFFE1).raise .ebounds).status.err = true ∧
    (shaState 0 0 0xFFE1).ResultsOk ∧ (shaState 0 0 0xFFE1).status.busy = true :=
  ⟨rfl, rfl, rfl, rfl, by decide +kernel, rfl⟩

/-- The same, and a stream command whose stream is closed. -/
theorem witness_OnlyListedErrorsAreRaised :
    (exec .sha256 (shaState 0 0 0xFFE1) = .next ((shaState 0 0 0xFFE1).raise .ebounds) ∧
      (shaState 0 0 0xFFE1).status.err = false ∧ ((shaState 0 0 0xFFE1).raise .ebounds).status.err = true) ∧
    nextIs (exec .rawRx (moving 0x53 [0x80, 3] { Env.start with rxClosed := true } [] 0 2 [])) (fun t => t.status.err) =
      true := ⟨⟨rfl, rfl, rfl⟩, by decide +kernel⟩

theorem witness_ComputeCommandsEndInOneStep :
    Instr.nop.isStream = false ∧ exec .nop (issued 0 [] [] Env.start) = .next (issued 0 [] [] Env.start).finish ∧
    (issued 0 [] [] Env.start).status.done = false ∧ (issued 0 [] [] Env.start).status.err = false ∧
    (issued 0 [] [] Env.start).status.cancelled = false := ⟨rfl, rfl, rfl, rfl, rfl⟩

theorem witness_CommandsLeaveTheHostSideAlone :
    exec .nop (issued 0 [] [] Env.start) = .next (issued 0 [] [] Env.start).finish := rfl

/-- RAW_RX takes a byte, and RAW_TX sends one. -/
theorem witness_StreamsMoveOnlyByTheirCommands :
    nextIs (exec .rawRx (moving 0x53 [0x80, 4] (envWith [] [7] 0) [] 0 0 [])) (fun t => t.env.rxQ == []) = true ∧
    nextIs (exec .rawTx (moving 0x52 [0, 2] (envWith [] [] 2) [] 0 0 [1, 2])) (fun t => t.env.txLog == [1]) = true := by
  decide +kernel

/-- A core whose streams are both closed. -/
def closedCore : State :=
  { issued 0 [] [] { Env.start with rxQ := [1, 2], rxClosed := true, txLog := [3], txClosed := true } with
    script := [.rxByte 5] }

theorem witness_ClosedStreamsStayClosed :
    (∃ t, step closedCore = .next t) ∧ closedCore.env.rxClosed = true ∧ closedCore.env.txClosed = true :=
  ⟨⟨_, rfl⟩, rfl, rfl⟩

theorem witness_KeyStorageHasNoEffect : Instr.aesEnc.isStream = false := rfl

theorem witness_CommandsReadOnlyTheSnapshot :
    exec .nop (issued 0 [] [] Env.start) = .next (issued 0 [] [] Env.start).finish := rfl

/-- A payload of five bytes and of none; the region ends where the buffer does. -/
def startState (n : Word) : State := issued 0x50 [0xFFFB, n] [(0xFFFB, hello)] Env.start

theorem witness_StreamCommandsStart :
    (startState 5).progress.checked = false ∧ (startState 5).RegionsOk .frameTx ∧
    (startState 5).buf.readBytes ((startState 5).param 0) ((startState 5).param 1) = some hello ∧ (startState 5).param 1 ≠ 0 ∧
    (startState 0).progress.checked = false ∧ (startState 0).RegionsOk .frameTx ∧
    (startState 0).buf.readBytes ((startState 0).param 0) ((startState 0).param 1) = some [] ∧ (startState 0).param 1 = 0 := by
  unfold State.RegionsOk; decide +kernel

/-- A transmit command with room for its bytes: the header's last byte, the payload's first and its last. -/
def sending (hdr : List Byte) (doneBytes : Nat) (pending : List Byte) : State :=
  moving 0x50 [0, 5] (envWith [] [] 1) hdr 0 doneBytes pending

theorem witness_TransmitStepSendsOneByte :
    ((sending (hex 3 0) 0 (5 :: hello)).progress.checked = true ∧
      (sending (hex 3 0) 0 (5 :: hello)).progress.pending = 5 :: hello ∧ (sending (hex 3 0) 0 (5 :: hello)).hdrGot < 4 ∧
      hello ≠ []) ∧
    (sending (hex 4 5) 4 [0x6f]).progress.pending = 0x6f :: [] ∧ ¬ (sending (hex 4 5) 4 [0x6f]).hdrGot < 4 ∧
    (sending (hex 4 5) 4 [0x6f]).abortPending = false ∧ (sending (hex 4 5) 4 [0x6f]).env.txClosed = false ∧
    (sending (hex 4 5) 4 [0x6f]).env.txCredit = 0 + 1 := by decide +kernel

/-- A receive command with a byte ready. -/
def receiving (w : Word) (hdr : List Byte) (declared : Word) (doneBytes : Nat) : State :=
  moving w [0x80, 3] (envWith [] [0x43, 0x99] 0) hdr declared doneBytes []

/-- FRAME_RX and RAW_RX, each before its last byte and at it. -/
theorem witness_ReceiveStepStoresOneByte :
    (receiving 0x51 (hex 4 3) 3 2).progress.checked = true ∧ (receiving 0x51 (hex 4 3) 3 2).abortPending = false ∧
    (receiving 0x51 (hex 4 3) 3 2).env.rxQ = 0x43 :: [0x99] ∧
    ((receiving 0x51 (hex 4 3) 3 2).hdrGot = 4 ∧ 2 < (receiving 0x51 (hex 4 3) 3 2).progress.declared.toNat ∧
      2 + 1 = (receiving 0x51 (hex 4 3) 3 2).progress.declared.toNat) ∧
    ((receiving 0x51 (hex 4 3) 3 1).hdrGot = 4 ∧ 1 + 1 < (receiving 0x51 (hex 4 3) 3 1).progress.declared.toNat) ∧
    ((receiving 0x53 [] 0 2).hdrGot = 0 ∧ 2 + 1 = (receiving 0x53 [] 0 2).param 1) ∧
    ((receiving 0x53 [] 0 1).hdrGot = 0 ∧ 1 + 1 < (receiving 0x53 [] 0 1).param 1) := by decide +kernel

/-- The third header byte; the fourth with a length above the capacity 3, of none, and at the capacity. -/
theorem witness_HeaderStepReadsTheLength :
    (receiving 0x51 (hex 2 0) 0 0).progress.checked = true ∧ (receiving 0x51 (hex 2 0) 0 0).abortPending = false ∧
    (receiving 0x51 (hex 2 0) 0 0).env.rxQ = 0x43 :: [0x99] ∧ (receiving 0x51 (hex 2 0) 0 0).hdrGot < 3 ∧
    (receiving 0x51 (hex 3 0) 0 0).hdrGot = 3 ∧ (receiving 0x51 (hex 3 0) 0 0).param 1 < beInt (hex 3 0 ++ [0x04]) ∧
    beInt (hex 3 0 ++ [0x00]) = 0 ∧ 0 < beInt (hex 3 0 ++ [0x03]) ∧
    beInt (hex 3 0 ++ [0x03]) ≤ (receiving 0x51 (hex 3 0) 0 0).param 1 := by decide +kernel

/-- A byte is there to send and one to receive; in the header and past it. -/
theorem witness_AbortCancelsAtAByteBoundary :
    ({ sending (hex 3 0) 0 hello with abortPending := true }).progress.checked = true ∧
    ({ sending (hex 3 0) 0 hello with abortPending := true }).abortPending = true ∧
    ({ sending (hex 3 0) 0 hello with abortPending := true }).progress.pending ≠ [] ∧
    (receiving 0x51 (hex 3 0) 0 0).hdrGot < 4 ∧ (receiving 0x51 (hex 4 3) 3 1).hdrGot = 4 ∧
    (receiving 0x53 [] 0 1).hdrGot = 0 := by decide +kernel

/-- A transmit command on a closed stream, and below it a receive command on a closed and empty one. -/
def closedTx : State := moving 0x50 [0, 5] { Env.start with txClosed := true } (hex 4 5) 0 0 hello

def closedRx : State := moving 0x51 [0x80, 3] { Env.start with rxClosed := true } (hex 3 0) 0 0 []

theorem witness_ClosedStreamFailsTheCommand :
    (closedTx.progress.checked = true ∧ closedTx.abortPending = false ∧ closedTx.progress.pending ≠ [] ∧
      closedTx.env.txClosed = true) ∧
    (closedRx.progress.checked = true ∧ closedRx.abortPending = false ∧ closedRx.env.rxQ = [] ∧
      closedRx.env.rxClosed = true ∧ closedRx.hdrGot < 4) ∧
    (moving 0x51 [0x80, 3] { Env.start with rxClosed := true } (hex 4 3) 3 1 []).hdrGot = 4 ∧
    (moving 0x53 [0x80, 3] { Env.start with rxClosed := true } [] 0 1 []).hdrGot = 0 := by decide +kernel

/-- A transmit command with no room. -/
def waitingTx : State := moving 0x50 [0, 5] Env.start (hex 4 5) 0 0 hello

theorem witness_CommandWaitsWhileNothingMoves :
    (waitingTx.progress.checked = true ∧ waitingTx.abortPending = false ∧ waitingTx.progress.pending ≠ [] ∧
      waitingTx.env.txClosed = false ∧ waitingTx.env.txCredit = 0) ∧
    waiting.progress.checked = true ∧ waiting.abortPending = false ∧ waiting.env.rxQ = [] ∧ waiting.env.rxClosed = false := by
  decide +kernel

/-- A transmit command issued, with just room enough. -/
def freshTx (w : Word) (credit : Nat) : State := issued w [0, 5] [(0, hello)] (envWith [] [] credit)

/-- A receive command issued, with `q` in `rx_q`. -/
def freshRx (w : Word) (q : List Byte) : State := issued w [0x80, 5] [] (envWith [] q 0)

theorem witness_FrameTxSendsTheFrame :
    (freshTx 0x50 9).FreshStream .frameTx ∧ (freshTx 0x50 9).script = [] ∧ (freshTx 0x50 9).RegionsOk .frameTx ∧
    (freshTx 0x50 9).buf.readBytes ((freshTx 0x50 9).param 0) ((freshTx 0x50 9).param 1) = some hello ∧
    (freshTx 0x50 9).env.txClosed = false ∧ (freshTx 0x50 9).param 1 + 4 ≤ (freshTx 0x50 9).env.txCredit := by
  unfold State.FreshStream State.RegionsOk; decide +kernel

/-- A frame and one byte more. -/
def frameRxState : State := freshRx 0x51 (hex 10 0x0000000568656c6c6f77)

theorem witness_FrameRxStoresThePayload :
    frameRxState.FreshStream .frameRx ∧ frameRxState.script = [] ∧ frameRxState.RegionsOk .frameRx ∧ hello.length ≤ frameRxState.param 1 ∧
    frameRxState.env.rxQ = beBytes hello.length 4 ++ hello ++ [0x77] := by
  unfold State.FreshStream State.RegionsOk; decide +kernel

theorem witness_RawStreamsMoveExactlyTheBytes :
    ((freshTx 0x52 5).FreshStream .rawTx ∧ (freshTx 0x52 5).script = [] ∧ (freshTx 0x52 5).RegionsOk .rawTx ∧
      (freshTx 0x52 5).buf.readBytes ((freshTx 0x52 5).param 0) ((freshTx 0x52 5).param 1) = some hello ∧
      (freshTx 0x52 5).env.txClosed = false ∧ (freshTx 0x52 5).param 1 ≤ (freshTx 0x52 5).env.txCredit) ∧
    ((freshRx 0x53 (hello ++ [0x77])).FreshStream .rawRx ∧ (freshRx 0x53 (hello ++ [0x77])).script = [] ∧
      (freshRx 0x53 (hello ++ [0x77])).RegionsOk .rawRx ∧ hello.length = (freshRx 0x53 (hello ++ [0x77])).param 1 ∧
      (freshRx 0x53 (hello ++ [0x77])).env.rxQ = hello ++ [0x77]) := by
  unfold State.FreshStream State.RegionsOk; decide +kernel

/-- The frame of V-45-1, delivered in fragments with engine steps between. -/
def fragments : List Event :=
  [.rxByte 0, .engine, .engine, .rxByte 0, .rxByte 0, .rxByte 5, .engine] ++ hello.map (fun b => .rxByte b)

def fragmentRx : State := { freshRx 0x51 [] with script := fragments }

theorem witness_FrameRoundTrip :
    ((freshTx 0x50 9).FreshStream .frameTx ∧ (freshTx 0x50 9).script = [] ∧ (freshTx 0x50 9).RegionsOk .frameTx ∧
      (freshTx 0x50 9).buf.readBytes ((freshTx 0x50 9).param 0) ((freshTx 0x50 9).param 1) = some hello ∧
      (freshTx 0x50 9).env.txClosed = false ∧ (freshTx 0x50 9).param 1 + 4 ≤ (freshTx 0x50 9).env.txCredit) ∧
    (fragmentRx.FreshStream .frameRx ∧ fragmentRx.RegionsOk .frameRx ∧ hello.length ≤ fragmentRx.param 1 ∧ fragmentRx.env.rxQ = [] ∧
      fragmentRx.env.rxClosed = false ∧ fragmentRx.script.filterMap rxByteOf = hex 9 0x0000000568656c6c6f) ∧
    (∀ m ∈ fragments, m = .engine ∨ ∃ b, m = .rxByte b) := by
  refine ⟨by unfold State.FreshStream State.RegionsOk; decide +kernel,
    by unfold State.FreshStream State.RegionsOk; decide +kernel, ?_⟩
  intro m hm
  simp only [fragments, List.mem_append, List.mem_cons, List.mem_map, List.not_mem_nil, or_false] at hm
  grind

theorem witness_SboxTablesMeetTheirDefinition : (0x53 : Byte) ≠ 0 ∧ gmul 0x53 0xCA = 0x01 := by decide +kernel

theorem witness_AesDecryptsWhatItEncrypted : k0.length = 32 ∧ fipsPlain.length = 16 := by decide

theorem witness_CbcLaws : k3.length = 32 ∧ iv0.length = 16 := by decide

theorem witness_ModexpIsTheModularPower : hex 2 0x0041 ≠ [] ∧ beInt (hex 2 0x0041) = 65 ∧ (65 : Nat) ≠ 0 := by decide

/-- A key pair whose modulus carries every key text: the prime 2^521 − 1, the prime 53, and e = 7. -/
def bigPrime : Nat :=
  0x1ffffffffffffffffffffffffffffffffffffffffffffffffffffffffffffffffffffffffffffffffffffffffffffffffffffffffffffffffffffffffffffffffff

theorem bigPrime_prime : bigPrime.Prime := by
  have h : mersenne 521 = bigPrime := by decide +kernel
  rw [← h]
  exact lucas_lehmer_sufficiency 521 (by decide) (by norm_num)

/-- The small key of V-43-2, and a key whose modulus carries the key text of `k0`. -/
theorem witness_RsaAndHybridRoundTrip :
    (Nat.Prime 61 ∧ Nat.Prime 53 ∧ 61 ≠ 53 ∧ 17 * 2753 % ((61 - 1) * (53 - 1)) = 1 % ((61 - 1) * (53 - 1)) ∧
      65 < 61 * 53) ∧
    (bigPrime.Prime ∧ Nat.Prime 53 ∧ bigPrime ≠ 53 ∧
      7 * 0xedb6db6db6db6db6db6db6db6db6db6db6db6db6db6db6db6db6db6db6db6db6db6db6db6db6db6db6db6db6db6db6db6db6db6db6db6db6db6db6db6db6db6db5f
        % ((bigPrime - 1) * (53 - 1)) = 1 % ((bigPrime - 1) * (53 - 1)) ∧
      k0.length = 32 ∧ iv0.length = 16 ∧ beInt (keyText k0) < bigPrime * 53) :=
  ⟨⟨by norm_num, by norm_num, by decide, by decide, by decide⟩,
    bigPrime_prime, by decide +kernel, by decide, by decide +kernel, by decide, by decide, by decide +kernel⟩

end Sys2Proof.Tests
end

section
/-! What every step keeps, packaged once: a property of states that each move keeps is kept by every step (R11). -/

namespace Sys2Proof.Machine

variable {s t : State}

/-! ### What no command touches -/

/-- No command writes the host's side, `OVR` or `HAZ` (R14, R40, R46). -/
theorem exec_hostSide {i : Instr} (h : exec i s = .next t) :
    s.SameHostSide t ∧ t.status.ovr = s.status.ovr ∧ t.status.haz = s.status.haz := by
  cases hi : i.isStream with
  | false =>
    obtain ⟨e, -, ⟨c, -, rfl⟩ | ⟨buf, r, -, rfl⟩⟩ := exec_compute_end hi h
    · exact ⟨⟨rfl, rfl, rfl, rfl, rfl, rfl, rfl, rfl⟩, rfl, rfl⟩
    · exact ⟨⟨rfl, rfl, rfl, rfl, rfl, rfl, rfl, rfl⟩, rfl, rfl⟩
  | true =>
    obtain ⟨env, buf, -, -, ⟨w, pr, rfl⟩ | ⟨r, rfl⟩ | ⟨r, rfl⟩ | ⟨c, -, r, rfl⟩⟩ := exec_stream_step hi h
    · exact ⟨⟨rfl, rfl, rfl, rfl, rfl, rfl, rfl, rfl⟩, rfl, rfl⟩
    · exact ⟨⟨rfl, rfl, rfl, rfl, rfl, rfl, rfl, rfl⟩, rfl, rfl⟩
    · exact ⟨⟨rfl, rfl, rfl, rfl, rfl, rfl, rfl, rfl⟩, rfl, rfl⟩
    · exact ⟨⟨rfl, rfl, rfl, rfl, rfl, rfl, rfl, rfl⟩, rfl, rfl⟩

/-! ### Induction over the moves -/

/-- Each kind of move keeps `P`: those outside the core, a reset, a locked buffer read, a register write, and the two engine steps
that change anything. -/
structure KeptByMoves (P : State → Prop) : Prop where
  outside : ∀ {s : State} (env : Env) (host : HostAgent) (script : List Event) (rst : Bool), P s →
    P { s with env := env, host := host, script := script, rst := rst }
  reset : ∀ {s : State}, P s → P s.afterReset
  lockedRead : ∀ {s : State}, P s → P s.markHaz
  regWrite : ∀ {s : State} {o : Nat} {reg : Reg} (v : Word), regAt s.cfg.bufBytes o = some reg → P s → P (writeReg s reg v)
  illegal : ∀ {s : State} {why : Illegal}, s.phase = .run (.illegal why) → P s → P (s.raise .eillegal)
  command : ∀ {s t : State} {i : Instr}, s.phase = .run (.command i) → exec i s = .next t → P s → P t

variable {P : State → Prop}

theorem KeptByMoves.answer (hP : KeptByMoves P) {a : BusAnswer} (h : P s) : P (s.answer a) :=
  hP.outside s.env { s.host with bus := a } s.script s.rst h

theorem KeptByMoves.engineStep (hP : KeptByMoves P) (h : engineStep s = .next t) (hs : P s) : P t := by
  rcases engineStep_next h with rfl | ⟨why, hp, rfl⟩ | ⟨i, hp, -, h⟩
  · exact hs
  · exact hP.illegal hp hs
  · exact hP.command hp h hs

theorem KeptByMoves.readReg (hP : KeptByMoves P) {reg : Reg} (h : readReg s reg = .next t) (hs : P s) : P t := by
  obtain ⟨v, rfl | ⟨rfl, -⟩ | ⟨rfl, -⟩⟩ := readReg_next h
  · exact hP.answer hs
  · exact hP.answer (hP.outside _ s.host s.script s.rst hs)
  · exact hP.answer (hP.lockedRead hs)

theorem KeptByMoves.hostAccess (hP : KeptByMoves P) {a : Access} (h : hostAccess s a = .next t) (hs : P s) : P t := by
  rcases hostAccess_next h with ⟨-, rfl⟩ | ⟨-, -, rfl⟩ |
    ⟨-, -, ⟨-, ⟨reg, hreg, rfl⟩ | ⟨-, rfl⟩⟩ | ⟨-, ⟨reg, -, h⟩ | ⟨-, rfl⟩⟩⟩
  · exact hP.answer hs
  · exact hP.answer hs
  · exact hP.answer (hP.regWrite _ hreg hs)
  · exact hP.answer hs
  · exact hP.readReg h hs
  · exact hP.answer hs

theorem KeptByMoves.hostProgramStep (hP : KeptByMoves P) (h : hostProgramStep s = .next t) (hs : P s) : P t := by
  rcases hostProgramStep_next h with rfl | ⟨op, u, hu, rfl⟩
  · exact hs
  · obtain ⟨host, hh⟩ := afterLine_eq op u
    rw [hh]
    exact hP.outside u.env host u.script u.rst (hP.hostAccess hu hs)

theorem KeptByMoves.rxAppend (hP : KeptByMoves P) (b : Byte) (hs : P s) : P (s.rxAppend b) := by
  unfold State.rxAppend
  split
  · exact hs
  · exact hP.outside _ s.host s.script s.rst hs

theorem KeptByMoves.eventStep (hP : KeptByMoves P) {e : Event} (h : eventStep e s = .next t) (hs : P s) : P t := by
  cases e with
  | engine => exact hP.engineStep h hs
  | access a => exact hP.hostAccess h hs
  | hostLine => exact hP.hostProgramStep h hs
  | rxByte b => cases h; exact hP.rxAppend b hs
  | rxClose => cases h; exact hP.outside _ s.host s.script s.rst hs
  | txReady n => cases h; exact hP.outside _ s.host s.script s.rst hs
  | txClose => cases h; exact hP.outside _ s.host s.script s.rst hs
  | entropy a => cases h; exact hP.outside _ s.host s.script s.rst hs
  | rstAssert => cases h; exact hP.outside s.env s.host s.script true hs
  | rstRelease => cases h; exact hP.reset hs

/-- What each kind of move keeps, every step keeps. -/
theorem KeptByMoves.step (hP : KeptByMoves P) (h : step s = .next t) (hs : P s) : P t := by
  rcases step_next h with ⟨-, h⟩ | ⟨e, rest, -, h⟩
  · exact hP.engineStep h hs
  · exact hP.eventStep h (hP.outside s.env s.host rest s.rst hs)

/-! ### The canonical form of the buffer -/

theorem exec_buf_wf {i : Instr} (h : exec i s = .next t) (hs : s.buf.wf) : t.buf.wf := by
  cases hi : i.isStream with
  | false =>
    obtain ⟨e, -, ⟨c, -, rfl⟩ | ⟨buf, r, hb, rfl⟩⟩ := exec_compute_end hi h
    · exact hs
    · exact hb.1 hs
  | true =>
    obtain ⟨env, buf, -, hb, ⟨w, pr, rfl⟩ | ⟨r, rfl⟩ | ⟨r, rfl⟩ | ⟨c, -, r, rfl⟩⟩ := exec_stream_step hi h
    · exact hb hs
    · exact hb hs
    · exact hb hs
    · exact hb hs

/-- A register write leaves the buffer as it was, empties it in a reset, or stores a word. -/
theorem writeReg_buf (s : State) (reg : Reg) (v : Word) :
    (writeReg s reg v).buf = s.buf ∨ (writeReg s reg v).buf = [] ∨
      ∃ a, reg = .buf a ∧ (writeReg s reg v).buf = s.buf.writeBytes a (lanes v) := by
  cases reg with
  | ctrl =>
    unfold writeReg writeCtrl
    dsimp only
    split
    · exact .inr (.inl rfl)
    · exact .inl rfl
  | cmd =>
    unfold writeReg writeCmd
    dsimp only
    split <;> exact .inl rfl
  | p i =>
    unfold writeReg writeP
    dsimp only
    split <;> exact .inl rfl
  | buf a =>
    unfold writeReg writeBuf
    dsimp only
    split
    · exact .inl rfl
    · exact .inr (.inr ⟨a, rfl, rfl⟩)
  | id | status | r _ | bufsize | nmaxsize => exact .inl rfl

theorem writeReg_buf_wf (reg : Reg) (v : Word) (hs : s.buf.wf) : (writeReg s reg v).buf.wf := by
  rcases writeReg_buf s reg v with h | h | ⟨a, -, h⟩ <;> rw [h]
  · exact hs
  · exact List.Pairwise.nil
  · exact Memory.writeBytes_wf hs a _

theorem buf_wf_keptByMoves : KeptByMoves fun s => s.buf.wf where
  outside _ _ _ _ hs := hs
  reset _ := List.Pairwise.nil
  lockedRead hs := hs
  regWrite v _ hs := writeReg_buf_wf _ v hs
  illegal _ hs := hs
  command _ h hs := exec_buf_wf h hs

end Sys2Proof.Machine

open Sys2Proof.Machine

/-- Settles O40: a compute command ends and a stream command steps in ways that name every field they change. -/
theorem commandsLeaveTheHostSideAlone : Obligations.CommandsLeaveTheHostSideAlone := by
  unfold Obligations.CommandsLeaveTheHostSideAlone
  exact fun _ _ _ h => exec_hostSide h

end

section
/-! The invariant of the machine is kept by every move (R9, R35, R37, R42 to R47). -/

namespace Sys2Proof.Machine

variable {s t u : State}

/-! ### Operands and header bytes after a step -/

@[simp] theorem State.sentByte_param (framed : Bool) (b : Byte) (rest : List Byte) (i : Fin 16) :
    (s.sentByte framed b rest).param i = s.param i := rfl
@[simp] theorem State.streamChecked_param (pending : List Byte) (i : Fin 16) :
    (s.streamChecked pending).param i = s.param i := rfl

@[simp] theorem gotHeaderByte_hdrGot {b : Byte} : (s.gotHeaderByte b).hdrGot = s.hdrGot + 1 := by
  simp [State.hdrGot]

/-! ### While a command runs -/

theorem State.PhaseOk.busy_of_run {d : Decoded} (h : s.PhaseOk) (hp : s.phase = .run d) : s.status.busy = true := by
  by_contra hb
  have := h.mp (by simpa using hb)
  simp [hp] at this

theorem State.PhaseOk.idle_of_not_busy (h : s.PhaseOk) (hb : ¬ s.status.busy = true) : s.phase = .idle :=
  h.mp (by simpa using hb)

theorem streamRunning_of_command {i : Instr} (hp : s.phase = .run (.command i)) : s.streamRunning = i.isStream := by
  simp [State.streamRunning, hp]

/-! ### The end of a command -/

/-- A `STATUS` with which a command may end: the engine is not busy, and what it reports is consistent (R35). -/
def Status.Ended (st : Status) : Prop :=
  st.busy = false ∧ st.wait = false ∧
  (¬ (st.done = true ∧ st.err = true) ∧ ¬ (st.done = true ∧ st.cancelled = true) ∧ ¬ (st.err = true ∧ st.cancelled = true)) ∧
  (st.err = true → st.errCode ≠ 0)

/-- A `STATUS` that reports no end of a command yet. -/
def Status.Clear (st : Status) : Prop := st.done = false ∧ st.err = false ∧ st.cancelled = false

theorem ErrCode.code_ne_zero (e : ErrCode) : e.code ≠ 0 := by cases e <;> decide

theorem Status.Clear.atDone {st : Status} (h : st.Clear) : st.atDone.Ended := by
  obtain ⟨-, he, hc⟩ := h
  simp [Status.Ended, Status.atDone, he, hc]

theorem Status.Clear.atErr {st : Status} (h : st.Clear) (e : ErrCode) : (st.atErr e).Ended := by
  obtain ⟨hd, -, hc⟩ := h
  simpa [Status.Ended, Status.atErr, hd, hc] using e.code_ne_zero

theorem Status.Clear.atCancel {st : Status} (h : st.Clear) : st.atCancel.Ended := by
  obtain ⟨hd, he, -⟩ := h
  simp [Status.Ended, Status.atCancel, hd, he]

theorem inv_complete {st : Status} (hc : u.CfgOk) (hb : u.BufOk) (hst : st.Ended) : (u.complete st).Inv := by
  obtain ⟨hbusy, hwait, hexcl, hcode⟩ := hst
  refine ⟨hc, hb, ⟨?_, hexcl, hcode, ?_⟩, ?_, ?_, ?_, ?_, rfl, ?_⟩
  · simp [hbusy]
  · simp [hwait]
  · simp [State.PhaseOk, hbusy]
  · simp [State.SnapOk]
  · simp [State.ResultsOk, hbusy]
  · simp [State.AbortOk]
  · exact ⟨fun _ => rfl, by simp [Progress.zero]⟩

/-- What the end of a running command rests on: the parameters, the buffer, and a `STATUS` that reports no end yet. -/
def State.MayEnd (s : State) : Prop := s.CfgOk ∧ s.BufOk ∧ s.status.Clear

theorem State.Inv.mayEnd {d : Decoded} (h : s.Inv) (hp : s.phase = .run d) : s.MayEnd := by
  obtain ⟨hcfg, hbuf, ⟨hbusy, -⟩, hphase, -⟩ := h
  obtain ⟨hd, he, hc, -⟩ := hbusy (hphase.busy_of_run hp)
  exact ⟨hcfg, hbuf, hd, he, hc⟩

theorem State.MayEnd.finish (h : s.MayEnd) : s.finish.Inv := by
  obtain ⟨hcfg, hbuf, hclear⟩ := h
  exact inv_complete hcfg hbuf hclear.atDone

theorem State.MayEnd.raise {e : ErrCode} (h : s.MayEnd) : (s.raise e).Inv := by
  obtain ⟨hcfg, hbuf, hclear⟩ := h
  exact inv_complete hcfg hbuf (hclear.atErr e)

theorem State.MayEnd.cancel (h : s.MayEnd) : s.cancel.Inv := by
  obtain ⟨hcfg, hbuf, hclear⟩ := h
  exact inv_complete hcfg hbuf hclear.atCancel

/-! ### Compute commands -/

theorem exec_compute_inv {i : Instr} (hi : i.isStream = false) (h : exec i s = .next t) (hs : s.MayEnd) : t.Inv := by
  obtain ⟨hcfg, ⟨hwf, hin⟩, hst⟩ := hs
  obtain ⟨e, -, ⟨c, -, rfl⟩ | ⟨buf, r, ⟨hw, hb⟩, rfl⟩⟩ := exec_compute_end hi h
  · exact inv_complete hcfg ⟨hwf, hin⟩ (hst.atErr c)
  · exact inv_complete hcfg ⟨hw hwf, hb hin⟩ hst.atDone

/-! ### A stream command goes on -/

theorem State.Inv.progressOk (h : s.Inv) : s.ProgressOk := by
  obtain ⟨-, -, -, -, -, -, -, -, hpr⟩ := h
  exact hpr

theorem State.Inv.bufOk (h : s.Inv) : s.BufOk := by
  obtain ⟨-, hbuf, -⟩ := h
  exact hbuf

/-- A step of a running stream command that does not end it keeps all of the invariant but what it says of the buffer and the
counters. -/
theorem State.Inv.goesOn {i : Instr} {w : Bool} {pr : Progress} {env : Env} {buf : Memory} (h : s.Inv)
    (hi : i.isStream = true) (hp : s.phase = .run (.command i))
    (ht : t = { s with status := { s.status with wait := w }, progress := pr, env := env, buf := buf })
    (hbuf : t.BufOk) (hpr : t.ProgressOk) : t.Inv := by
  obtain ⟨hcfg, -, ⟨hbusy, hexcl, hcode, -⟩, hphase, hsnap, hres, habort, hkey, -⟩ := h
  have hrun : t.streamRunning = true := by rw [ht]; exact (streamRunning_of_command hp).trans hi
  have hb : s.status.busy = true := hphase.busy_of_run hp
  subst ht
  exact ⟨hcfg, hbuf, ⟨hbusy, hexcl, hcode, fun _ => ⟨hb, hrun⟩⟩, hphase, hsnap, hres, habort, hkey, hpr⟩

theorem State.Inv.held {i : Instr} (h : s.Inv) (hi : i.isStream = true) (hp : s.phase = .run (.command i)) :
    s.held.Inv :=
  h.goesOn hi hp rfl h.bufOk h.progressOk

/-- Where a checked stream command `i` stands; no other command takes a bounds check. -/
def State.StreamOk (s : State) : Instr → Prop
  | .frameTx => s.FrameTxOk
  | .frameRx => s.FrameRxOk
  | .rawTx => s.RawTxOk
  | .rawRx => s.RawRxOk
  | .nop | .rngFill | .sha256 | .kexp | .aesEnc | .aesDec | .cbcEnc _ | .cbcDec | .modexp | .hybEnc _ _ | .hybDec => False

/-- What the invariant says of the stream counters while `i` runs. -/
theorem progressOk_iff {i : Instr} (hp : s.phase = .run (.command i)) :
    s.ProgressOk ↔ (s.progress.checked = false → s.progress = Progress.zero) ∧ (s.progress.checked = true → s.StreamOk i) := by
  cases i <;> simp [State.ProgressOk, State.StreamOk, hp]

theorem progressOk_of_streamOk {i : Instr} (hp : s.phase = .run (.command i)) (hc : s.progress.checked = true)
    (h : s.StreamOk i) : s.ProgressOk :=
  (progressOk_iff hp).mpr ⟨by simp [hc], fun _ => h⟩

/-- The bounds-check step of a stream command (R339), which goes on from counters that are 0. -/
theorem State.Inv.streamChecked {i : Instr} {pending : List Byte} (h : s.Inv) (hi : i.isStream = true)
    (hp : s.phase = .run (.command i)) (hok : (s.streamChecked pending).StreamOk i) : (s.streamChecked pending).Inv :=
  h.goesOn (w := s.status.wait) hi hp rfl h.bufOk (progressOk_of_streamOk hp rfl hok)

/-- A check of regions goes on, or ends the running command with `EBOUNDS` (R90). -/
theorem State.Inv.of_checkRegions {d : Decoded} {rs : List (Nat × Nat)} {k : Result} (hs : s.Inv) (hp : s.phase = .run d)
    (h : checkRegions s rs k = .next t) (hk : RegionsIn s rs → k = .next t → t.Inv) : t.Inv := by
  rcases checkRegions_next_iff.mp h with ⟨hin, h⟩ | ⟨-, rfl⟩
  · exact hk hin h
  · exact (hs.mayEnd hp).raise

/-! ### Bytes going out -/

/-- A byte step of FRAME_TX and RAW_TX (R291), where a byte sent before the last leaves the counters in order. -/
theorem sendStep_inv {i : Instr} {framed : Bool} {n : Nat} (hs : s.Inv) (hi : i.isStream = true)
    (hp : s.phase = .run (.command i)) (hc : s.progress.checked = true)
    (hsent : ∀ b rest env, s.progress.pending = b :: rest → rest ≠ [] →
      ((s.unheld.withEnv env).sentByte framed b rest).StreamOk i)
    (h : sendStep s framed n = .next t) : t.Inv := by
  have hend : s.MayEnd := hs.mayEnd hp
  rcases sendStep_next h with ⟨-, rfl⟩ | ⟨b, rest, hpend, ⟨-, rfl⟩ | ⟨-, -, rfl⟩ | ⟨-, -, -, rfl⟩ | ⟨-, -, c, u, -, rfl, h⟩⟩
  · exact State.MayEnd.finish hend
  · exact State.MayEnd.cancel hend
  · exact State.MayEnd.raise hend
  · exact hs.held hi hp
  · rcases h with ⟨-, rfl⟩ | ⟨hrest, rfl⟩
    · exact State.MayEnd.finish hend
    · refine hs.goesOn (w := false) hi hp rfl hs.bufOk (progressOk_of_streamOk hp ?_ (hsent b rest _ hpend hrest))
      simp only [State.sentByte_progress]
      split <;> exact hc

/-- A header byte went out. -/
theorem sentByte_header_progress {b : Byte} {rest : List Byte} (h : s.hdrGot < 4) :
    (s.sentByte true b rest).progress = { s.progress with hdr := s.progress.hdr ++ [b], pending := rest } := by
  simp [h]

/-- A payload byte went out, of a frame whose header is complete or of a raw transfer. -/
theorem sentByte_payload_progress {framed : Bool} {b : Byte} {rest : List Byte} (h : framed = true → 4 ≤ s.hdrGot) :
    (s.sentByte framed b rest).progress =
      { s.progress with doneBytes := s.progress.doneBytes + 1, pending := rest } := by
  cases framed with
  | false => rfl
  | true => simp [h]

/-- A byte of a frame sent before the last: of the header while it is not complete, and of the payload after it (R294). -/
theorem State.FrameTxOk.sentByte {b : Byte} {rest : List Byte} (h : s.FrameTxOk) (hp : s.progress.pending = b :: rest)
    (hr : rest ≠ []) : (s.sentByte true b rest).FrameTxOk := by
  obtain ⟨hin, -, hdecl, hgot, hdone, hsum⟩ := h
  rw [hp, List.length_cons] at hsum
  by_cases hh : s.hdrGot < 4
  · have hzero := hdone hh
    have hpr := sentByte_header_progress (b := b) (rest := rest) hh
    unfold State.hdrGot at hh hsum
    simp only [State.FrameTxOk, State.hdrGot, hpr, State.sentByte_param, List.length_append, List.length_singleton]
    exact ⟨hin, hr, hdecl, hh, fun _ => hzero, by omega⟩
  · have hpr := sentByte_payload_progress (framed := true) (b := b) (rest := rest) fun _ => Nat.le_of_not_lt hh
    unfold State.hdrGot at hh hgot hsum
    simp only [State.FrameTxOk, State.hdrGot, hpr, State.sentByte_param]
    exact ⟨hin, hr, hdecl, hgot, fun h => absurd h hh, by omega⟩

/-- A byte of a raw transfer sent before the last (R296). -/
theorem State.RawTxOk.sentByte {b : Byte} {rest : List Byte} (h : s.RawTxOk) (hp : s.progress.pending = b :: rest)
    (hr : rest ≠ []) : (s.sentByte false b rest).RawTxOk := by
  obtain ⟨hin, -, hdecl, hhdr, hsum⟩ := h
  rw [hp, List.length_cons] at hsum
  have hpr := sentByte_payload_progress (s := s) (framed := false) (b := b) (rest := rest) (by simp)
  simp only [State.RawTxOk, hpr, State.sentByte_param]
  exact ⟨hin, hr, hdecl, hhdr, by omega⟩

theorem execFrameTx_inv (hs : s.Inv) (hp : s.phase = .run (.command .frameTx)) (h : execFrameTx s = .next t) : t.Inv := by
  obtain ⟨hzero, hok⟩ := (progressOk_iff hp).mp hs.progressOk
  unfold execFrameTx at h
  dsimp only at h
  split at h
  · next hc =>
    exact sendStep_inv hs rfl hp hc (fun b rest _ hpend hr => State.FrameTxOk.sentByte (hok hc) hpend hr) h
  · next hc =>
    have hz := hzero (by simpa using hc)
    refine hs.of_checkRegions hp h fun hin h => ?_
    obtain ⟨bs, hlen, h⟩ := memRead_next h
    cases h
    refine hs.streamChecked rfl hp ?_
    simp only [regionsIn_cons] at hin
    simp [State.StreamOk, State.FrameTxOk, State.hdrGot, hz, Progress.zero, hin.1, hlen, ← List.length_eq_zero_iff]

theorem execRawTx_inv (hs : s.Inv) (hp : s.phase = .run (.command .rawTx)) (h : execRawTx s = .next t) : t.Inv := by
  obtain ⟨hzero, hok⟩ := (progressOk_iff hp).mp hs.progressOk
  unfold execRawTx at h
  dsimp only at h
  split at h
  · next hc =>
    exact sendStep_inv hs rfl hp hc (fun b rest _ hpend hr => State.RawTxOk.sentByte (hok hc) hpend hr) h
  · next hc =>
    have hz := hzero (by simpa using hc)
    refine hs.of_checkRegions hp h fun hin h => ?_
    obtain ⟨bs, hlen, h⟩ := memRead_next h
    split at h
    · cases h
      exact State.MayEnd.finish (hs.mayEnd hp)
    · next hn =>
      cases h
      refine hs.streamChecked rfl hp ?_
      simp only [regionsIn_cons] at hin
      simp [State.StreamOk, State.RawTxOk, hz, Progress.zero, hin.1, hlen, ← List.length_eq_zero_iff, hn]

/-! ### Bytes coming in -/

/-- A payload byte step of FRAME_RX and RAW_RX (R290), of a region inside the buffer, where a byte taken before the last leaves the
counters in order. -/
theorem receiveStep_inv {i : Instr} {dst n : Nat} (hs : s.Inv) (hi : i.isStream = true)
    (hp : s.phase = .run (.command i)) (hc : s.progress.checked = true) (hin : dst + n ≤ s.cfg.bufBytes)
    (hdone : s.progress.doneBytes < n)
    (hgot : ∀ a b env, s.progress.doneBytes + 1 < n → ((s.unheld.withEnv env).gotPayloadByte a b).StreamOk i)
    (h : receiveStep s dst n = .next t) : t.Inv := by
  have hend : s.MayEnd := hs.mayEnd hp
  rcases receiveStep_next h with ⟨-, rfl⟩ | ⟨-, -, -, rfl⟩ | ⟨-, -, -, rfl⟩ | ⟨-, b, q, u, -, rfl, h⟩
  · exact State.MayEnd.cancel hend
  · exact State.MayEnd.raise hend
  · exact hs.held hi hp
  · obtain ⟨hcfg, ⟨hwf, hwithin⟩, hst⟩ := hend
    have hbuf : ((s.unheld.withEnv { s.env with rxQ := q }).gotPayloadByte (dst + s.progress.doneBytes) b).BufOk :=
      ⟨Memory.writeBytes_wf hwf _ _, Memory.writeBytes_within hwithin (by simp only [List.length_singleton]; omega)⟩
    rcases h with ⟨hlt, rfl⟩ | ⟨-, rfl⟩
    · exact hs.goesOn (w := false) hi hp rfl hbuf (progressOk_of_streamOk hp hc (hgot _ _ _ hlt))
    · exact State.MayEnd.finish ⟨hcfg, hbuf, hst⟩

/-- A payload byte of a frame taken before the last (R295). -/
theorem State.FrameRxOk.gotPayloadByte {a : Nat} {b : Byte} (h : s.FrameRxOk) (hh : ¬ s.hdrGot < 4)
    (hlt : s.progress.doneBytes + 1 < s.progress.declared.toNat) : (s.gotPayloadByte a b).FrameRxOk := by
  obtain ⟨hin, hpend, hgot, -, hfull⟩ := h
  obtain ⟨hval, hcap, -⟩ := hfull (by omega)
  exact ⟨hin, hpend, hgot, fun h => absurd h hh, fun _ => ⟨hval, hcap, hlt⟩⟩

/-- A payload byte of a raw transfer taken before the last (R297). -/
theorem State.RawRxOk.gotPayloadByte {a : Nat} {b : Byte} (h : s.RawRxOk) (hlt : s.progress.doneBytes + 1 < s.param 1) :
    (s.gotPayloadByte a b).RawRxOk := by
  obtain ⟨hin, hpend, hdecl, hhdr, -⟩ := h
  exact ⟨hin, hpend, hdecl, hhdr, hlt⟩

/-- A header byte taken before the fourth (R295). -/
theorem State.FrameRxOk.gotHeaderByte {b : Byte} (h : s.FrameRxOk) (hlt : s.hdrGot + 1 < 4) :
    (s.gotHeaderByte b).FrameRxOk := by
  obtain ⟨hin, hpend, -, hzero, -⟩ := h
  have hgot : (s.gotHeaderByte b).hdrGot = s.hdrGot + 1 := gotHeaderByte_hdrGot
  exact ⟨hin, hpend, by omega, fun _ => hzero (by omega), fun h => by omega⟩

/-- A complete header gives a length of 32 bits (R293). -/
theorem beInt_hdr_lt (h : s.hdrGot = 4) : beInt s.progress.hdr < 2 ^ 32 := by
  have hlt := beInt_lt s.progress.hdr
  rw [show s.progress.hdr.length = 4 from h] at hlt
  omega

/-- The fourth header byte, with a length that is not 0 and fits (R295). -/
theorem State.FrameRxOk.gotLength {b : Byte} {d : Nat} (h : s.FrameRxOk) (hh : s.hdrGot < 4) (h4 : 4 ≤ s.hdrGot + 1)
    (hd : d = beInt (s.progress.hdr ++ [b])) (hcap : d ≤ s.param 1) (h0 : d ≠ 0) :
    ((s.gotHeaderByte b).gotLength d).FrameRxOk := by
  obtain ⟨hin, hpend, -, hzero, -⟩ := h
  obtain ⟨-, hdone⟩ := hzero hh
  have hgot : (s.gotHeaderByte b).hdrGot = 4 := by
    rw [gotHeaderByte_hdrGot]
    omega
  have hdecl : (BitVec.ofNat 32 d).toNat = d := by
    rw [BitVec.toNat_ofNat, hd]
    exact Nat.mod_eq_of_lt (beInt_hdr_lt hgot)
  refine ⟨hin, hpend, hgot.le, fun h => absurd hgot h.ne, fun _ => ⟨hdecl.trans hd, ?_, ?_⟩⟩
  · exact hdecl.trans_le hcap
  · exact (hdone.trans_lt (by omega)).trans_eq hdecl.symm

/-- A header byte step of FRAME_RX (R290, R295). -/
theorem headerStep_inv (hs : s.Inv) (hp : s.phase = .run (.command .frameRx)) (hc : s.progress.checked = true)
    (hh : s.hdrGot < 4) (hok : s.FrameRxOk) (h : headerStep s (s.param 1) = .next t) : t.Inv := by
  have hend : s.MayEnd := hs.mayEnd hp
  rcases headerStep_next h with ⟨-, rfl⟩ | ⟨-, -, -, rfl⟩ | ⟨-, -, -, rfl⟩ | ⟨-, b, q, u, -, rfl, h⟩
  · exact State.MayEnd.cancel hend
  · exact State.MayEnd.raise hend
  · exact hs.held rfl hp
  · rcases h with ⟨hlt, rfl⟩ | ⟨h4, d, hd, ⟨-, rfl⟩ | ⟨-, -, rfl⟩ | ⟨hcap, h0, rfl⟩⟩
    · exact hs.goesOn (w := false) rfl hp rfl hs.bufOk
        (progressOk_of_streamOk hp hc (State.FrameRxOk.gotHeaderByte hok hlt))
    · exact State.MayEnd.raise hend
    · exact State.MayEnd.finish hend
    · exact hs.goesOn (w := false) rfl hp rfl hs.bufOk
        (progressOk_of_streamOk hp hc (State.FrameRxOk.gotLength hok hh h4 hd hcap h0))

theorem execFrameRx_inv (hs : s.Inv) (hp : s.phase = .run (.command .frameRx)) (h : execFrameRx s = .next t) : t.Inv := by
  obtain ⟨hzero, hok⟩ := (progressOk_iff hp).mp hs.progressOk
  unfold execFrameRx at h
  dsimp only at h
  split at h
  · next hc =>
    have hrx : s.FrameRxOk := hok hc
    split at h
    · next hh => exact headerStep_inv hs hp hc hh hrx h
    · next hh =>
      obtain ⟨hin, -, hgot, -, hfull⟩ := hrx
      obtain ⟨-, hcap, hdone⟩ := hfull (by omega)
      exact receiveStep_inv hs rfl hp hc (by omega) hdone
        (fun a b _ hlt => State.FrameRxOk.gotPayloadByte (hok hc) hh hlt) h
  · next hc =>
    have hz := hzero (by simpa using hc)
    refine hs.of_checkRegions hp h fun hin h => ?_
    cases h
    refine hs.streamChecked rfl hp ?_
    simp only [regionsIn_cons] at hin
    simp [State.StreamOk, State.FrameRxOk, State.hdrGot, hz, Progress.zero, hin.1]

theorem execRawRx_inv (hs : s.Inv) (hp : s.phase = .run (.command .rawRx)) (h : execRawRx s = .next t) : t.Inv := by
  obtain ⟨hzero, hok⟩ := (progressOk_iff hp).mp hs.progressOk
  unfold execRawRx at h
  dsimp only at h
  split at h
  · next hc =>
    have hrx : s.RawRxOk := hok hc
    obtain ⟨hin, -, -, -, hdone⟩ := hrx
    exact receiveStep_inv hs rfl hp hc hin hdone (fun a b _ hlt => State.RawRxOk.gotPayloadByte (hok hc) hlt) h
  · next hc =>
    have hz := hzero (by simpa using hc)
    refine hs.of_checkRegions hp h fun hin h => ?_
    split at h
    · cases h
      exact State.MayEnd.finish (hs.mayEnd hp)
    · next hn =>
      cases h
      refine hs.streamChecked rfl hp ?_
      simp only [regionsIn_cons] at hin
      simp [State.StreamOk, State.RawRxOk, hz, Progress.zero, hin.1, Nat.pos_of_ne_zero hn]

/-! ### Every command, register writes and resets -/

/-- An engine step of any command keeps the invariant. -/
theorem exec_inv {i : Instr} (hs : s.Inv) (hp : s.phase = .run (.command i)) (h : exec i s = .next t) : t.Inv := by
  cases hi : i.isStream with
  | false => exact exec_compute_inv hi h (hs.mayEnd hp)
  | true =>
    cases i with
    | frameTx => exact execFrameTx_inv hs hp h
    | frameRx => exact execFrameRx_inv hs hp h
    | rawTx => exact execRawTx_inv hs hp h
    | rawRx => exact execRawRx_inv hs hp h
    | nop | rngFill | sha256 | kexp | aesEnc | aesDec | cbcEnc | cbcDec | modexp | hybEnc | hybDec => cases hi

/-- After a reset the core stands as after the end of a command, with nothing reported (R57). -/
theorem inv_afterReset (hs : s.Inv) : s.afterReset.Inv := by
  obtain ⟨hcfg, -⟩ := hs
  have hst : Status.zero.Ended := by simp [Status.Ended, Status.zero]
  exact inv_complete (u := s.afterReset) hcfg ⟨List.Pairwise.nil, fun _ hc => nomatch hc⟩ hst

theorem inv_issue (hs : s.Inv) (hb : ¬ s.status.busy = true) (v : Word) : (s.issue v).Inv := by
  obtain ⟨hcfg, hbuf, ⟨-, -, -, hwait⟩, -, -, -, -, hkey, -⟩ := hs
  refine ⟨hcfg, hbuf, ⟨fun _ => ⟨rfl, rfl, rfl, rfl⟩, ?_, ?_, ?_⟩, ?_, fun _ => ⟨rfl, rfl, rfl⟩, fun _ => rfl, ?_, hkey,
    fun _ => rfl, ?_⟩
  · simp [Status.atIssue]
  · simp [Status.atIssue]
  · exact fun hw => absurd (hwait hw).1 hb
  · simp [State.PhaseOk, Status.atIssue]
  · simp [State.AbortOk]
  · simp [Progress.zero]

theorem inv_writeCtrl (hs : s.Inv) (v : Word) : (writeCtrl s v).Inv := by
  have hreset := inv_afterReset hs
  obtain ⟨hcfg, hbuf, hstatus, hphase, hsnap, hres, habort, hkey, hpr⟩ := hs
  unfold writeCtrl
  split
  · exact hreset
  · refine ⟨hcfg, hbuf, hstatus, hphase, hsnap, hres, ?_, hkey, hpr⟩
    intro h
    rcases Bool.or_eq_true_iff.mp h with h | h
    · exact habort h
    · exact (Bool.and_eq_true_iff.mp h).2

/-- A write of `STATUS` clears flags only, so what it must not report it still does not (R36). -/
theorem inv_writeOneClear (hs : s.Inv) (v : Word) : State.Inv { s with status := s.status.writeOneClear v } := by
  obtain ⟨hcfg, hbuf, ⟨hbusy, ⟨hde, hdc, hec⟩, hcode, hwait⟩, hphase, hsnap, hres, habort, hkey, hpr⟩ := hs
  refine ⟨hcfg, hbuf, ⟨?_, ?_, ?_, hwait⟩, hphase, hsnap, hres, habort, hkey, hpr⟩
  · intro hb
    obtain ⟨hd, he, hc, h0⟩ := hbusy hb
    simp [Status.writeOneClear, hd, he, hc, h0]
  · simp only [Status.writeOneClear, Bool.and_eq_true]
    exact ⟨fun ⟨hd, he⟩ => hde ⟨hd.1, he.1⟩, fun ⟨hd, hc⟩ => hdc ⟨hd.1, hc.1⟩, fun ⟨he, hc⟩ => hec ⟨he.1, hc.1⟩⟩
  · intro he
    exact hcode (Bool.and_eq_true_iff.mp he).1

/-- While idle no snapshot is in use, so a parameter register may change (R46). -/
theorem inv_setP (hs : s.Inv) (hb : ¬ s.status.busy = true) (i : Fin 16) (v : Word) : (s.setP i v).Inv := by
  obtain ⟨hcfg, hbuf, hstatus, hphase, -, hres, habort, hkey, hpr⟩ := hs
  exact ⟨hcfg, hbuf, hstatus, hphase, fun h => absurd (hphase.idle_of_not_busy hb) h, hres, habort, hkey, hpr⟩

theorem inv_memWrite (hs : s.Inv) {a : Nat} {bs : List Byte} (h : a + bs.length ≤ s.cfg.bufBytes) :
    (s.memWrite a bs).Inv := by
  obtain ⟨hcfg, ⟨hwf, hin⟩, hrest⟩ := hs
  exact ⟨hcfg, ⟨Memory.writeBytes_wf hwf _ _, Memory.writeBytes_within hin h⟩, hrest⟩

theorem inv_writeReg {o : Nat} {reg : Reg} (v : Word) (hreg : regAt s.cfg.bufBytes o = some reg) (hs : s.Inv) :
    (writeReg s reg v).Inv := by
  cases reg with
  | id | r _ | bufsize | nmaxsize => exact hs
  | ctrl => exact inv_writeCtrl hs v
  | status => exact inv_writeOneClear hs v
  | cmd =>
    unfold writeReg writeCmd
    dsimp only
    split
    · exact hs
    · next hb => exact inv_issue hs hb v
  | p i =>
    unfold writeReg writeP
    dsimp only
    split
    · exact hs
    · next hb => exact inv_setP hs hb i v
  | buf a =>
    unfold writeReg writeBuf
    dsimp only
    split
    · exact hs
    · exact inv_memWrite hs (regAt_buf_within hreg)

theorem inv_keptByMoves : KeptByMoves State.Inv where
  outside _ _ _ _ hs := hs
  reset hs := inv_afterReset hs
  lockedRead hs := hs
  regWrite v hreg hs := inv_writeReg v hreg hs
  illegal hp hs := (hs.mayEnd hp).raise
  command hp h hs := exec_inv hs hp h

end Sys2Proof.Machine

open Sys2Proof.Machine

/-- Settles O8: each kind of move keeps the invariant, and the canonical form of the buffer on its own. -/
theorem stepKeepsInvariant : Obligations.StepKeepsInvariant := by
  unfold Obligations.StepKeepsInvariant
  exact ⟨fun _ _ hs h => inv_keptByMoves.step h hs, fun _ _ hs h => buf_wf_keptByMoves.step h hs⟩

end

section
/-! The draws of the entropy source, the modular power and the shortest big-endian form: R13, R14, R55, R250. -/

namespace Sys2Proof.Machine

/-! ### Draws -/

/-- An answer with as many bytes as were asked for is drawn as it stands. -/
theorem drawnBytes_self (k : Nat) (bs : List Byte) : drawnBytes k bs.length bs = bs := by
  apply List.ext_getElem
  · simp
  · intro i _ hi
    simp [drawnBytes, hi]

theorem Env.draw_of_bytes {e : Env} {n : Nat} {bs : List Byte} {q : List EntropyAnswer} (hn : n ≠ 0)
    (h : e.entropyQ = .bytes bs :: q) :
    e.draw n = (some (drawnBytes e.draws n bs), { e with entropyQ := q, draws := e.draws + 1 }) := by
  simp [Env.draw, hn, h]

theorem Env.draw_of_fail {e : Env} {n : Nat} {q : List EntropyAnswer} (hn : n ≠ 0) (h : e.entropyQ = .fail :: q) :
    e.draw n = (none, { e with entropyQ := q, draws := e.draws + 1 }) := by
  simp [Env.draw, hn, h]

/-! ### The modular power -/

/-- Square and multiply is exact, with enough bits for the exponent (R250). -/
theorem powModBits_eq {n k b x : Nat} (hx : x < 2 ^ k) : powModBits n k b x = b ^ x % n := by
  induction k generalizing b x with
  | zero =>
    obtain rfl : x = 0 := by simpa using hx
    rfl
  | succ k ih =>
    have hrest : powModBits n k (b * b % n) (x / 2) = b ^ (2 * (x / 2)) % n := by
      rw [ih (by omega), ← Nat.pow_mod, ← Nat.pow_two, ← Nat.pow_mul]
    rw [powModBits, hrest]
    split
    · next hodd =>
      have hsplit : x = 2 * (x / 2) + 1 := by omega
      calc b * (b ^ (2 * (x / 2)) % n) % n = b ^ (2 * (x / 2) + 1) % n := by
            rw [Nat.mul_mod_mod, Nat.pow_succ, Nat.mul_comm]
        _ = b ^ x % n := by rw [← hsplit]
    · next heven => rw [show 2 * (x / 2) = x by omega]

theorem modexp_eq (b x n : Nat) : modexp b x n = b ^ x % n := by
  rw [modexp, powModBits_eq (lt_two_pow_bitLen x), ← Nat.pow_mod]

/-! ### The shortest big-endian form -/

theorem beInt_beBytes (x n : Nat) : beInt (beBytes x n) = x % 256 ^ n := by
  induction n generalizing x with
  | zero => simp [beBytes, Nat.mod_one]
  | succ n ih =>
    have hlast : beInt [BitVec.ofNat 8 x] = x % 256 := by simp [beInt_cons]
    rw [beBytes, beInt_append, ih, hlast, Nat.pow_succ', Nat.mod_mul, List.length_singleton, Nat.pow_one]
    omega

theorem beInt_beMin (x : Nat) : beInt (beMin x) = x := by
  rw [beMin, beInt_beBytes]
  apply Nat.mod_eq_of_lt
  calc x < 2 ^ bitLen x := lt_two_pow_bitLen x
    _ ≤ 2 ^ (8 * max 1 ((bitLen x + 7) / 8)) := Nat.pow_le_pow_right (by omega) (by omega)
    _ = 256 ^ max 1 ((bitLen x + 7) / 8) := by rw [Nat.pow_mul]

/-- No other string has a number's value in fewer bytes, but for the empty string and 0 (R13). -/
theorem beMin_beInt_length_le {s : List Byte} (hs : s ≠ []) : (beMin (beInt s)).length ≤ s.length := by
  have hbits : bitLen (beInt s) ≤ 8 * s.length :=
    bitLen_le_of_lt (by rw [Nat.pow_mul]; exact beInt_lt s)
  have hpos : 0 < s.length := List.length_pos_iff.mpr hs
  rw [beMin_length]
  omega

/-- A leading zero byte could be left out, so the shortest form has none. -/
theorem head_beMin_ne_zero {x : Nat} (hx : x ≠ 0) : (beMin x).head? ≠ some 0 := by
  intro h0
  obtain ⟨s, hs⟩ := List.head?_eq_some_iff.mp h0
  have hval : beInt s = x := by
    have := beInt_beMin x
    rwa [hs, beInt_cons, show (0 : Byte).toNat = 0 from rfl, Nat.zero_mul, Nat.zero_add] at this
  have hne : s ≠ [] := by
    rintro rfl
    exact hx hval.symm
  have hle := beMin_beInt_length_le hne
  rw [hval, hs, List.length_cons] at hle
  omega

end Sys2Proof.Machine

open Sys2Proof.Machine

/-- Settles O22: the cases are those of the answer the source has ready. -/
theorem entropyAnswersEveryDraw : Obligations.EntropyAnswersEveryDraw := by
  unfold Obligations.EntropyAnswersEveryDraw
  refine ⟨Env.draw_zero, ?_, ?_, ?_⟩
  · intro e e' n bs h
    exact Env.draw_length (by rw [h])
  · intro e bs q hq hbs
    rw [Env.draw_of_bytes (by simpa using hbs) hq, drawnBytes_self]
  · intro e n q hq hn
    exact Env.draw_of_fail hn hq

/-- Settles O59: square and multiply by induction on the exponent's bits; the shortest form from the bounds that a string's
length gives its value. -/
theorem modexpIsTheModularPower : Obligations.ModexpIsTheModularPower := by
  unfold Obligations.ModexpIsTheModularPower
  refine ⟨modexp_eq, fun x => ⟨beInt_beMin x, ?_, head_beMin_ne_zero, rfl⟩⟩
  rintro s hs rfl
  exact beMin_beInt_length_le hs

end

section
/-! One access of the host at an offset of the map: what it reads, what it writes, and that a running command is left alone (R31 to R41,
R80 to R87). -/

namespace Sys2Proof.Machine

variable {s t : State}

/-! ### The offsets of the map -/

theorem regAt_r (n : Nat) (i : Fin 4) : regAt n (0x010 + 4 * i.val) = some (.r i) := by
  match i with
  | 0 | 1 | 2 | 3 => rfl

/-! ### An access at an offset -/

section
variable {o : Nat} {reg : Reg} {v : Word}

theorem hostAccess_readAt (hr : s.rst = false) (h4 : o % 4 = 0) (ho : o < 0x20000) :
    hostAccess s (readAt o) = hostRead s o := by
  simp [hostAccess, readAt, Access.served, hr, h4, ho]

theorem hostAccess_writeAt (hr : s.rst = false) (h4 : o % 4 = 0) (ho : o < 0x20000) :
    hostAccess s (writeAt o v) = .next (hostWrite s o v) := by
  simp [hostAccess, writeAt, Access.served, hr, h4, ho]

/-- A read of a register of the map. -/
theorem hostAccess_readAt_reg (hr : s.rst = false) (h4 : o % 4 = 0) (ho : o < 0x20000)
    (hreg : regAt s.cfg.bufBytes o = some reg) : hostAccess s (readAt o) = readReg s reg := by
  rw [hostAccess_readAt hr h4 ho, hostRead, hreg]

/-- A write of a register of the map. -/
theorem hostAccess_writeAt_reg (hr : s.rst = false) (h4 : o % 4 = 0) (ho : o < 0x20000)
    (hreg : regAt s.cfg.bufBytes o = some reg) :
    hostAccess s (writeAt o v) = .next ((writeReg s reg v).answer .ok) := by
  rw [hostAccess_writeAt hr h4 ho, hostWrite, hreg]

/-- A reserved offset reads 0 and ignores writes (R41). -/
theorem hostAccess_reserved (hr : s.rst = false) (h4 : o % 4 = 0) (ho : o < 0x20000)
    (hreg : regAt s.cfg.bufBytes o = none) :
    hostAccess s (readAt o) = .next (s.answer (.data 0)) ∧
      ∀ v, hostAccess s (writeAt o v) = .next (s.answer .ok) := by
  rw [hostAccess_readAt hr h4 ho, hostRead, hreg]
  refine ⟨rfl, fun v => ?_⟩
  rw [hostAccess_writeAt hr h4 ho, hostWrite, hreg]

theorem hostAccess_read_p (hr : s.rst = false) (i : Fin 16) :
    hostAccess s (readAt (0x040 + 4 * i.val)) = .next (s.answer (.data s.p[i])) :=
  hostAccess_readAt_reg hr (by omega) (by omega) (regAt_p _ i)

theorem hostAccess_write_p (hr : s.rst = false) (i : Fin 16) :
    hostAccess s (writeAt (0x040 + 4 * i.val) v) = .next ((writeP s i v).answer .ok) :=
  hostAccess_writeAt_reg hr (by omega) (by omega) (regAt_p _ i)

theorem hostAccess_read_r (hr : s.rst = false) (i : Fin 4) :
    hostAccess s (readAt (0x010 + 4 * i.val)) = .next (s.answer (.data s.r[i])) :=
  hostAccess_readAt_reg hr (by omega) (by omega) (regAt_r _ i)

theorem hostAccess_write_r (hr : s.rst = false) (i : Fin 4) :
    hostAccess s (writeAt (0x010 + 4 * i.val) v) = .next (s.answer .ok) :=
  hostAccess_writeAt_reg hr (by omega) (by omega) (regAt_r _ i)

theorem hostAccess_write_ctrl (hr : s.rst = false) : hostAccess s (writeAt 0x004 v) = .next ((writeCtrl s v).answer .ok) :=
  hostAccess_writeAt_reg (o := 0x004) hr rfl (by decide) rfl

theorem hostAccess_write_cmd (hr : s.rst = false) : hostAccess s (writeAt 0x008 v) = .next ((writeCmd s v).answer .ok) :=
  hostAccess_writeAt_reg (o := 0x008) hr rfl (by decide) rfl

theorem hostAccess_write_status (hr : s.rst = false) :
    hostAccess s (writeAt 0x00C v) = .next (State.answer { s with status := s.status.writeOneClear v } .ok) :=
  hostAccess_writeAt_reg (o := 0x00C) hr rfl (by decide) rfl

theorem hostAccess_read_ctrl (hr : s.rst = false) :
    hostAccess s (readAt 0x004) = .next (s.answer (.data (ctrlWord s.irqEn))) :=
  hostAccess_readAt_reg (o := 0x004) hr rfl (by decide) rfl

theorem hostAccess_read_status (hr : s.rst = false) : hostAccess s (readAt 0x00C) = .next (readStatus s) :=
  hostAccess_readAt_reg (o := 0x00C) hr rfl (by decide) rfl

end

/-! ### Registers while idle and while BUSY, and `STATUS` in each phase -/

section
variable {i : Fin 16} {a : Nat} {v : Word}

theorem writeP_busy (hb : s.status.busy = true) : writeP s i v = s.markHaz := if_pos hb

theorem writeP_idle (hb : s.status.busy = false) : writeP s i v = s.setP i v := if_neg (by simp [hb])

theorem writeCmd_busy (hb : s.status.busy = true) : writeCmd s v = s.markOvr := if_pos hb

theorem writeCmd_idle (hb : s.status.busy = false) : writeCmd s v = s.issue v := if_neg (by simp [hb])

theorem writeBuf_busy (hb : s.status.busy = true) : writeBuf s a v = s.markHaz := if_pos hb

theorem readBuf_busy (hb : s.status.busy = true) : readBuf s a = .next (s.markHaz.answer (.data 0)) := if_pos hb

theorem readStatus_of_stream (h : s.streamRunning = true) :
    readStatus s = s.tickDraw.answer (.data (s.status.word (Config.waitSeen s.env.draws))) := if_pos h

theorem readStatus_of_not_stream (h : s.streamRunning = false) :
    readStatus s = s.answer (.data (s.status.word false)) := if_neg (by simp [h])

end

/-- The buffer window of a legal size ends with the core's own window (R9). -/
theorem bufBytes_le_of_cfgOk (h : s.CfgOk) : s.cfg.bufBytes ≤ 0x10000 := by
  simp only [State.CfgOk, Config.Params.legal, Bool.and_eq_true, decide_eq_true_eq] at h
  omega

/-! ### The words of `STATUS` and `CTRL` -/

/-- `CTRL` reads as `IRQ_EN` and zeros (R33). -/
theorem ctrlWord_bits (b : Bool) : (ctrlWord b).getLsbD 0 = b ∧ (ctrlWord b).extractLsb' 1 31 = 0 := by
  cases b <;> decide

theorem ctrlWord_eq (b : Bool) : ctrlWord b = if b then 1 else 0 := by
  cases b <;> rfl

/-- The word `STATUS` reads as, its single bits one by one. -/
theorem Status.word_eq_concat (st : Status) (b : Bool) :
    st.word b = ((((((((0#16 ++ st.errCode).concat false).concat b).concat st.haz).concat st.ovr).concat
      st.cancelled).concat st.err).concat st.done).concat st.busy := rfl

/-- Where the fields of `STATUS` stand in its word (R35). -/
theorem Status.word_bits (st : Status) (b : Bool) :
    (st.word b).getLsbD 0 = st.busy ∧ (st.word b).getLsbD 1 = st.done ∧ (st.word b).getLsbD 2 = st.err ∧
    (st.word b).getLsbD 3 = st.cancelled ∧ (st.word b).getLsbD 4 = st.ovr ∧ (st.word b).getLsbD 5 = st.haz ∧
    (st.word b).getLsbD 6 = b ∧ (st.word b).getLsbD 7 = false := by
  rw [Status.word_eq_concat]
  simp

/-- Above the single bits stands the error code, and above it zeros. -/
theorem Status.word_getLsbD_high (st : Status) (b : Bool) (i : Nat) :
    (st.word b).getLsbD (8 + i) = st.errCode.getLsbD i := by
  have hi : (0#16 ++ st.errCode).getLsbD i = st.errCode.getLsbD i := by
    rw [BitVec.getLsbD_append]
    split
    · rfl
    · next h => rw [BitVec.getLsbD_zero, BitVec.getLsbD_of_ge _ _ (by omega)]
  rw [Status.word_eq_concat, ← hi, Nat.add_comm 8 i]
  simp only [BitVec.getLsbD_concat_succ]

theorem Status.word_errCode (st : Status) (b : Bool) : (st.word b).extractLsb' 8 8 = st.errCode := by
  apply BitVec.eq_of_getLsbD_eq
  intro i hi
  simp [Status.word_getLsbD_high, hi]

theorem Status.word_reserved (st : Status) (b : Bool) : (st.word b).extractLsb' 16 16 = 0 := by
  apply BitVec.eq_of_getLsbD_eq
  intro i hi
  have h := st.word_getLsbD_high b (8 + i)
  rw [← Nat.add_assoc] at h
  simp [h, hi]

/-! ### A running command and the host -/

/-- An access left the core as it was but for `OVR`, `HAZ` and the flags that report an end; of the environment only the number of the
next free value moved. -/
def State.OnlyFlagged (s t : State) : Prop :=
  ∃ st draws host, t = { s with status := st, env := { s.env with draws := draws }, host := host } ∧
    st.busy = s.status.busy ∧ st.wait = s.status.wait ∧ st.errCode = s.status.errCode

theorem State.OnlyFlagged.answer (h : s.OnlyFlagged t) (a : BusAnswer) : s.OnlyFlagged (t.answer a) := by
  obtain ⟨st, draws, host, rfl, hst⟩ := h
  exact ⟨st, draws, _, rfl, hst⟩

theorem State.onlyFlagged_of_status {st : Status} (hb : st.busy = s.status.busy) (hw : st.wait = s.status.wait)
    (he : st.errCode = s.status.errCode) : s.OnlyFlagged { s with status := st } :=
  ⟨st, s.env.draws, s.host, rfl, hb, hw, he⟩

theorem State.OnlyFlagged.refl (s : State) : s.OnlyFlagged s := State.onlyFlagged_of_status rfl rfl rfl

/-- While BUSY no register write but that of `CTRL` does more than set or clear flags (R34, R36, R40, R86). -/
theorem writeReg_onlyFlagged (hb : s.status.busy = true) {reg : Reg} (hreg : reg ≠ .ctrl) (v : Word) :
    s.OnlyFlagged (writeReg s reg v) := by
  cases reg with
  | ctrl => exact absurd rfl hreg
  | id | r _ | bufsize | nmaxsize => exact .refl s
  | status => exact State.onlyFlagged_of_status rfl rfl rfl
  | cmd =>
    have h : writeReg s .cmd v = s.markOvr := writeCmd_busy hb
    exact h ▸ State.onlyFlagged_of_status rfl rfl rfl
  | p i =>
    have h : writeReg s (.p i) v = s.markHaz := writeP_busy hb
    exact h ▸ State.onlyFlagged_of_status rfl rfl rfl
  | buf a =>
    have h : writeReg s (.buf a) v = s.markHaz := writeBuf_busy hb
    exact h ▸ State.onlyFlagged_of_status rfl rfl rfl

theorem readReg_onlyFlagged {reg : Reg} (h : readReg s reg = .next t) : s.OnlyFlagged t := by
  obtain ⟨v, rfl | ⟨rfl, -⟩ | ⟨rfl, -⟩⟩ := readReg_next h
  · exact (State.OnlyFlagged.refl s).answer _
  · exact ⟨s.status, s.env.draws + 1, _, rfl, rfl, rfl, rfl⟩
  · exact (State.onlyFlagged_of_status (st := s.markHaz.status) rfl rfl rfl).answer _

/-- While BUSY no access but a write of `CTRL` does more than set or clear flags. -/
theorem hostAccess_onlyFlagged {a : Access} (hb : s.status.busy = true) (ha : ¬ (a.write = true ∧ a.offset = 0x004))
    (h : hostAccess s a = .next t) : s.OnlyFlagged t := by
  rcases hostAccess_next h with ⟨-, rfl⟩ | ⟨-, -, rfl⟩ |
    ⟨-, hserved, ⟨hw, ⟨reg, hreg, rfl⟩ | ⟨-, rfl⟩⟩ | ⟨-, ⟨reg, -, h⟩ | ⟨-, rfl⟩⟩⟩
  · exact (State.OnlyFlagged.refl s).answer _
  · exact (State.OnlyFlagged.refl s).answer _
  · have h4 : a.offset % 4 = 0 := by
      simp only [Access.served, Bool.and_eq_true, beq_iff_eq] at hserved
      exact hserved.1.2
    refine (writeReg_onlyFlagged hb ?_ a.value).answer _
    rintro rfl
    exact ha ⟨hw, (regAt_offset h4 hreg).symm⟩
  · exact (State.OnlyFlagged.refl s).answer _
  · exact readReg_onlyFlagged h
  · exact (State.OnlyFlagged.refl s).answer _

/-! ### Reset (R57) -/

theorem State.afterReset_hasResetValues (s : State) : s.afterReset.HasResetValues := by
  refine ⟨rfl, rfl, rfl, ?_, ?_, fun _ => rfl, rfl, rfl, rfl, rfl, rfl, rfl⟩
  · intro i
    simp
  · intro i
    simp

theorem writeCtrl_of_srst {v : Word} (h : v.getLsbD 2 = true) : writeCtrl s v = s.afterReset := if_pos h

theorem writeCtrl_of_not_srst {v : Word} (h : v.getLsbD 2 = false) :
    writeCtrl s v =
      { s with irqEn := v.getLsbD 0, abortPending := s.abortPending || (v.getLsbD 1 && s.streamRunning) } :=
  if_neg (h ▸ Bool.false_ne_true)

/-! ### The interrupt level (R56) -/

theorem State.irq_iff : s.irq = true ↔
    s.irqEn = true ∧ (s.status.done = true ∨ s.status.err = true ∨ s.status.cancelled = true) := by
  simp [State.irq, or_assoc]

theorem State.irq_of_disabled (h : s.irqEn = false) : s.irq = false := by
  simp [State.irq, h]

theorem State.irq_of_clear (h : s.status.Clear) : s.irq = false := by
  obtain ⟨hd, he, hc⟩ := h
  simp [State.irq, hd, he, hc]

end Sys2Proof.Machine

open Sys2Proof Sys2Proof.Machine

/-- Settles O13: while BUSY an access but a write of `CTRL` sets or clears flags, and every other field stays. -/
theorem hostCannotDisturbARunningCommand : Obligations.HostCannotDisturbARunningCommand := by
  unfold Obligations.HostCannotDisturbARunningCommand
  intro s t a hb ha h
  obtain ⟨st, draws, host, rfl, hbusy, hwait, herr⟩ := hostAccess_onlyFlagged hb ha h
  exact ⟨rfl, rfl, rfl, rfl, rfl, rfl, rfl, rfl, rfl, rfl, rfl, rfl, ⟨rfl, rfl, rfl, rfl, rfl⟩, rfl,
    hbusy.trans hb, hwait, herr⟩

/-- Settles O6: each kind of reset is `afterReset`. -/
theorem resetLeavesTheResetValues : Obligations.ResetLeavesTheResetValues := by
  unfold Obligations.ResetLeavesTheResetValues
  refine ⟨State.reset.afterReset_hasResetValues, rfl, fun s => ⟨_, rfl, s.afterReset_hasResetValues, rfl, rfl⟩, ?_,
    fun _ _ => ⟨rfl, rfl, rfl⟩⟩
  intro s v hr hv
  refine ⟨s.afterReset.answer .ok, ?_, s.afterReset_hasResetValues, rfl, rfl⟩
  rw [hostAccess_write_ctrl hr, writeCtrl_of_srst hv]

/-- Settles O7: the reset state is a state right after a command's end, with nothing reported. -/
theorem resetStateMeetsInvariant : Obligations.ResetStateMeetsInvariant := by
  unfold Obligations.ResetStateMeetsInvariant
  have hst : Status.zero.Ended := by simp [Status.Ended, Status.zero]
  exact inv_complete (u := State.reset) rfl ⟨List.Pairwise.nil, fun _ hc => nomatch hc⟩ hst

/-- Settles O9: each offset of the map stands for its register, and an offset between the registers for none. -/
theorem registerReadsFollowTheMap : Obligations.RegisterReadsFollowTheMap := by
  unfold Obligations.RegisterReadsFollowTheMap
  refine ⟨fun s hr => ?_, fun st b => ?_⟩
  · refine ⟨hostAccess_readAt_reg (o := 0x000) hr rfl (by decide) rfl, ctrlWord_eq _ ▸ hostAccess_read_ctrl hr,
      hostAccess_readAt_reg (o := 0x008) hr rfl (by decide) rfl, ?_, hostAccess_read_r hr,
      hostAccess_readAt_reg (o := 0x020) hr rfl (by decide) rfl, hostAccess_readAt_reg (o := 0x024) hr rfl (by decide) rfl,
      hostAccess_read_p hr, ?_, ?_, ?_⟩
    · intro hs
      rw [hostAccess_read_status hr, readStatus_of_not_stream hs]
    · exact fun v => ⟨hostAccess_writeAt_reg (o := 0x000) hr rfl (by decide) rfl, hostAccess_write_r hr,
        hostAccess_writeAt_reg (o := 0x020) hr rfl (by decide) rfl,
        hostAccess_writeAt_reg (o := 0x024) hr rfl (by decide) rfl⟩
    · intro hb i v
      refine ⟨(s.setP i v).answer .ok, ?_, ?_, ?_, rfl⟩
      · rw [hostAccess_write_p hr, writeP_idle hb]
      · simp
      · intro j hj
        have hv : i.val ≠ j.val := fun e => hj (Fin.ext e.symm)
        simp [hv]
    · intro o h4 ho
      exact hostAccess_reserved hr h4 (by omega) (regAt_reserved (by omega))
  · obtain ⟨h0, h1, h2, h3, h4, h5, h6, h7⟩ := st.word_bits b
    exact ⟨h0, h1, h2, h3, h4, h5, h6, h7, st.word_errCode b, st.word_reserved b⟩

/-- Settles O12: while BUSY each of the accesses sets its flag and nothing else. -/
theorem lockedWhileBusy : Obligations.LockedWhileBusy := by
  unfold Obligations.LockedWhileBusy
  intro s hr hcfg hb
  refine ⟨?_, ?_, hostAccess_read_p hr, ?_⟩
  · intro a h4 ha
    have ho : 0x10000 + a < 0x20000 := by
      have := bufBytes_le_of_cfgOk hcfg
      omega
    refine ⟨?_, fun v => ?_⟩
    · rw [hostAccess_readAt_reg hr (by omega) ho (regAt_buf ha), readReg, readBuf_busy hb]; rfl
    · rw [hostAccess_writeAt_reg hr (by omega) ho (regAt_buf ha), writeReg, writeBuf_busy hb]; rfl
  · intro i v
    rw [hostAccess_write_p hr, writeP_busy hb]; rfl
  · intro v
    rw [hostAccess_write_cmd hr, writeCmd_busy hb]; rfl

/-- Settles O14: `STATUS` written, read while no stream command runs, and read while one does. -/
theorem statusWriteOneToClear : Obligations.StatusWriteOneToClear := by
  unfold Obligations.StatusWriteOneToClear
  intro s hr
  refine ⟨fun v => ⟨_, hostAccess_write_status hr, rfl, rfl, rfl, rfl, rfl, rfl, rfl, rfl, rfl⟩, ?_, ?_⟩
  · intro hs
    rw [hostAccess_read_status hr, readStatus_of_not_stream hs]
  · intro hs
    refine ⟨Config.waitSeen s.env.draws, _, hostAccess_read_status hr, ?_⟩
    rw [readStatus_of_stream hs]
    exact ⟨rfl, rfl, rfl, rfl, rfl, rfl, rfl⟩

/-- Settles O16: `CTRL` read, written with `SRST`, and written without. -/
theorem controlWrites : Obligations.ControlWrites := by
  unfold Obligations.ControlWrites
  intro s v hr
  refine ⟨⟨ctrlWord s.irqEn, hostAccess_read_ctrl hr, ctrlWord_bits _⟩, ?_, ?_⟩
  · intro hv
    refine ⟨s.afterReset.answer .ok, ?_, s.afterReset_hasResetValues, rfl⟩
    rw [hostAccess_write_ctrl hr, writeCtrl_of_srst hv]
  · intro hv
    refine ⟨_, hostAccess_write_ctrl hr, ?_⟩
    rw [writeCtrl_of_not_srst hv]
    refine ⟨rfl, ?_, ?_, rfl⟩
    · intro hs ha
      rw [State.answer_abortPending, hs, ha, Bool.true_and, Bool.or_true]
    · rintro (hs | ha)
      · rw [State.answer_abortPending, hs, Bool.and_false, Bool.or_false]
      · rw [State.answer_abortPending, ha, Bool.false_and, Bool.or_false]

/-- Settles O17: the level needs `IRQ_EN` and a reported end, and each of the three writes takes one of the two away. -/
theorem interruptLevel : Obligations.InterruptLevel := by
  unfold Obligations.InterruptLevel
  refine ⟨fun s => State.irq_iff, rfl, ?_, ?_, ?_, fun s => ⟨rfl, rfl⟩⟩
  · intro s t hr h
    rw [hostAccess_write_status hr] at h
    cases h
    exact State.irq_of_clear ⟨Bool.and_false _, Bool.and_false _, Bool.and_false _⟩
  · intro s t v hr hv h
    rw [hostAccess_write_ctrl hr] at h
    cases h
    refine State.irq_of_disabled ?_
    cases hs : v.getLsbD 2 with
    | true => rw [writeCtrl_of_srst hs]; rfl
    | false => rw [writeCtrl_of_not_srst hs]; exact hv
  · intro s t v hr hb h
    rw [hostAccess_write_cmd hr, writeCmd_idle hb] at h
    cases h
    exact State.irq_of_clear ⟨rfl, rfl, rfl⟩

end

section
/-! Who moves the streams: a command at most one byte of its own stream, the host and a reset none (R52, R53, R54, R101). -/

namespace Sys2Proof.Machine

variable {s t u : State}

/-- Whatever a command's step does, at most one byte moves, on the command's own stream and never into a closed one. -/
theorem exec_streams {i : Instr} (h : exec i s = .next t) :
    (t.env.rxQ = s.env.rxQ ∨ (i = .frameRx ∨ i = .rawRx) ∧ ∃ b, s.env.rxQ = b :: t.env.rxQ) ∧
    (t.env.txLog = s.env.txLog ∨
      (i = .frameTx ∨ i = .rawTx) ∧ s.env.txClosed = false ∧ ∃ b, t.env.txLog = s.env.txLog ++ [b]) ∧
    t.env.rxClosed = s.env.rxClosed ∧ t.env.txClosed = s.env.txClosed := by
  cases hi : i.isStream with
  | false =>
    obtain ⟨e, ⟨hrx, hrc, htx, htc, -⟩, h⟩ := exec_compute_end hi h
    have he : t.env = e := by rcases h with ⟨c, -, rfl⟩ | ⟨buf, r, -, rfl⟩ <;> rfl
    rw [he]
    exact ⟨.inl hrx, .inl htx, hrc, htc⟩
  | true =>
    obtain ⟨e, buf, ⟨hrx, htx, hrc, htc, -⟩, -, h⟩ := exec_stream_step hi h
    have he : t.env = e := by
      rcases h with ⟨w, pr, rfl⟩ | ⟨r, rfl⟩ | ⟨r, rfl⟩ | ⟨c, -, r, rfl⟩ <;> rfl
    rw [he]
    exact ⟨hrx, htx, hrc, htc⟩

/-! ### Where the environment may get to -/

/-- `e'` may follow `e`: a closed stream is still closed and gained nothing, and what was sent is still sent. -/
structure Env.MayFollow (e e' : Env) : Prop where
  rx : e.rxClosed = true → e'.rxClosed = true ∧ e'.rxQ <:+ e.rxQ
  tx : e.txClosed = true → e'.txClosed = true ∧ e'.txLog = e.txLog
  log : e.txLog <+: e'.txLog

theorem Env.mayFollow_of_same {e e' : Env} (hrx : e'.rxQ = e.rxQ) (hrc : e.rxClosed = true → e'.rxClosed = true)
    (htx : e'.txLog = e.txLog) (htc : e.txClosed = true → e'.txClosed = true) : e.MayFollow e' :=
  ⟨fun h => ⟨hrc h, hrx ▸ List.suffix_refl _⟩, fun h => ⟨htc h, htx⟩, htx ▸ List.prefix_refl _⟩

theorem Env.MayFollow.refl (e : Env) : e.MayFollow e := Env.mayFollow_of_same rfl id rfl id

theorem exec_mayFollow {i : Instr} (h : exec i s = .next t) : s.env.MayFollow t.env := by
  obtain ⟨hrx, htx, hrc, htc⟩ := exec_streams h
  refine ⟨fun hc => ⟨hrc.trans hc, ?_⟩, fun hc => ⟨htc.trans hc, ?_⟩, ?_⟩
  · rcases hrx with hrx | ⟨-, b, hrx⟩
    · exact hrx ▸ List.suffix_refl _
    · exact hrx ▸ List.suffix_cons b _
  · rcases htx with htx | ⟨-, ho, -⟩
    · exact htx
    · simp [ho] at hc
  · rcases htx with htx | ⟨-, -, b, htx⟩
    · exact htx ▸ List.prefix_refl _
    · exact htx ▸ List.prefix_append _ _

theorem engineStep_mayFollow (h : engineStep s = .next t) : s.env.MayFollow t.env := by
  rcases engineStep_next h with rfl | ⟨why, -, rfl⟩ | ⟨i, -, -, h⟩
  · exact .refl _
  · exact .refl _
  · exact exec_mayFollow h

/-- No register write reaches the environment, a reset by `CTRL` included (R54). -/
theorem writeReg_env (s : State) (reg : Reg) (v : Word) : (writeReg s reg v).env = s.env := by
  cases reg with
  | id | status | r _ | bufsize | nmaxsize => rfl
  | ctrl => unfold writeReg writeCtrl; dsimp only; split <;> rfl
  | cmd => unfold writeReg writeCmd; dsimp only; split <;> rfl
  | p i => unfold writeReg writeP; dsimp only; split <;> rfl
  | buf a => unfold writeReg writeBuf; dsimp only; split <;> rfl

/-- Of the environment an access moves at most the number of the next free value. -/
theorem hostAccess_env {a : Access} (h : hostAccess s a = .next t) : ∃ n, t.env = { s.env with draws := n } := by
  rcases hostAccess_next h with ⟨-, rfl⟩ | ⟨-, -, rfl⟩ |
    ⟨-, -, ⟨-, ⟨reg, -, rfl⟩ | ⟨-, rfl⟩⟩ | ⟨-, ⟨reg, -, h⟩ | ⟨-, rfl⟩⟩⟩
  · exact ⟨s.env.draws, rfl⟩
  · exact ⟨s.env.draws, rfl⟩
  · exact ⟨s.env.draws, writeReg_env s reg a.value⟩
  · exact ⟨s.env.draws, rfl⟩
  · obtain ⟨v, rfl | ⟨rfl, -⟩ | ⟨rfl, -⟩⟩ := readReg_next h
    · exact ⟨s.env.draws, rfl⟩
    · exact ⟨s.env.draws + 1, rfl⟩
    · exact ⟨s.env.draws, rfl⟩
  · exact ⟨s.env.draws, rfl⟩

theorem hostAccess_mayFollow {a : Access} (h : hostAccess s a = .next t) : s.env.MayFollow t.env := by
  obtain ⟨n, hn⟩ := hostAccess_env h
  exact hn ▸ Env.mayFollow_of_same rfl id rfl id

theorem hostProgramStep_mayFollow (h : hostProgramStep s = .next t) : s.env.MayFollow t.env := by
  rcases hostProgramStep_next h with rfl | ⟨op, u, hu, rfl⟩
  · exact .refl _
  · obtain ⟨host, hh⟩ := afterLine_eq op u
    rw [hh]
    exact (hostAccess_mayFollow hu :)

/-- A byte is appended to an open stream only (R52). -/
theorem State.rxAppend_mayFollow (s : State) (b : Byte) : s.env.MayFollow (s.rxAppend b).env := by
  unfold State.rxAppend
  split
  · exact .refl _
  · next ho => exact ⟨fun hc => absurd hc ho, fun hc => ⟨hc, rfl⟩, List.prefix_refl _⟩

theorem eventStep_mayFollow {e : Event} (h : eventStep e s = .next t) : s.env.MayFollow t.env := by
  cases e with
  | engine => exact engineStep_mayFollow h
  | access a => exact hostAccess_mayFollow h
  | hostLine => exact hostProgramStep_mayFollow h
  | rxByte b => cases h; exact s.rxAppend_mayFollow b
  | rxClose => cases h; exact Env.mayFollow_of_same rfl (fun _ => rfl) rfl id
  | txReady n => cases h; exact Env.mayFollow_of_same rfl id rfl id
  | txClose => cases h; exact Env.mayFollow_of_same rfl id rfl (fun _ => rfl)
  | entropy a => cases h; exact Env.mayFollow_of_same rfl id rfl id
  | rstAssert => cases h; exact .refl _
  | rstRelease => cases h; exact .refl _

theorem step_mayFollow (h : step s = .next t) : s.env.MayFollow t.env := by
  rcases step_next h with ⟨-, h⟩ | ⟨e, rest, -, h⟩
  · exact engineStep_mayFollow h
  · exact (eventStep_mayFollow h :)

end Sys2Proof.Machine

open Sys2Proof.Machine

/-- Settles O41: a compute command moves no byte, a step of a stream command at most one of its own stream. -/
theorem streamsMoveOnlyByTheirCommands : Obligations.StreamsMoveOnlyByTheirCommands := by
  unfold Obligations.StreamsMoveOnlyByTheirCommands
  intro i s t h
  obtain ⟨hrx, htx, hclosed⟩ := exec_streams h
  exact ⟨hrx, htx.imp_right (fun ⟨hi, _, hb⟩ => ⟨hi, hb⟩), hclosed⟩

/-- Settles O42: over each kind of move the environment gets only to where it may. -/
theorem closedStreamsStayClosed : Obligations.ClosedStreamsStayClosed := by
  unfold Obligations.ClosedStreamsStayClosed
  intro s t h
  obtain ⟨hrx, htx, hlog⟩ := step_mayFollow h
  exact ⟨hrx, htx, hlog⟩

end

section
/-! What no command reads: the live parameter registers (R46) and, for a compute command, the key storage (R45, R182).  A change of
them passes through a command: it neither alters its course nor is lost but where the command clears the key storage. -/

namespace Sys2Proof.Machine

/-- The answer with its next state, if it has one, changed by `f`. -/
def mapNext (f : State → State) : Result → Result
  | .next t => .next (f t)
  | .fault r => .fault r
  | .refused r => .refused r

/-- The live parameter registers changed by `fp`, the key storage by `fk`. -/
def State.changed (fp : Vector Word 16 → Vector Word 16) (fk : Option KeyStore → Option KeyStore) (s : State) : State :=
  { s with p := fp s.p, keyStore := fk s.keyStore }

theorem mapNext_changed_id (r : Result) : mapNext (State.changed id id) r = r := by
  cases r <;> rfl

variable {s : State} {fp : Vector Word 16 → Vector Word 16} {fk : Option KeyStore → Option KeyStore}

/-! ### The operations a command is made of -/

/-- The end of a command clears the key storage, so of the change only that of the registers is left. -/
theorem changed_complete (s : State) (st : Status) :
    (s.changed fp fk).complete st = (s.complete st).changed fp id := rfl

theorem changed_raise (s : State) (e : ErrCode) : (s.changed fp fk).raise e = (s.raise e).changed fp id := changed_complete s _

section
variable {k k' : Result}

/-- A branch on what the change leaves alone. -/
theorem ite_changed {P P' : Prop} [Decidable P] [Decidable P'] {l l' : Result} (hP : P' ↔ P)
    (hk : k' = mapNext (State.changed fp id) k) (hl : l' = mapNext (State.changed fp id) l) :
    (if P' then k' else l') = mapNext (State.changed fp id) (if P then k else l) := by
  by_cases h : P
  · rw [if_pos h, if_pos (hP.mpr h), hk]
  · rw [if_neg h, if_neg (mt hP.mp h), hl]

theorem checkRegions_changed {rs : List (Nat × Nat)} (h : k' = mapNext (State.changed fp id) k) :
    checkRegions (s.changed fp fk) rs k' = mapNext (State.changed fp id) (checkRegions s rs k) := by
  have hin : RegionsIn (s.changed fp fk) rs ↔ RegionsIn s rs := Iff.rfl
  by_cases hr : RegionsIn s rs
  · rw [checkRegions_of_in hr, checkRegions_of_in (hin.mpr hr), h]
  · rw [checkRegions_of_not_in hr, checkRegions_of_not_in (mt hin.mp hr), changed_raise]
    rfl

theorem checkLens_changed {ls : List Nat} (h : k' = mapNext (State.changed fp id) k) :
    checkLens (s.changed fp fk) ls k' = mapNext (State.changed fp id) (checkLens s ls k) := by
  have hin : LensIn (s.changed fp fk) ls ↔ LensIn s ls := Iff.rfl
  by_cases hl : LensIn s ls
  · rw [checkLens_of_in hl, checkLens_of_in (hin.mpr hl), h]
  · rw [checkLens_of_not_in hl, checkLens_of_not_in (mt hin.mp hl), changed_raise]
    rfl

theorem checkCtLen_changed {n : Nat} (h : k' = mapNext (State.changed fp id) k) :
    checkCtLen (s.changed fp fk) n k' = mapNext (State.changed fp id) (checkCtLen s n k) := by
  unfold checkCtLen
  split
  · rfl
  · exact h

end

section
variable {k k' : List Byte → Result}

theorem memRead_changed {a n : Nat} (h : ∀ bs, k' bs = mapNext (State.changed fp id) (k bs)) :
    memRead (s.changed fp fk) a n k' = mapNext (State.changed fp id) (memRead s a n k) := by
  cases hb : s.buf.readBytes a n with
  | some bs => rw [memRead_of_some hb, memRead_of_some (s := s.changed fp fk) hb, h]
  | none => rw [memRead_of_none hb, memRead_of_none (s := s.changed fp fk) hb, mapNext]

theorem memReadIf_changed {c : Bool} {a n : Nat} (h : ∀ bs, k' bs = mapNext (State.changed fp id) (k bs)) :
    memReadIf c (s.changed fp fk) a n k' = mapNext (State.changed fp id) (memReadIf c s a n k) := by
  cases c with
  | true => exact memRead_changed h
  | false => exact h []

end

section
variable {k k' : List Byte → State → Result}

theorem drawEntropy_changed {n : Nat} (h : ∀ bs u, k' bs (u.changed fp fk) = mapNext (State.changed fp id) (k bs u)) :
    drawEntropy (s.changed fp fk) n k' = mapNext (State.changed fp id) (drawEntropy s n k) := by
  cases hd : s.env.draw n with
  | mk ans e =>
    cases ans with
    | some bs =>
      rw [drawEntropy_of_eq_some hd, drawEntropy_of_eq_some (s := s.changed fp fk) hd]
      exact h bs (s.withEnv e)
    | none =>
      rw [drawEntropy_of_eq_none hd, drawEntropy_of_eq_none (s := s.changed fp fk) hd]
      rfl

theorem givenOrDrawn_changed {given : Bool} {bs : List Byte} {n : Nat}
    (h : ∀ v u, k' v (u.changed fp fk) = mapNext (State.changed fp id) (k v u)) :
    givenOrDrawn given bs n (s.changed fp fk) k' = mapNext (State.changed fp id) (givenOrDrawn given bs n s k) := by
  cases given with
  | true => exact h bs s
  | false => exact drawEntropy_changed h

end

/-! ### The compute commands -/

theorem exec_compute_changed {i : Instr} (hi : i.isStream = false) :
    exec i (s.changed fp fk) = mapNext (State.changed fp id) (exec i s) := by
  cases i with
  | nop => rfl
  | rngFill => exact checkRegions_changed (drawEntropy_changed fun v u => rfl)
  | sha256 => exact checkRegions_changed (memRead_changed fun m => rfl)
  | kexp => exact checkRegions_changed (memRead_changed fun key => rfl)
  | aesEnc => exact checkRegions_changed (memRead_changed fun key => memRead_changed fun x => rfl)
  | aesDec => exact checkRegions_changed (memRead_changed fun key => memRead_changed fun y => rfl)
  | cbcEnc isrc =>
    refine checkRegions_changed (memRead_changed fun key => memRead_changed fun x => memReadIf_changed fun ivIn =>
      givenOrDrawn_changed fun iv u => ?_)
    cases isrc <;> rfl
  | cbcDec =>
    exact checkCtLen_changed (checkRegions_changed
      (memRead_changed fun key => memRead_changed fun y => memRead_changed fun iv => rfl))
  | modexp =>
    refine checkLens_changed (checkRegions_changed
      (memRead_changed fun b => memRead_changed fun x => memRead_changed fun n => ite_changed .rfl ?_ ?_))
    · rfl
    · rfl
  | hybEnc isrc ksrc =>
    refine checkLens_changed (checkRegions_changed
      (memRead_changed fun x => memRead_changed fun n => memRead_changed fun e =>
        memReadIf_changed fun ivIn => memReadIf_changed fun keyIn => ite_changed .rfl ?_ ?_))
    · rfl
    · refine givenOrDrawn_changed fun key u => givenOrDrawn_changed fun iv u => ?_
      cases isrc <;> rfl
  | hybDec =>
    refine checkLens_changed (checkCtLen_changed (checkRegions_changed
      (memRead_changed fun y => memRead_changed fun c => memRead_changed fun iv => memRead_changed fun n =>
        memRead_changed fun d => ite_changed .rfl ?_ ?_)))
    · rfl
    · split <;> rfl
  | frameTx | frameRx | rawTx | rawRx => cases hi

/-! ### The stream commands -/

theorem rxTake_changed {aborted closed : State → State} {k k' : Byte → State → Result}
    (ha : ∀ u, aborted (u.changed fp id) = (aborted u).changed fp id)
    (hc : ∀ u, closed (u.changed fp id) = (closed u).changed fp id)
    (h : ∀ b u, k' b (u.changed fp id) = mapNext (State.changed fp id) (k b u)) :
    rxTake (s.changed fp id) aborted closed k' = mapNext (State.changed fp id) (rxTake s aborted closed k) := by
  cases hab : s.abortPending with
  | true =>
    rw [rxTake_of_abort hab, rxTake_of_abort (s := s.changed fp id) hab]
    exact congrArg Host.Outcome.next (ha s.unheld)
  | false =>
    cases hq : s.env.rxQ with
    | cons b q =>
      rw [rxTake_of_byte hab hq, rxTake_of_byte (s := s.changed fp id) hab hq]
      exact h b (s.unheld.withEnv { s.env with rxQ := q })
    | nil =>
      cases hcl : s.env.rxClosed with
      | true =>
        rw [rxTake_of_closed hab hq hcl, rxTake_of_closed (s := s.changed fp id) hab hq hcl]
        exact congrArg Host.Outcome.next (hc s.unheld)
      | false =>
        rw [rxTake_of_empty hab hq hcl, rxTake_of_empty (s := s.changed fp id) hab hq hcl]
        rfl

theorem txPut_changed {b : Byte} {aborted closed : State → State} {k k' : State → Result}
    (ha : ∀ u, aborted (u.changed fp id) = (aborted u).changed fp id)
    (hc : ∀ u, closed (u.changed fp id) = (closed u).changed fp id)
    (h : ∀ u, k' (u.changed fp id) = mapNext (State.changed fp id) (k u)) :
    txPut (s.changed fp id) b aborted closed k' = mapNext (State.changed fp id) (txPut s b aborted closed k) := by
  cases hab : s.abortPending with
  | true =>
    rw [txPut_of_abort hab, txPut_of_abort (s := s.changed fp id) hab]
    exact congrArg Host.Outcome.next (ha s.unheld)
  | false =>
    cases hcl : s.env.txClosed with
    | true =>
      rw [txPut_of_closed hab hcl, txPut_of_closed (s := s.changed fp id) hab hcl]
      exact congrArg Host.Outcome.next (hc s.unheld)
    | false =>
      cases hn : s.env.txCredit with
      | zero =>
        rw [txPut_of_no_credit hab hcl hn, txPut_of_no_credit (s := s.changed fp id) hab hcl hn]
        rfl
      | succ c =>
        rw [txPut_of_credit hab hcl hn, txPut_of_credit (s := s.changed fp id) hab hcl hn]
        exact h (s.unheld.withEnv { s.env with txLog := s.env.txLog ++ [b], txCredit := c })

theorem sendStep_changed {framed : Bool} {n : Nat} :
    sendStep (s.changed fp id) framed n = mapNext (State.changed fp id) (sendStep s framed n) := by
  have hp : (s.changed fp id).progress = s.progress := rfl
  simp only [sendStep, hp]
  split
  · rfl
  · next b rest _ =>
    refine txPut_changed (fun _ => ?_) (fun _ => ?_) fun u => ?_
    · rfl
    · rfl
    · cases rest <;> rfl

theorem receiveStep_changed {dst n : Nat} :
    receiveStep (s.changed fp id) dst n = mapNext (State.changed fp id) (receiveStep s dst n) := by
  unfold receiveStep
  refine rxTake_changed (fun _ => ?_) (fun _ => ?_) fun b u => ite_changed .rfl ?_ ?_
  · rfl
  · rfl
  · rfl
  · rfl

theorem headerStep_changed {cap : Nat} :
    headerStep (s.changed fp id) cap = mapNext (State.changed fp id) (headerStep s cap) := by
  unfold headerStep
  refine rxTake_changed (fun _ => ?_) (fun _ => ?_) fun b u =>
    ite_changed .rfl ?_ (ite_changed .rfl ?_ (ite_changed .rfl ?_ ?_))
  · rfl
  · rfl
  · rfl
  · rfl
  · rfl
  · rfl

/-- A step of a stream command need not end it, so here the key storage is as it was. -/
theorem exec_stream_changed {i : Instr} (hi : i.isStream = true) :
    exec i (s.changed fp id) = mapNext (State.changed fp id) (exec i s) := by
  cases i with
  | frameTx =>
    exact ite_changed .rfl sendStep_changed (checkRegions_changed (memRead_changed fun bs => rfl))
  | frameRx =>
    exact ite_changed .rfl (ite_changed .rfl headerStep_changed receiveStep_changed) (checkRegions_changed rfl)
  | rawTx =>
    exact ite_changed .rfl sendStep_changed
      (checkRegions_changed (memRead_changed fun bs => ite_changed .rfl rfl rfl))
  | rawRx => exact ite_changed .rfl receiveStep_changed (checkRegions_changed (ite_changed .rfl rfl rfl))
  | nop | rngFill | sha256 | kexp | aesEnc | aesDec | cbcEnc | cbcDec | modexp | hybEnc | hybDec => cases hi

end Sys2Proof.Machine

open Sys2Proof Sys2Proof.Machine

/-- Settles O44: a change of the live registers alone passes through every command. -/
theorem commandsReadOnlyTheSnapshot : Obligations.CommandsReadOnlyTheSnapshot := by
  unfold Obligations.CommandsReadOnlyTheSnapshot
  intro i s t v h
  have hmap : exec i (s.changed (fun _ => v) id) = mapNext (State.changed (fun _ => v) id) (exec i s) := by
    cases hi : i.isStream with
    | false => exact exec_compute_changed hi
    | true => exact exec_stream_changed hi
  rw [h] at hmap
  exact hmap

/-- Settles O43: a change of the key storage alone is lost at a compute command's end. -/
theorem keyStorageHasNoEffect : Obligations.KeyStorageHasNoEffect := by
  unfold Obligations.KeyStorageHasNoEffect
  intro i s k hi
  have hmap : exec i (s.changed id fun _ => k) = mapNext (State.changed id id) (exec i s) := exec_compute_changed hi
  rwa [mapNext_changed_id] at hmap

end

section
/-! The order every command keeps: operand lengths, ciphertext length, regions, then its inputs, then its draws (R90, R332); the fault
of an input byte without a value (R42), and the failure of a draw (R55). -/

namespace Sys2Proof.Machine

variable {s t : State}

/-! ### Errors and what they leave alone -/

/-- An error after some draws changes nothing else (R335, R341). -/
theorem failsPrecisely_raise {e : Env} (he : s.env.OnlyDrew e) (c : ErrCode) :
    s.FailsPrecisely ((s.withEnv e).raise c) c := by
  obtain ⟨hrx, hrc, htx, htc, hcr, -⟩ := he
  exact ⟨⟨rfl, rfl, rfl, rfl, rfl, rfl, rfl, rfl⟩, ⟨hrx, hrc, htx, htc, hcr⟩, rfl, rfl, endedErr_raise (.inl rfl)⟩

/-- A draw that fails has taken at most the answer that says so. -/
theorem Env.onlyDrew_of_draw {e e' : Env} {n : Nat} {ans : Option (List Byte)} (h : e.draw n = (ans, e')) :
    e.OnlyDrew e' := by
  have hd := e.draw_onlyDrew n
  rwa [h] at hd

/-! ### Inputs -/

/-- Some region of a list has a byte without a value (R42). -/
def Unreadable (s : State) (rs : List (Nat × Nat)) : Prop := ∃ g ∈ rs, s.buf.readBytes g.1 g.2 = none

theorem unreadable_nil : ¬ Unreadable s [] := by simp [Unreadable]

theorem unreadable_cons {a n : Nat} {rs : List (Nat × Nat)} :
    Unreadable s ((a, n) :: rs) ↔ s.buf.readBytes a n = none ∨ Unreadable s rs := by
  simp [Unreadable]

theorem inputUnwritten_iff {i : Instr} : s.InputUnwritten i ↔ Unreadable s (inputsOf i s) := by
  simp only [State.InputUnwritten, Unreadable, Memory.readBytes_eq_none_iff]

/-- The answer is the fault of an unwritten byte exactly when a region of the list has such a byte. -/
def FaultsOn (s : State) (rs : List (Nat × Nat)) (k : Result) : Prop := k = .fault .unwrittenByte ↔ Unreadable s rs

theorem FaultsOn.iff {rs : List (Nat × Nat)} {k : Result} (h : FaultsOn s rs k) :
    k = .fault .unwrittenByte ↔ Unreadable s rs := h

theorem faultsOn_nil {k : Result} (h : k ≠ .fault .unwrittenByte) : FaultsOn s [] k := iff_of_false h unreadable_nil

theorem FaultsOn.memRead {a n : Nat} {rs : List (Nat × Nat)} {k : List Byte → Result} (h : ∀ bs, FaultsOn s rs (k bs)) :
    FaultsOn s ((a, n) :: rs) (memRead s a n k) := (memRead_fault_iff h).trans unreadable_cons.symm

theorem FaultsOn.memReadIf {c : Bool} {a n : Nat} {rs : List (Nat × Nat)} {k : List Byte → Result}
    (h : ∀ bs, FaultsOn s rs (k bs)) : FaultsOn s ((if c then [(a, n)] else []) ++ rs) (memReadIf c s a n k) := by
  cases c with
  | true => exact .memRead h
  | false => exact h []

/-! ### The checks of every command -/

/-- What a command answers that makes its checks in the order of R332 and then goes on as `k`. -/
def afterChecks (i : Instr) (s : State) (k : Result) : Result :=
  checkLens s (rsaLensOf i s) ((ctLensOf i s).foldr (checkCtLen s) (checkRegions s (regionsOf i s) k))

theorem foldr_checkCtLen_of_ok {ns : List Nat} {k : Result} (h : ∀ n ∈ ns, n ≠ 0 ∧ n % 16 = 0) :
    ns.foldr (checkCtLen s) k = k := by
  induction ns with
  | nil => rfl
  | cons n ns ih =>
    obtain ⟨⟨h0, hm⟩, hns⟩ := List.forall_mem_cons.mp h
    rw [List.foldr_cons, checkCtLen_of_ok h0 hm, ih hns]

theorem foldr_checkCtLen_fault_iff {ns : List Nat} {k : Result} {f : Fault} :
    ns.foldr (checkCtLen s) k = .fault f ↔ (∀ n ∈ ns, n ≠ 0 ∧ n % 16 = 0) ∧ k = .fault f := by
  induction ns with
  | nil => simp
  | cons n ns ih => rw [List.foldr_cons, checkCtLen_fault_iff, ih, List.forall_mem_cons, ← and_assoc]

theorem afterChecks_of_ok {i : Instr} {k : Result} (hl : s.LensOk i) (hc : s.CtLenOk i) (hr : s.RegionsOk i) :
    afterChecks i s k = k := by
  rw [afterChecks, checkLens_of_in hl, foldr_checkCtLen_of_ok hc, checkRegions_of_in hr]

theorem afterChecks_of_regions_bad {i : Instr} {k : Result} (hl : s.LensOk i) (hc : s.CtLenOk i) (hr : ¬ s.RegionsOk i) :
    afterChecks i s k = .next (s.raise .ebounds) := by
  rw [afterChecks, checkLens_of_in hl, foldr_checkCtLen_of_ok hc, checkRegions_of_not_in hr]

theorem afterChecks_fault_iff {i : Instr} {k : Result} {f : Fault} :
    afterChecks i s k = .fault f ↔ s.LensOk i ∧ s.CtLenOk i ∧ s.RegionsOk i ∧ k = .fault f := by
  rw [afterChecks, checkLens_fault_iff, foldr_checkCtLen_fault_iff, checkRegions_fault_iff]
  rfl

/-- Every command makes its checks and then faults exactly on an unwritten input byte; a stream command does so in its bounds-check
step. -/
theorem exec_eq_afterChecks (i : Instr) (s : State) (hs : i.isStream = true → s.progress.checked = false) :
    ∃ k, exec i s = afterChecks i s k ∧ FaultsOn s (inputsOf i s) k := by
  cases i with
  | nop => exact ⟨_, rfl, faultsOn_nil (by simp)⟩
  | rngFill => exact ⟨_, rfl, faultsOn_nil (drawEntropy_ne_fault fun v u => by simp)⟩
  | sha256 => exact ⟨_, rfl, .memRead fun m => faultsOn_nil (by simp)⟩
  | kexp => exact ⟨_, rfl, .memRead fun key => faultsOn_nil (by simp [withKey])⟩
  | aesEnc => exact ⟨_, rfl, .memRead fun key => .memRead fun x => faultsOn_nil (by simp [withKey])⟩
  | aesDec => exact ⟨_, rfl, .memRead fun key => .memRead fun y => faultsOn_nil (by simp [withKey])⟩
  | cbcEnc isrc =>
    refine ⟨_, rfl, ?_⟩
    rw [inputsOf, ← List.append_nil (if isrc = true then _ else _)]
    exact .memRead fun key => .memRead fun x => .memReadIf fun ivIn =>
      faultsOn_nil (givenOrDrawn_ne_fault fun iv u => by simp [withKey])
  | cbcDec =>
    exact ⟨_, rfl, .memRead fun key => .memRead fun y => .memRead fun iv => faultsOn_nil (by simp [withKey])⟩
  | modexp =>
    refine ⟨_, rfl, .memRead fun b => .memRead fun x => .memRead fun n => faultsOn_nil ?_⟩
    split <;> simp
  | hybEnc isrc ksrc =>
    refine ⟨_, rfl, ?_⟩
    rw [inputsOf, List.append_assoc, ← List.append_nil (if ksrc = true then _ else _)]
    refine .memRead fun x => .memRead fun n => .memRead fun e => .memReadIf fun ivIn => .memReadIf fun keyIn =>
      faultsOn_nil ?_
    split
    · simp
    · exact givenOrDrawn_ne_fault fun key u => givenOrDrawn_ne_fault fun iv u => by simp [withKey]
  | hybDec =>
    refine ⟨_, rfl, .memRead fun y => .memRead fun c => .memRead fun iv => .memRead fun n => .memRead fun d =>
      faultsOn_nil ?_⟩
    split
    · simp
    · split <;> simp [withKey]
  | frameTx => exact ⟨_, if_neg (by simp [hs rfl]), .memRead fun bs => faultsOn_nil (by simp)⟩
  | frameRx => exact ⟨_, if_neg (by simp [hs rfl]), faultsOn_nil (by simp)⟩
  | rawTx =>
    refine ⟨_, if_neg (by simp [hs rfl]), .memRead fun bs => faultsOn_nil ?_⟩
    split <;> simp
  | rawRx =>
    refine ⟨_, if_neg (by simp [hs rfl]), faultsOn_nil ?_⟩
    split <;> simp

/-- Past its bounds check a stream command never stops with a fault. -/
theorem exec_stream_ne_fault {i : Instr} (hi : i.isStream = true) (hc : s.progress.checked = true) {f : Fault} :
    exec i s ≠ .fault f := by
  cases i with
  | frameTx => exact fun h => sendStep_ne_fault ((if_pos hc).symm.trans h)
  | frameRx =>
    intro h
    replace h := (if_pos hc).symm.trans h
    split at h
    · exact headerStep_ne_fault h
    · exact receiveStep_ne_fault h
  | rawTx => exact fun h => sendStep_ne_fault ((if_pos hc).symm.trans h)
  | rawRx => exact fun h => receiveStep_ne_fault ((if_pos hc).symm.trans h)
  | nop | rngFill | sha256 | kexp | aesEnc | aesDec | cbcEnc | cbcDec | modexp | hybEnc | hybDec => cases hi

/-! ### Draws -/

/-- HYB_ENC with its lengths and regions in order and its inputs read: its two draws come next, the key's and then the IV's (R273). -/
theorem execHybEnc_of_inputs {isrc ksrc : Bool} {x n ex key iv : List Byte} (hl : s.LensOk (.hybEnc isrc ksrc))
    (hr : s.RegionsOk (.hybEnc isrc ksrc)) (hx : s.buf.readBytes (s.param 0) (s.param 1) = some x)
    (hn : s.buf.readBytes (s.param 2) (s.param 3) = some n) (hex : s.buf.readBytes (s.param 4) (s.param 5) = some ex)
    (hiv : isrc = true → s.buf.readBytes (s.param 8) 16 = some iv)
    (hkey : ksrc = true → s.buf.readBytes (s.param 9) 32 = some key) (h0 : beInt n ≠ 0) :
    ∃ (ivIn keyIn : List Byte) (k : List Byte → List Byte → State → Result), (ksrc = true → keyIn = key) ∧
      exec (.hybEnc isrc ksrc) s =
        givenOrDrawn ksrc keyIn 32 s fun key u => givenOrDrawn isrc ivIn 16 u (k key) := by
  have hchecks : exec (.hybEnc isrc ksrc) s = _ := (checkLens_of_in hl).trans (checkRegions_of_in hr)
  obtain ⟨ivIn, -, hiv⟩ := memReadIf_of hiv
  obtain ⟨keyIn, hkeyIn, hkey⟩ := memReadIf_of hkey
  exact ⟨ivIn, keyIn, _, hkeyIn, hchecks.trans ((memRead_of_some hx).trans ((memRead_of_some hn).trans
    ((memRead_of_some hex).trans (hiv.trans (hkey.trans (if_neg h0))))))⟩

end Sys2Proof.Machine

open Sys2Proof Sys2Proof.Machine

/-- Settles O32: every command makes its checks first, and then reads its inputs. -/
theorem regionOutsideTheBufferIsEbounds : Obligations.RegionOutsideTheBufferIsEbounds := by
  unfold Obligations.RegionOutsideTheBufferIsEbounds
  refine ⟨fun s i hp hl hc hr => ?_, fun s i => ?_⟩
  · obtain ⟨k, hk, -⟩ := exec_eq_afterChecks i s fun _ => hp
    exact ⟨_, hk.trans (afterChecks_of_regions_bad hl hc hr), failsPrecisely_raise (.refl s.env) _⟩
  · by_cases hs : i.isStream = true → s.progress.checked = false
    · obtain ⟨k, hk, hf⟩ := exec_eq_afterChecks i s hs
      rw [hk, afterChecks_fault_iff, hf.iff, inputUnwritten_iff, and_iff_right hs]
    · obtain ⟨hi, hc⟩ := Classical.not_imp.mp hs
      exact iff_of_false (exec_stream_ne_fault hi (by simpa using hc)) fun h => hs h.1

/-- Settles O36: with its checks passed and its inputs read, a command that draws ends at a draw that fails. -/
theorem failedDrawIsErng : Obligations.FailedDrawIsErng := by
  unfold Obligations.FailedDrawIsErng
  refine ⟨?_, ?_, ?_, ?_⟩
  · intro s e hr hd
    exact ⟨_, (checkRegions_of_in hr).trans (drawEntropy_of_eq_none hd),
      failsPrecisely_raise (Env.onlyDrew_of_draw hd) _, rfl⟩
  · intro s key x e hr hkey hx hd
    refine ⟨_, (checkRegions_of_in hr).trans ?_, failsPrecisely_raise (Env.onlyDrew_of_draw hd) _, rfl⟩
    exact (memRead_of_some hkey).trans ((memRead_of_some hx).trans
      (memReadIf_false.trans (givenOrDrawn_false.trans (drawEntropy_of_eq_none hd))))
  · intro s isrc x n ex iv e hl hr hx hn hex hiv h0 hd
    obtain ⟨ivIn, keyIn, k, -, h⟩ := execHybEnc_of_inputs (key := []) hl hr hx hn hex hiv (by simp) h0
    exact ⟨_, h.trans (givenOrDrawn_false.trans (drawEntropy_of_eq_none hd)),
      failsPrecisely_raise (Env.onlyDrew_of_draw hd) _, rfl⟩
  · intro s ksrc x n ex key e1 e2 hl hr hx hn hex h0 hkey hd
    have hread : ksrc = true → s.buf.readBytes (s.param 9) 32 = some key := by
      rintro rfl
      exact hkey.1
    obtain ⟨ivIn, keyIn, k, hkeyIn, h⟩ := execHybEnc_of_inputs (iv := []) hl hr hx hn hex (by simp) hread h0
    have hgiven : if ksrc then keyIn = key ∧ e1 = s.env else s.env.draw 32 = (some key, e1) := by
      cases ksrc with
      | true => exact ⟨hkeyIn rfl, hkey.2⟩
      | false => exact hkey
    have hdrew : s.env.OnlyDrew e1 := by
      cases ksrc with
      | true => exact hkey.2 ▸ .refl s.env
      | false => exact Env.onlyDrew_of_draw hkey
    exact ⟨_, h.trans ((givenOrDrawn_of hgiven).trans (drawEntropy_of_eq_none (s := s.withEnv e1) hd)),
      failsPrecisely_raise (hdrew.trans (Env.onlyDrew_of_draw hd)) _, rfl⟩

end

section
/-! The host's accesses while idle: which are refused, the lanes of the buffer window, and that a read can be repeated (R81, R82, R85). -/

namespace Sys2Proof.Machine

variable {s t : State}

/-! ### Served and refused accesses -/

theorem Access.served_iff {a : Access} : a.served = true ↔ a.size = 4 ∧ a.offset % 4 = 0 ∧ a.offset < 0x20000 := by
  simp [Access.served, and_assoc]

theorem Access.not_served_of {a : Access} (h : a.size ≠ 4 ∨ a.offset % 4 ≠ 0 ∨ 0x20000 ≤ a.offset) : a.served = false := by
  rw [Bool.eq_false_iff, ne_eq, Access.served_iff]
  omega

theorem hostAccess_of_not_served {a : Access} (hr : s.rst = false) (ha : a.served = false) :
    hostAccess s a = .next (s.answer .busError) := by
  simp [hostAccess, hr, ha]

/-- A served access at a reserved offset, whatever its value (R41). -/
theorem hostAccess_of_reserved {a : Access} (hr : s.rst = false) (ha : a.served = true)
    (hreg : regAt s.cfg.bufBytes a.offset = none) :
    hostAccess s a = .next (s.answer (if a.write then .ok else .data 0)) := by
  simp only [hostAccess, hr, ha, hostWrite, hostRead, hreg]
  cases a.write <;> rfl

theorem readReg_answers_data {reg : Reg} (h : readReg s reg = .next t) : ∃ v, t.host.bus = .data v := by
  obtain ⟨v, rfl | ⟨rfl, -⟩ | ⟨rfl, -⟩⟩ := readReg_next h <;> exact ⟨v, rfl⟩

/-- No served access is answered with a bus error. -/
theorem bus_ne_busError_of_served {a : Access} (hr : s.rst = false) (ha : a.served = true) (h : hostAccess s a = .next t) :
    t.host.bus ≠ .busError := by
  rcases hostAccess_next h with ⟨hr', -⟩ | ⟨-, ha', -⟩ |
    ⟨-, -, ⟨-, ⟨reg, -, rfl⟩ | ⟨-, rfl⟩⟩ | ⟨-, ⟨reg, -, h⟩ | ⟨-, rfl⟩⟩⟩
  · simp [hr] at hr'
  · simp [ha] at ha'
  · simp
  · simp
  · obtain ⟨v, hv⟩ := readReg_answers_data h
    simp [hv]
  · simp

/-! ### The buffer window -/

theorem readBuf_idle {a : Nat} (hb : s.status.busy = false) :
    readBuf s a = memRead s a 4 fun bs => .next (s.answer (.data (le32 bs))) := if_neg (by simp [hb])

theorem writeBuf_idle {a : Nat} {v : Word} (hb : s.status.busy = false) : writeBuf s a v = s.memWrite a (lanes v) :=
  if_neg (by simp [hb])

theorem toNat_append_byte {w : Nat} (x : BitVec w) (b : Byte) : (x ++ b).toNat = x.toNat * 256 + b.toNat := by
  rw [BitVec.toNat_append, ← Nat.shiftLeft_add_eq_or_of_lt b.isLt, Nat.shiftLeft_eq]

/-- The value of a bus word from its lanes (R13, R82). -/
theorem le32_toNat (b0 b1 b2 b3 : Byte) :
    (le32 [b0, b1, b2, b3]).toNat = b0.toNat + 2 ^ 8 * b1.toNat + 2 ^ 16 * b2.toNat + 2 ^ 24 * b3.toNat := by
  calc (le32 [b0, b1, b2, b3]).toNat = (b3 ++ b2 ++ b1 ++ b0).toNat := rfl
    _ = ((b3.toNat * 256 + b2.toNat) * 256 + b1.toNat) * 256 + b0.toNat := by
      rw [toNat_append_byte, toNat_append_byte, toNat_append_byte]
    _ = _ := by omega

/-- While idle a word of the buffer window is read from and written to the buffer (R84). -/
theorem hostAccess_bufferWord {a : Nat} (hr : s.rst = false) (hcfg : s.CfgOk) (hb : s.status.busy = false)
    (h4 : a % 4 = 0) (ha : a + 4 ≤ s.cfg.bufBytes) :
    hostAccess s (readAt (0x10000 + a)) = (memRead s a 4 fun bs => .next (s.answer (.data (le32 bs)))) ∧
      ∀ v, hostAccess s (writeAt (0x10000 + a) v) = .next ((s.memWrite a (lanes v)).answer .ok) := by
  have hmax := bufBytes_le_of_cfgOk hcfg
  refine ⟨?_, fun v => ?_⟩
  · rw [hostAccess_readAt_reg hr (by omega) (by omega) (regAt_buf ha), readReg, readBuf_idle hb]
  · rw [hostAccess_writeAt_reg hr (by omega) (by omega) (regAt_buf ha), writeReg, writeBuf_idle hb]

/-! ### Reads without side effect -/

theorem State.PhaseOk.not_streamRunning (h : s.PhaseOk) (hb : s.status.busy = false) : s.streamRunning = false := by
  simp [State.streamRunning, h.mp hb]

/-- A register read does not depend on the answer to the access before it. -/
theorem readReg_answer (s : State) (x : BusAnswer) (reg : Reg) : readReg (s.answer x) reg = readReg s reg := by
  cases reg <;> rfl

/-- No read depends on the answer to the access before it. -/
theorem hostAccess_answer_of_read {a : Access} (hw : a.write = false) (x : BusAnswer) :
    hostAccess (s.answer x) a = hostAccess s a := by
  have hread : hostRead (s.answer x) a.offset = hostRead s a.offset := by
    simp only [hostRead, State.answer_cfg, readReg_answer]
    rfl
  simp only [hostAccess, State.answer_rst, hw, hread]
  rfl

/-- While idle a read changes nothing but the host's answer (R85). -/
theorem hostAccess_read_idle {a : Access} (hp : s.PhaseOk) (hb : s.status.busy = false) (hw : a.write = false)
    (h : hostAccess s a = .next t) : ∃ x, t = s.answer x := by
  rcases hostAccess_next h with ⟨-, rfl⟩ | ⟨-, -, rfl⟩ | ⟨-, -, ⟨hw', -⟩ | ⟨-, ⟨reg, -, h⟩ | ⟨-, rfl⟩⟩⟩
  · exact ⟨_, rfl⟩
  · exact ⟨_, rfl⟩
  · simp [hw] at hw'
  · obtain ⟨v, rfl | ⟨-, hs⟩ | ⟨-, hb'⟩⟩ := readReg_next h
    · exact ⟨_, rfl⟩
    · simp [hp.not_streamRunning hb] at hs
    · simp [hb] at hb'
  · exact ⟨_, rfl⟩

end Sys2Proof.Machine

open Sys2Proof Sys2Proof.Machine

/-- Settles O10: an access is refused exactly when it is not served, and only a refused one is answered with a bus error. -/
theorem misalignedAccessIsABusError : Obligations.MisalignedAccessIsABusError := by
  unfold Obligations.MisalignedAccessIsABusError
  intro s a hr
  refine ⟨fun h => hostAccess_of_not_served hr (Access.not_served_of h), fun hsize h4 ho => ?_⟩
  have ha : a.served = true := Access.served_iff.mpr ⟨hsize, h4, ho⟩
  exact ⟨fun t h => bus_ne_busError_of_served hr ha h, hostAccess_of_reserved hr ha⟩

/-- Settles O11: inside the buffer a word read, a word with an unwritten byte, and a word written; past it the map is reserved. -/
theorem bufferWindowLanes : Obligations.BufferWindowLanes := by
  unfold Obligations.BufferWindowLanes
  intro s a hr hcfg hb h4
  refine ⟨fun ha => ?_, fun ha hlt => hostAccess_reserved hr (by omega) (by omega) (regAt_reserved (by omega))⟩
  obtain ⟨hread, hwrite⟩ := hostAccess_bufferWord hr hcfg hb h4 ha
  refine ⟨fun b0 b1 b2 b3 h => ?_, fun h => ?_, fun v => ?_⟩
  · exact ⟨_, le32_toNat b0 b1 b2 b3, hread.trans (memRead_of_some h)⟩
  · exact hread.trans (memRead_of_none h)
  · exact ⟨_, hwrite v, s.buf.stored_writeBytes a (lanes v), rfl⟩

/-- Settles O18: the answer is all a read changes, and no read depends on it. -/
theorem readsHaveNoSideEffect : Obligations.ReadsHaveNoSideEffect := by
  unfold Obligations.ReadsHaveNoSideEffect
  intro s t a hp hb hw h
  obtain ⟨x, rfl⟩ := hostAccess_read_idle hp hb hw h
  exact ⟨rfl, (hostAccess_answer_of_read hw x).trans h⟩

end

section
/-! What SHA256, the block commands, CBC_ENC and HYB_ENC store: each with its regions in the buffer and its inputs read or drawn ends in
success (R150, R185, R186, R224, R273, R340). -/

namespace Sys2Proof.Machine

variable {s t : State}

/-! ### Results and streams -/

theorem resultIs_of_set {v : Nat} (h : t.r = s.r.set 0 (BitVec.ofNat 32 v)) : s.ResultIs t v := by
  simp [State.ResultIs, h]

theorem resultsAre_of_set {v0 v1 : Nat} (h : t.r = (s.r.set 0 (BitVec.ofNat 32 v0)).set 1 (BitVec.ofNat 32 v1)) :
    s.ResultsAre t v0 v1 := by
  simp [State.ResultsAre, h]

theorem Env.OnlyDrew.sameStreams (h : s.env.OnlyDrew t.env) : s.SameStreams t := by
  obtain ⟨hrx, hrc, htx, htc, hcr, -⟩ := h
  exact ⟨hrx, hrc, htx, htc, hcr⟩

/-! ### A value read or drawn -/

/-- The `n` bytes `v` are read from the buffer at `a` where the flag says so, and drawn otherwise; `e'` is the environment `e` after that
(R224, R273). -/
def ReadOrDrawn (s : State) (given : Bool) (a n : Nat) (e : Env) (v : List Byte) (e' : Env) : Prop :=
  if given then s.buf.readBytes a n = some v ∧ e' = e else e.draw n = (some v, e')

section
variable {given : Bool} {a n : Nat} {e e' : Env} {v : List Byte}

theorem ReadOrDrawn.onlyDrew (h : ReadOrDrawn s given a n e v e') : e.OnlyDrew e' := by
  cases given with
  | true =>
    obtain ⟨-, rfl⟩ := h
    exact .refl _
  | false => exact Env.onlyDrew_of_draw h

/-- The command reads the value where the flag says so. -/
theorem ReadOrDrawn.memReadIf (h : ReadOrDrawn s given a n e v e') (k : List Byte → Result) :
    ∃ bs, (given = true → bs = v) ∧ memReadIf given s a n k = k bs :=
  memReadIf_of <| by
    rintro rfl
    exact h.1

/-- With the value that was read in hand the command goes on with it, or with the one drawn. -/
theorem ReadOrDrawn.givenOrDrawn (h : ReadOrDrawn s given a n e v e') {bs : List Byte} (hbs : given = true → bs = v)
    {u : State} (hu : u.env = e) (k : List Byte → State → Result) : givenOrDrawn given bs n u k = k v (u.withEnv e') := by
  subst hu
  refine givenOrDrawn_of ?_
  cases given with
  | true => exact ⟨hbs rfl, h.2⟩
  | false => exact h

end

/-! ### The commands with an IV -/

/-- CBC_ENC with its regions in the buffer, its inputs read and its IV read or drawn (R224). -/
theorem exec_cbcEnc_eq {isrc : Bool} {key x iv : List Byte} {e : Env} (hr : s.RegionsOk (.cbcEnc isrc))
    (hkey : s.buf.readBytes (s.param 0) 32 = some key) (hx : s.buf.readBytes (s.param 1) (s.param 2) = some x)
    (hiv : ReadOrDrawn s isrc (s.param 4) 16 s.env iv e) :
    exec (.cbcEnc isrc) s = .next (((((s.withEnv e).loadKey key (keyExpansion key)).memWrite (s.param 3)
      (cbcEnc (keyExpansion key) iv x)).memWriteIf (!isrc) (s.param 4) iv).setR 0 (paddedLen (s.param 2))).finish := by
  have hinputs : exec (.cbcEnc isrc) s = _ :=
    (checkRegions_of_in hr).trans ((memRead_of_some hkey).trans (memRead_of_some hx))
  obtain ⟨ivIn, hivIn, hread⟩ := hiv.memReadIf _
  exact hinputs.trans (hread.trans (hiv.givenOrDrawn hivIn rfl _))

/-- CBC_ENC stores the ciphertext and then a drawn IV (R92, R224). -/
theorem exec_cbcEnc_stores {isrc : Bool} {key x iv : List Byte} {e : Env} (hr : s.RegionsOk (.cbcEnc isrc))
    (hkey : s.buf.readBytes (s.param 0) 32 = some key) (hx : s.buf.readBytes (s.param 1) (s.param 2) = some x)
    (hiv : ReadOrDrawn s isrc (s.param 4) 16 s.env iv e) :
    ∃ t m, exec (.cbcEnc isrc) s = .next t ∧ s.EndedDone t ∧ s.SameHostSide t ∧ t.env = e ∧ s.SameStreams t ∧
      s.buf.Stored m (s.param 3) (cbcEnc (keyExpansion key) iv x) ∧ (isrc = true → t.buf = m) ∧
      (isrc = false → m.Stored t.buf (s.param 4) iv) ∧ s.ResultIs t (paddedLen (s.param 2)) := by
  have h := exec_cbcEnc_eq hr hkey hx hiv
  refine ⟨_, _, h, endedDone_finish (.inl (by simp)), (exec_hostSide h).1, by simp,
    Env.OnlyDrew.sameStreams (by simpa using hiv.onlyDrew), s.buf.stored_writeBytes _ _, ?_, ?_, resultIs_of_set (by simp)⟩
  · rintro rfl
    rfl
  · rintro rfl
    exact Memory.stored_writeBytes _ _ _

/-- HYB_ENC with its lengths and regions in order, its inputs read, and its key and IV each read or drawn (R273). -/
theorem exec_hybEnc_eq {isrc ksrc : Bool} {x n ex key iv : List Byte} {e1 e2 : Env} (hl : s.LensOk (.hybEnc isrc ksrc))
    (hr : s.RegionsOk (.hybEnc isrc ksrc)) (hx : s.buf.readBytes (s.param 0) (s.param 1) = some x)
    (hn : s.buf.readBytes (s.param 2) (s.param 3) = some n) (hex : s.buf.readBytes (s.param 4) (s.param 5) = some ex)
    (h0 : beInt n ≠ 0) (hkey : ReadOrDrawn s ksrc (s.param 9) 32 s.env key e1)
    (hiv : ReadOrDrawn s isrc (s.param 8) 16 e1 iv e2) :
    exec (.hybEnc isrc ksrc) s = .next (((((((s.withEnv e2).loadKey key (keyExpansion key)).memWrite (s.param 6)
      (cbcEnc (keyExpansion key) iv x)).memWrite (s.param 7) (wrapKey key (beInt ex) (beInt n))).memWriteIf (!isrc)
      (s.param 8) iv).setR 0 (paddedLen (s.param 1))).setR 1 (wrapKey key (beInt ex) (beInt n)).length).finish := by
  have hchecks : exec (.hybEnc isrc ksrc) s = _ := (checkLens_of_in hl).trans (checkRegions_of_in hr)
  have hinputs := hchecks.trans ((memRead_of_some hx).trans ((memRead_of_some hn).trans (memRead_of_some hex)))
  obtain ⟨ivIn, hivIn, hivRead⟩ := hiv.memReadIf _
  obtain ⟨keyIn, hkeyIn, hkeyRead⟩ := hkey.memReadIf _
  exact hinputs.trans (hivRead.trans (hkeyRead.trans ((if_neg h0).trans
    ((hkey.givenOrDrawn hkeyIn rfl _).trans (hiv.givenOrDrawn hivIn rfl _)))))

theorem wrapKey_eq (key : List Byte) (e n : Nat) : wrapKey key e n = beMin (beInt (keyText key) ^ e % n) := by
  rw [wrapKey, modexp_eq]

end Sys2Proof.Machine

open Sys2Proof Sys2Proof.Machine

/-- Settles O24: with its regions in the buffer and its source read SHA256 writes the digest. -/
theorem sha256StoresTheDigest : Obligations.Sha256StoresTheDigest := by
  unfold Obligations.Sha256StoresTheDigest
  intro s m hr hm
  have h : exec .sha256 s = _ := (checkRegions_of_in hr).trans (memRead_of_some hm)
  exact ⟨_, h, endedDone_finish (.inl rfl), (exec_hostSide h).1, rfl, s.buf.stored_writeBytes _ _, sha256_length m,
    resultIs_of_set rfl⟩

/-- Settles O26: both commands make the same checks and reads, and write one block. -/
theorem aesCommandsStoreTheBlock : Obligations.AesCommandsStoreTheBlock := by
  unfold Obligations.AesCommandsStoreTheBlock
  intro s key x hr hkey hx
  have henc : exec .aesEnc s = _ := (checkRegions_of_in hr).trans ((memRead_of_some hkey).trans (memRead_of_some hx))
  have hdec : exec .aesDec s = _ := (checkRegions_of_in hr).trans ((memRead_of_some hkey).trans (memRead_of_some hx))
  exact ⟨⟨_, henc, endedDone_finish (.inl rfl), (exec_hostSide henc).1, rfl, s.buf.stored_writeBytes _ _,
      resultIs_of_set rfl⟩,
    ⟨_, hdec, endedDone_finish (.inl rfl), (exec_hostSide hdec).1, rfl, s.buf.stored_writeBytes _ _, resultIs_of_set rfl⟩⟩

/-- Settles O27: the two forms differ in where the IV comes from and in whether it is written. -/
theorem cbcEncStoresTheCiphertext : Obligations.CbcEncStoresTheCiphertext := by
  unfold Obligations.CbcEncStoresTheCiphertext
  intro s key x iv hr hkey hx
  refine ⟨fun hiv => ?_, fun e hd => ?_⟩
  · obtain ⟨t, m, h, hend, hside, henv, -, hct, hbuf, -, hres⟩ := exec_cbcEnc_stores (isrc := true) hr hkey hx ⟨hiv, rfl⟩
    exact ⟨t, h, hend, hside, henv, hbuf rfl ▸ hct, hres⟩
  · obtain ⟨t, m, h, hend, hside, henv, hst, hct, -, hivSt, hres⟩ := exec_cbcEnc_stores (isrc := false) hr hkey hx hd
    exact ⟨t, m, h, hend, hside, henv, hst, hct, hivSt rfl, hres⟩

/-- Settles O30: the three writes in order, the last one only of a drawn IV. -/
theorem hybEncStoresTheTriple : Obligations.HybEncStoresTheTriple := by
  unfold Obligations.HybEncStoresTheTriple
  intro s isrc ksrc x n ex key iv e1 e2 hl hr hx hn hex h0 hkey hiv
  have h := exec_hybEnc_eq hl hr hx hn hex h0 hkey hiv
  have hdrew : s.env.OnlyDrew e2 := (ReadOrDrawn.onlyDrew hkey).trans (ReadOrDrawn.onlyDrew hiv)
  refine ⟨_, _, _, _, h, endedDone_finish (.inl (by simp)), (exec_hostSide h).1, by simp,
    Env.OnlyDrew.sameStreams (by simpa using hdrew), wrapKey_eq key _ _, s.buf.stored_writeBytes _ _,
    Memory.stored_writeBytes _ _ _, ?_, ?_, resultsAre_of_set (by simp [paddedLen])⟩
  · rintro rfl
    exact fun _ => rfl
  · rintro rfl
    exact Memory.stored_writeBytes _ _ _

end

section
/-! The decoder and the encoder are each other's inverse, the flag table, and how an illegal word ends (R110, R113 to R115, R117). -/

namespace Sys2Proof

/-! ### The fields of a word and of a command -/

theorem encodedFields (i : Instr) : Laws.EncodedFields.Statement i := by
  cases i with
  | nop => exact Laws.EncodedFields.nop
  | rngFill => exact Laws.EncodedFields.rngFill
  | sha256 => exact Laws.EncodedFields.sha256
  | kexp => exact Laws.EncodedFields.kexp
  | aesEnc => exact Laws.EncodedFields.aesEnc
  | aesDec => exact Laws.EncodedFields.aesDec
  | cbcEnc isrc => exact Laws.EncodedFields.cbcEnc isrc
  | cbcDec => exact Laws.EncodedFields.cbcDec
  | modexp => exact Laws.EncodedFields.modexp
  | hybEnc isrc ksrc => exact Laws.EncodedFields.hybEnc isrc ksrc
  | hybDec => exact Laws.EncodedFields.hybDec
  | frameTx => exact Laws.EncodedFields.frameTx
  | frameRx => exact Laws.EncodedFields.frameRx
  | rawTx => exact Laws.EncodedFields.rawTx
  | rawRx => exact Laws.EncodedFields.rawRx

theorem fieldsOf_encode (i : Instr) : fieldsOf (encode i) = i.fields := (encodedFields i).1

theorem Instr.fields_wellFormed (i : Instr) : i.fields.wellFormed = true := (encodedFields i).2

/-- A word is put together from its fields again, so they hold every bit of it (R110). -/
theorem word_fieldsOf (w : Word) : (fieldsOf w).word = w := by
  ext i hi
  simp [fieldsOf, CmdFields.word]
  grind

/-! ### The rows of the opcode table -/

/-- The word with the flag bits `ISRC` and `KSRC` and every other bit 0 (R110). -/
def flagBits (isrc ksrc : Bool) : Word :=
  (if isrc then BitVec.twoPow 32 8 else 0) ||| (if ksrc then BitVec.twoPow 32 9 else 0)

theorem and_flagMask (w : Word) : w &&& 0x300#32 = flagBits (w.getLsbD 8) (w.getLsbD 9) := by
  have hmask : 0x300#32 = BitVec.twoPow 32 8 ||| BitVec.twoPow 32 9 := by decide
  rw [hmask, BitVec.and_or_distrib_left, BitVec.and_twoPow, BitVec.and_twoPow]
  rfl

/-- A word that a row selects is the row's match with the word's own flags where the mask leaves them free. -/
theorem eq_of_and_mask {w mask v : Word} (hmask : 0x300#32 &&& ~~~mask = ~~~mask) (h : w &&& mask = v) :
    w = v ||| (flagBits (w.getLsbD 8) (w.getLsbD 9) &&& ~~~mask) := by
  calc w = (w &&& mask) ||| (w &&& ~~~mask) := by rw [← BitVec.and_or_distrib_left, BitVec.or_not_self, BitVec.and_allOnes]
    _ = v ||| (w &&& (0x300#32 &&& ~~~mask)) := by rw [h, hmask]
    _ = v ||| (flagBits (w.getLsbD 8) (w.getLsbD 9) &&& ~~~mask) := by rw [← BitVec.and_assoc, and_flagMask]

/-- The masks leave no bit free but flags, and the word of a row's command is its match with the flags left free (R113, R114). -/
theorem opcodeTable_encode : ∀ row ∈ opcodeTable, 0x300#32 &&& ~~~row.2.1 = ~~~row.2.1 ∧
    ∀ isrc ksrc, row.1 ||| (flagBits isrc ksrc &&& ~~~row.2.1) = encode (row.2.2 isrc ksrc) := by
  decide

/-- A row selects only the words of its own command. -/
theorem eq_encode_of_row {w : Word} {row : Word × Word × (Bool → Bool → Instr)} (hrow : row ∈ opcodeTable)
    (h : w &&& row.2.1 = row.1) : w = encode (row.2.2 (w.getLsbD 8) (w.getLsbD 9)) := by
  obtain ⟨hmask, henc⟩ := opcodeTable_encode row hrow
  exact (eq_of_and_mask hmask h).trans (henc _ _)

/-! ### Decoding -/

theorem decode_encode (i : Instr) : decode (encode i) = .command i := by
  cases i with
  | cbcEnc isrc => cases isrc <;> decide
  | hybEnc isrc ksrc => cases isrc <;> cases ksrc <;> decide
  | _ => decide

/-- A decoded command is that of a row that selects the word. -/
theorem row_of_decode {w : Word} {i : Instr} (h : decode w = .command i) :
    ∃ row ∈ opcodeTable, w &&& row.2.1 = row.1 ∧ row.2.2 (w.getLsbD 8) (w.getLsbD 9) = i := by
  unfold decode at h
  split at h
  · next row hfind =>
    exact ⟨row, List.mem_of_find?_eq_some hfind, by simpa using List.find?_some hfind, Decoded.command.inj h⟩
  · cases h

/-- The reason given for an illegal word is the first that holds. -/
theorem eq_illegalReason {w : Word} {why : Illegal} (h : decode w = .illegal why) : why = illegalReason w := by
  unfold decode at h
  split at h
  · cases h
  · exact (Decoded.illegal.inj h).symm

theorem decode_eq_command_iff {w : Word} {i : Instr} : decode w = .command i ↔ w = encode i := by
  constructor
  · intro h
    obtain ⟨row, hrow, hsel, rfl⟩ := row_of_decode h
    exact eq_encode_of_row hrow hsel
  · rintro rfl
    exact decode_encode i

theorem encode_injective : Function.Injective encode := by
  intro i j h
  have hi := decode_encode i
  rw [h, decode_encode j] at hi
  exact (Decoded.command.inj hi).symm

/-- The two rows' commands differ, whatever the flags. -/
theorem opcodeTable_commands_differ :
    opcodeTable.Pairwise (fun row row' => ∀ isrc ksrc, row.2.2 isrc ksrc ≠ row'.2.2 isrc ksrc) := by
  decide

/-- A word of the instruction table stands for what the decoder reads from it. -/
theorem decode_of_decodeTableWord {nbits w : Nat} {i : Instr} (h : decodeTableWord nbits w = some i) :
    decode (BitVec.ofNat 32 (w % 2 ^ nbits)) = .command i := by
  unfold decodeTableWord at h
  split at h
  · cases h
  · split at h
    · next j hj => rw [hj, Option.some.inj h]
    · cases h

/-! ### Legal words -/

/-- Each assigned operation code with flags that fit it has its row (R113, R114). -/
theorem row_of_opcode : ∀ opc ∈ assignedOpcodes, ∀ isrc ksrc : Bool,
    CmdFields.wellFormed { opc := opc, isrc := isrc, ksrc := ksrc, rsv := 0 } = true →
    ∃ row ∈ opcodeTable, (row.2.2 isrc ksrc).fields = { opc := opc, isrc := isrc, ksrc := ksrc, rsv := 0 } := by
  decide

theorem CmdFields.wellFormed_iff {f : CmdFields} : f.wellFormed = true ↔
    f.opc ∈ assignedOpcodes ∧ f.rsv = 0 ∧ (f.isrc = true → f.opc ∈ isrcOpcodes) ∧
      (f.ksrc = true → f.opc ∈ ksrcOpcodes) := by
  obtain ⟨opc, isrc, ksrc, rsv⟩ := f
  cases isrc <;> cases ksrc <;> simp [wellFormed, opcOk, rsvOk, isrcOk, ksrcOk, and_assoc]

/-- Fields that are well formed are those of a command (R114). -/
theorem exists_fields_eq {f : CmdFields} (h : f.wellFormed = true) : ∃ i : Instr, i.fields = f := by
  obtain ⟨hopc, hrsv, -, -⟩ := CmdFields.wellFormed_iff.mp h
  obtain ⟨opc, isrc, ksrc, rsv⟩ := f
  cases hrsv
  obtain ⟨row, -, hrow⟩ := row_of_opcode opc hopc isrc ksrc h
  exact ⟨_, hrow⟩

theorem decodes_iff_wellFormed {w : Word} : (∃ i, decode w = .command i) ↔ (fieldsOf w).wellFormed = true := by
  constructor
  · rintro ⟨i, hi⟩
    rw [decode_eq_command_iff.mp hi, fieldsOf_encode]
    exact i.fields_wellFormed
  · intro h
    obtain ⟨i, hi⟩ := exists_fields_eq h
    refine ⟨i, decode_eq_command_iff.mpr ?_⟩
    rw [encode, hi, word_fieldsOf]

/-! ### Illegal words -/

theorem not_wellFormed_of_illegal {w : Word} {why : Illegal} (h : decode w = .illegal why) :
    (fieldsOf w).wellFormed = false := by
  rw [Bool.eq_false_iff]
  intro hwf
  obtain ⟨i, hi⟩ := decodes_iff_wellFormed.mpr hwf
  simp [h] at hi

/-- What the reason given for a word that is not well formed says of its fields (R115). -/
theorem illegalReason_meaning {w : Word} (h : (fieldsOf w).wellFormed = false) :
    (illegalReason w = .reservedOpcode → (fieldsOf w).opc ∉ assignedOpcodes) ∧
    (illegalReason w = .reservedBits → (fieldsOf w).rsv ≠ 0) ∧
    (illegalReason w = .strayIsrc → (fieldsOf w).isrc = true ∧ (fieldsOf w).opc ∉ isrcOpcodes) ∧
    (illegalReason w = .strayKsrc → (fieldsOf w).ksrc = true ∧ (fieldsOf w).opc ∉ ksrcOpcodes) := by
  unfold illegalReason
  split
  · next hopc => simpa [CmdFields.opcOk] using hopc
  · next hopc =>
    split
    · next hrsv => simpa [CmdFields.rsvOk] using hrsv
    · next hrsv =>
      split
      · next hisrc => simpa [CmdFields.isrcOk] using hisrc
      · next hisrc =>
        have hksrc : (fieldsOf w).ksrcOk = false := by simpa [CmdFields.wellFormed, hopc, hrsv, hisrc] using h
        simpa [CmdFields.ksrcOk] using hksrc

end Sys2Proof

open Sys2Proof Sys2Proof.Machine

/-- Settles O1: a row selects only its command's words, and each command's word is decoded to it. -/
theorem decodesExactlyTheEncodedWords : Obligations.DecodesExactlyTheEncodedWords := by
  unfold Obligations.DecodesExactlyTheEncodedWords
  exact fun _ _ => decode_eq_command_iff

/-- Settles O2: the fields hold the whole word; two rows that select one word would encode two commands as one. -/
theorem legalWordsFollowTheFlagTable : Obligations.LegalWordsFollowTheFlagTable := by
  unfold Obligations.LegalWordsFollowTheFlagTable
  refine ⟨fun w => decodes_iff_wellFormed, fun w row hrow h => decode_eq_command_iff.mpr (eq_encode_of_row hrow h), ?_⟩
  refine opcodeTable_commands_differ.imp_of_mem fun {row row'} hrow hrow' hdiff w h h' => ?_
  exact hdiff _ _ (encode_injective ((eq_encode_of_row hrow h).symm.trans (eq_encode_of_row hrow' h')))

/-- Settles O3: an illegal word is not well formed, its reason names the first field that does not fit, and the engine's step
after the write raises `EILLEGAL`. -/
theorem illegalWordsCompleteWithEillegal : Obligations.IllegalWordsCompleteWithEillegal := by
  unfold Obligations.IllegalWordsCompleteWithEillegal
  refine ⟨fun w => ?_, fun w why h => ?_, fun s w why hr hb h => ?_, fun w => decode_eq_command_iff⟩
  · cases decode w with
    | command i => exact .inl ⟨i, rfl⟩
    | illegal why => exact .inr ⟨why, rfl⟩
  · have hwf := not_wellFormed_of_illegal h
    obtain ⟨hopc, hrsv, hisrc, hksrc⟩ := illegalReason_meaning hwf
    rw [eq_illegalReason h]
    exact ⟨hwf, hopc, hrsv, by simpa [isrcOpcodes] using hisrc, by simpa [ksrcOpcodes] using hksrc⟩
  · let u : State := (s.issue w).answer .ok
    have hwrite : hostAccess s (writeAt 0x008 w) = .next u := by rw [hostAccess_write_cmd hr, writeCmd_idle hb]
    have hphase : u.phase = .run (.illegal why) := congrArg Phase.run h
    exact ⟨u, u.raise .eillegal, hwrite, engineStep_illegal hr hphase, endedErr_raise (.inl rfl), rfl, by simp [u],
      rfl, rfl, rfl, rfl, rfl⟩

/-- Settles O4: each word is the encoding of its command, or has the one field that does not fit. -/
theorem sampleWordsDecode : Obligations.SampleWordsDecode := by
  unfold Obligations.SampleWordsDecode
  decide

/-- Settles O5: the engine runs what the phase holds, and issue puts the decoded word there. -/
theorem stepRunsTheDecodedCommand : Obligations.StepRunsTheDecodedCommand := by
  unfold Obligations.StepRunsTheDecodedCommand
  refine ⟨fun s i rest hr hp => ⟨fun hs => ?_, fun hs => ?_⟩, fun s w i hr hb hd => ?_, fun s nbits w i hd => ?_⟩
  · rw [step_of_no_script hs, engineStep_command hr hp]
  · rw [step_of_script hs]
    exact engineStep_command hr hp
  · refine ⟨(s.issue w).answer .ok, ?_, congrArg Phase.run hd, rfl, hr, rfl⟩
    rw [hostAccess_write_cmd hr, writeCmd_idle hb]
  · let u : State := { s.issue (BitVec.ofNat 32 (w % 2 ^ nbits)) with rst := false }
    have hp : u.phase = .run (.command i) := congrArg Phase.run (decode_of_decodeTableWord hd)
    calc step (s.withFetchWord nbits w) = engineStep u := step_of_script (e := .engine) (rest := s.script) rfl
      _ = exec i u := engineStep_command rfl hp

end

section
/-! A line of a host program, and the lines of each statement (R82, R119, R120). -/

namespace Sys2Proof.Machine

variable {s t u : State}

/-! ### The host through an access -/

/-- No register write touches the host. -/
theorem writeReg_host (s : State) (reg : Reg) (v : Word) : (writeReg s reg v).host = s.host := by
  cases reg <;> simp only [writeReg, writeCtrl, writeCmd, writeP, writeBuf]
  case ctrl => split <;> rfl
  case cmd => split <;> rfl
  case p => split <;> rfl
  case buf => split <;> rfl

theorem readReg_host {reg : Reg} (h : readReg s reg = .next t) : ∃ x, t.host = { s.host with bus := x } := by
  obtain ⟨v, rfl | ⟨rfl, -⟩ | ⟨rfl, -⟩⟩ := readReg_next h <;> exact ⟨_, rfl⟩

/-- An access changes nothing of the host but the answer it sees. -/
theorem hostAccess_host {a : Access} (h : hostAccess s a = .next t) : ∃ x, t.host = { s.host with bus := x } := by
  rcases hostAccess_next h with ⟨-, rfl⟩ | ⟨-, -, rfl⟩ |
    ⟨-, -, ⟨-, ⟨reg, -, rfl⟩ | ⟨-, rfl⟩⟩ | ⟨-, ⟨reg, -, h⟩ | ⟨-, rfl⟩⟩⟩
  · exact ⟨_, rfl⟩
  · exact ⟨_, rfl⟩
  · exact ⟨.ok, by rw [State.answer_host, writeReg_host]⟩
  · exact ⟨_, rfl⟩
  · exact readReg_host h
  · exact ⟨_, rfl⟩

/-! ### One line -/

theorem hostLine_end (h : s.host.prog[s.host.line]? = none) : eventStep .hostLine s = .next s := by
  simp only [eventStep, hostProgramStep, h]

theorem hostLine_access {op : HostOp} (h : s.host.prog[s.host.line]? = some op) (hu : hostAccess s op.access = .next u) :
    eventStep .hostLine s = .next (afterLine op u) := by
  simp only [eventStep, hostProgramStep, h, hu]

theorem afterLine_write (reg : Reg) (v : Word) : afterLine (.write reg v) u = u.hostGoto (u.host.line + 1) := rfl

theorem afterLine_read {reg : Reg} {x : Word} (h : u.host.bus = .data x) :
    afterLine (.read reg) u = (u.hostGoto (u.host.line + 1)).hostKeeps x := by
  simp only [afterLine, h]

theorem afterLine_bne {reg : Reg} {mask value x : Word} {target : Nat} (h : u.host.bus = .data x) :
    afterLine (.bne reg mask value target) u = u.hostGoto (if x &&& mask = value then u.host.line + 1 else target) := by
  simp only [afterLine, h]
  split <;> rfl

/-! ### The words of `WB` -/

theorem groups_getElem? {w n k : Nat} (s : List Byte) (hk : k < n) :
    (groups w n s)[k]? = some ((s.drop (w * k)).take w) := by
  induction n generalizing s k with
  | zero => omega
  | succ n ih =>
    cases k with
    | zero => simp [groups]
    | succ k =>
      rw [groups, List.getElem?_cons_succ, ih _ (by omega), List.drop_drop, Nat.mul_succ, Nat.add_comm w]

/-- Lane j of a bus word is byte j of its four (R13, R82). -/
theorem le32_lane {bs : List Byte} {j : Nat} (h : bs.length = 4) (hj : j < 4) :
    (le32 bs).extractLsb' (8 * j) 8 = bs.getD j 0 := by
  match bs, h with
  | [b0, b1, b2, b3], _ =>
    apply BitVec.eq_of_toNat_eq
    rw [BitVec.extractLsb'_toNat, le32_toNat, Nat.shiftRight_eq_div_pow]
    have h0 := b0.isLt
    have h1 := b1.isLt
    have h2 := b2.isLt
    match j, hj with
    | 0, _ | 1, _ | 2, _ | 3, _ => simp; omega

/-- Each byte of the group that starts at byte `i`, padded to four, is a byte of the string, or 0 past its end (R120). -/
theorem getD_padded (s : List Byte) (i j : Nat) (hj : j < 4) :
    ((s.drop i).take 4 ++ List.replicate (4 - ((s.drop i).take 4).length) 0).getD j 0 = s.getD (i + j) 0 := by
  by_cases h : i + j < s.length
  · rw [List.getD_append _ _ _ _ (by simp; omega)]
    simp [List.getD_eq_getElem?_getD, hj]
  · rw [List.getD_append_right _ _ _ _ (by simp; omega), List.getD_eq_default s 0 (by omega), List.getD_replicate]
    simp
    omega

/-- The bus word of the group of bytes that starts at byte `i`. -/
def paddedWord (s : List Byte) (i : Nat) : Word :=
  le32 ((s.drop i).take 4 ++ List.replicate (4 - ((s.drop i).take 4).length) 0)

theorem paddedWord_lane (s : List Byte) (i : Nat) {j : Nat} (hj : j < 4) :
    (paddedWord s i).extractLsb' (8 * j) 8 = s.getD (i + j) 0 := by
  rw [paddedWord, le32_lane (by simp) hj, getD_padded s i j hj]

theorem length_writeBytesOps (a : Nat) (s : List Byte) : (writeBytesOps a s).length = (s.length + 3) / 4 := by
  simp [writeBytesOps]

theorem writeBytesOps_getElem? {a k : Nat} {s : List Byte} (hk : k < (s.length + 3) / 4) :
    (writeBytesOps a s)[k]? = some (.write (.buf (a + 4 * k)) (paddedWord s (4 * k))) := by
  simp [writeBytesOps, List.getElem?_zipIdx, groups_getElem? s hk, paddedWord]

/-! ### `RUN` and the RSA names -/

theorem runOps_eq {n : Nat} {cmd : Word} {vals : List Word} (h : vals.length ≤ 16) :
    runOps n cmd vals = vals.mapIdx (fun i v => HostOp.write (.p (Fin.ofNat 16 i)) v) ++
      [.write .cmd cmd, .bne .status 0x1 0x0 (n + vals.length + 1)] := by
  simp [runOps, paramWrites, waitOp, List.take_of_length_le h, List.mapIdx_eq_zipIdx_map, Nat.add_assoc]

/-- Two statements that take equally many lines, neither the label, put the labels of a program on the same lines. -/
theorem labelLine_swap {lab at_ : Nat} {pre post : List Stmt} {st st' : Stmt} (hsize : st.size = st'.size)
    (h : st ≠ .label lab) (h' : st' ≠ .label lab) :
    labelLine lab at_ (pre ++ st :: post) = labelLine lab at_ (pre ++ st' :: post) := by
  induction pre generalizing at_ with
  | nil => rw [List.nil_append, List.nil_append, labelLine_cons h, labelLine_cons h', hsize]
  | cons p pre ih =>
    rw [List.cons_append, List.cons_append]
    by_cases hp : p = .label lab
    · rw [hp, labelLine_label, labelLine_label, if_pos rfl, if_pos rfl]
    · rw [labelLine_cons hp, labelLine_cons hp, ih]

/-- A statement may be written for another with the same lines. -/
theorem assembleProgram_swap {pre post : List Stmt} {st st' : Stmt} (hops : ∀ lines at_, st.ops lines at_ = st'.ops lines at_)
    (h : ∀ lab, st ≠ .label lab) (h' : ∀ lab, st' ≠ .label lab) :
    assembleProgram (pre ++ st :: post) = assembleProgram (pre ++ st' :: post) := by
  have hsize : st.size = st'.size := by rw [Stmt.size, hops, Stmt.size]
  have hlines : (fun lab => labelLine lab 0 (pre ++ st :: post)) = fun lab => labelLine lab 0 (pre ++ st' :: post) :=
    funext fun lab => labelLine_swap hsize (h lab) (h' lab)
  rw [assembleProgram, assembleProgram, hlines, opsFrom_append, opsFrom_append, opsFrom, opsFrom, hops, hsize]

end Sys2Proof.Machine

open Sys2Proof Sys2Proof.Machine

/-- Settles O19: a line is its access and then its control flow; a statement's lines stand after those of what stands before it,
and a label names the line that follows them. -/
theorem hostProgramsRunLineByLine : Obligations.HostProgramsRunLineByLine := by
  unfold Obligations.HostProgramsRunLineByLine
  refine ⟨fun s => hostLine_end, fun s u reg v hop hu => ?_, fun s u reg x hop hu hx => ?_,
    fun s u reg mask value x target hop hu hx => ?_, fun s u a h => ?_, ?_⟩
  · rw [hostLine_access hop hu, afterLine_write]
  · rw [hostLine_access hop hu, afterLine_read hx]
  · rw [hostLine_access hop hu, afterLine_bne hx]
  · obtain ⟨x, hx⟩ := hostAccess_host h
    rw [hx]
    exact ⟨rfl, rfl, rfl⟩
  · rintro pre post n rfl
    refine ⟨fun reg v => standsAs_ops pre post _, fun reg => standsAs_ops pre post _, standsAs_ops pre post _,
      fun a x => ?_, fun a m => standsAs_ops pre post _, fun cmd vals h => ?_, standsAs_ops pre post _,
      fun a b c d e f g => ⟨?_, ?_⟩, fun lab => ⟨standsAs_ops pre post _, fun hlab pre' post' reg mask value h => ?_⟩⟩
    · refine ⟨writeBytesOps a x, standsAs_ops pre post (.writeBytes a x), length_writeBytesOps a x, fun k hk => ?_⟩
      rw [length_writeBytesOps] at hk
      exact ⟨_, writeBytesOps_getElem? hk, fun j hj => paddedWord_lane x (4 * k) hj⟩
    · rw [← runOps_eq h]
      exact standsAs_ops pre post (.run cmd vals)
    · exact assembleProgram_swap (fun _ _ => rfl) (fun _ => nofun) (fun _ => nofun)
    · exact assembleProgram_swap (fun _ _ => rfl) (fun _ => nofun) (fun _ => nofun)
    · have hline : labelLine lab 0 (pre' ++ .bne reg mask value lab :: post') = (assembleProgram pre).length := by
        rw [← h, labelLine_of_not_mem hlab]
      rw [← hline]
      exact standsAs_ops pre' post' (.bne reg mask value lab)

end

section
/-! The S-box and its inverse are what R171 to R173 define, decryption undoes encryption with every schedule, and what KEXP stores
(R170 to R184). -/

namespace Sys2Proof.Machine

/-! ### The inverse and the S-box -/

@[simp] theorem ginv_zero : ginv 0 = 0 := by decide

/-- The power of R171 times its byte, and the table of R172 against its formula, both checked at every byte: one check, so that each
inverse is computed once. -/
theorem ginv_at_each_byte :
    ∀ a : Byte, (a ≠ 0 → gmul a (ginv a) = 0x01) ∧ sbox a = sboxAffine (ginv a) := by decide +kernel

theorem gmul_ginv {b : Byte} (hb : b ≠ 0) : gmul b (ginv b) = 0x01 := (ginv_at_each_byte b).1 hb

theorem sbox_eq_affine (a : Byte) : sbox a = sboxAffine (ginv a) := (ginv_at_each_byte a).2

@[simp] theorem invSbox_sbox : ∀ a : Byte, invSbox (sbox a) = a := by decide +kernel

theorem eq_ginv_of_gmul_eq_one {b c : Byte} (hb : b ≠ 0) (h : gmul b c = 0x01) : c = ginv b :=
  calc
    c = gmul (gmul b (ginv b)) c := by rw [gmul_ginv hb]; exact (one_gmul c).symm
    _ = gmul (ginv b) (gmul b c) := by rw [gmul_comm b, gmul_assoc]
    _ = ginv b := by rw [h]; exact gmul_one _

/-! ### Each round operation is undone -/

@[simp] theorem Quad.xor_xor_cancel_right (x y : Quad) : (x.xor y).xor y = x := by
  simp [Quad.xor]

@[simp] theorem addRoundKey_addRoundKey (w : List Quad) (r : Nat) (s : AesState) :
    addRoundKey w r (addRoundKey w r s) = s := by
  simp [addRoundKey]

@[simp] theorem invShiftRows_shiftRows (s : AesState) : invShiftRows (shiftRows s) = s := rfl

@[simp] theorem invSubBytes_subBytes (s : AesState) : invSubBytes (subBytes s) = s := by
  simp [invSubBytes, subBytes, AesState.mapCols, Quad.map]

/-- A row times a column that is itself a matrix with the rows `n0` to `n3` times `a`: the row of the product matrix times `a`. -/
theorem mixRow_mixRow (m0 m1 m2 m3 : Byte) (n0 n1 n2 n3 a : Quad) :
    mixRow m0 m1 m2 m3
      { b0 := mixRow n0.b0 n0.b1 n0.b2 n0.b3 a, b1 := mixRow n1.b0 n1.b1 n1.b2 n1.b3 a
        b2 := mixRow n2.b0 n2.b1 n2.b2 n2.b3 a, b3 := mixRow n3.b0 n3.b1 n3.b2 n3.b3 a } =
    mixRow (mixRow m0 m1 m2 m3 ⟨n0.b0, n1.b0, n2.b0, n3.b0⟩) (mixRow m0 m1 m2 m3 ⟨n0.b1, n1.b1, n2.b1, n3.b1⟩)
      (mixRow m0 m1 m2 m3 ⟨n0.b2, n1.b2, n2.b2, n3.b2⟩) (mixRow m0 m1 m2 m3 ⟨n0.b3, n1.b3, n2.b3, n3.b3⟩) a := by
  simp only [mixRow, gmul_xor, xor_gmul, gmul_assoc]
  ac_rfl

/-- A row times a mixed column: the row times the matrix of MixColumns (R178), times the column. -/
theorem mixRow_mixColumn (m0 m1 m2 m3 : Byte) (a : Quad) :
    mixRow m0 m1 m2 m3 (mixColumn a) =
      mixRow (mixRow m0 m1 m2 m3 ⟨2, 1, 1, 3⟩) (mixRow m0 m1 m2 m3 ⟨3, 2, 1, 1⟩) (mixRow m0 m1 m2 m3 ⟨1, 3, 2, 1⟩)
        (mixRow m0 m1 m2 m3 ⟨1, 1, 3, 2⟩) a :=
  mixRow_mixRow m0 m1 m2 m3 ⟨2, 3, 1, 1⟩ ⟨1, 2, 3, 1⟩ ⟨1, 1, 2, 3⟩ ⟨3, 1, 1, 2⟩ a

/-- The product of the two matrices of R178 is the identity; its coefficients are computed row by row. -/
@[simp] theorem invMixColumn_mixColumn (a : Quad) : invMixColumn (mixColumn a) = a := by
  have h0 : mixRow 0x0e 0x0b 0x0d 0x09 (mixColumn a) = mixRow 1 0 0 0 a := mixRow_mixColumn _ _ _ _ a
  have h1 : mixRow 0x09 0x0e 0x0b 0x0d (mixColumn a) = mixRow 0 1 0 0 a := mixRow_mixColumn _ _ _ _ a
  have h2 : mixRow 0x0d 0x09 0x0e 0x0b (mixColumn a) = mixRow 0 0 1 0 a := mixRow_mixColumn _ _ _ _ a
  have h3 : mixRow 0x0b 0x0d 0x09 0x0e (mixColumn a) = mixRow 0 0 0 1 a := mixRow_mixColumn _ _ _ _ a
  rw [invMixColumn, h0, h1, h2, h3]
  simp [mixRow]

@[simp] theorem invMixColumns_mixColumns (s : AesState) : invMixColumns (mixColumns s) = s := by
  simp [invMixColumns, mixColumns, AesState.mapCols]

/-! ### The inverse cipher -/

/-- The inverse rounds meet the state before each AddRoundKey of the cipher, so they take the last ShiftRows and SubBytes before round
`n + 1` back to those before round 1. -/
theorem decRounds_encRounds (w : List Quad) (n : Nat) (s : AesState) :
    decRounds w n (shiftRows (subBytes (encRounds w n s))) = shiftRows (subBytes s) := by
  induction n with
  | zero => rfl
  | succ n ih => simp [decRounds, encRounds, encRound, decRound, ih]

@[simp] theorem aesLoad_aesStore (s : AesState) : aesLoad (aesStore s) = s := rfl

theorem aesStore_aesLoad {x : List Byte} (hx : x.length = 16) : aesStore (aesLoad x) = x := by
  match x, hx with
  | [_, _, _, _, _, _, _, _, _, _, _, _, _, _, _, _], _ => rfl

/-- The inverse cipher undoes the cipher with the same schedule, whatever its words are (R181, R184). -/
theorem decryptBlock_encryptBlock (w : List Quad) {x : List Byte} (hx : x.length = 16) :
    decryptBlock w (encryptBlock w x) = x := by
  simp [decryptBlock, encryptBlock, decRounds_encRounds, aesStore_aesLoad hx]

/-! ### The bytes of the schedule -/

theorem bytes_quadOf {g : List Byte} (hg : g.length = 4) : (quadOf g).bytes = g := by
  match g, hg with
  | [_, _, _, _], _ => rfl

theorem scheduleBytes_append (v w : List Quad) : scheduleBytes (v ++ w) = scheduleBytes v ++ scheduleBytes w :=
  List.flatMap_append

theorem scheduleBytes_groups {n : Nat} {key : List Byte} (h : key.length = 4 * n) :
    scheduleBytes ((groups 4 n key).map quadOf) = key := by
  have hbytes : (groups 4 n key).map (fun g => (quadOf g).bytes) = groups 4 n key :=
    (List.map_congr_left fun g hg => bytes_quadOf (groups_each_length h.ge g hg)).trans (List.map_id _)
  rw [scheduleBytes, List.flatMap_def, List.map_map, Function.comp_def, hbytes, groups_flatten h]

theorem suffix_keyWordsGrow (n i : Nat) (newest : List Quad) : newest <:+ keyWordsGrow n i newest := by
  induction n generalizing i newest with
  | zero => exact List.suffix_rfl
  | succ n ih => exact (List.suffix_cons _ newest).trans (ih (i + 1) _)

theorem keyWords_prefix_keyExpansion (key : List Byte) : (groups 4 8 key).map quadOf <+: keyExpansion key := by
  simpa [keyExpansion] using List.reverse_prefix.mpr (suffix_keyWordsGrow 52 8 ((groups 4 8 key).map quadOf).reverse)

/-- The schedule starts with the key (R180). -/
theorem take_scheduleBytes_keyExpansion {key : List Byte} (h : key.length = 32) :
    (scheduleBytes (keyExpansion key)).take 32 = key := by
  obtain ⟨rest, hrest⟩ := keyWords_prefix_keyExpansion key
  rw [← hrest, scheduleBytes_append, scheduleBytes_groups h]
  exact List.take_left' h

end Sys2Proof.Machine

open Sys2Proof Sys2Proof.Machine

/-- Settles O25: with its regions in the buffer and its key read KEXP writes the schedule, whose oldest words are the key's. -/
theorem kexpStoresTheSchedule : Obligations.KexpStoresTheSchedule := by
  unfold Obligations.KexpStoresTheSchedule
  intro s key hr hkey
  have h : exec .kexp s = _ := (checkRegions_of_in hr).trans (memRead_of_some hkey)
  exact ⟨_, h, endedDone_finish (.inl rfl), (exec_hostSide h).1, rfl, s.buf.stored_writeBytes _ _, by simp,
    take_scheduleBytes_keyExpansion (Memory.readBytes_length hkey), resultIs_of_set rfl⟩

/-- Settles O56: the power is an inverse, the ring laws make it the only one, and each table is checked at every byte. -/
theorem sboxTablesMeetTheirDefinition : Obligations.SboxTablesMeetTheirDefinition := by
  unfold Obligations.SboxTablesMeetTheirDefinition
  exact ⟨ginv_zero, fun b hb => ⟨gmul_ginv hb, fun c => eq_ginv_of_gmul_eq_one hb⟩, sbox_eq_affine, invSbox_sbox⟩

/-- Settles O57: each round of the inverse cipher undoes one of the cipher, with any schedule. -/
theorem aesDecryptsWhatItEncrypted : Obligations.AesDecryptsWhatItEncrypted := by
  unfold Obligations.AesDecryptsWhatItEncrypted
  intro key x _ hx
  exact decryptBlock_encryptBlock (keyExpansion key) hx

end

section
/-! The chained mode: what a trailing pad byte takes off, decryption undoes encryption block by block, and what CBC_DEC stores (R220 to
R226). -/

namespace Sys2Proof.Machine

variable {s : State}

/-! ### Unpadding -/

theorem unpad_of_getLast? {z : List Byte} {n : Byte} (h : z.getLast? = some n) :
    unpad z = (z.take (z.length - n.toNat), n.toNat) := by
  have hcount : padCount z = n.toNat := by rw [padCount, List.getLastD_eq_getLast?, h, Option.getD_some]
  rw [unpad, hcount]

theorem cbcPad_getLast? (x : List Byte) : (cbcPad x).getLast? = some (BitVec.ofNat 8 (16 - x.length % 16)) := by
  have hpos : 16 - x.length % 16 ≠ 0 := by omega
  rw [cbcPad, List.getLast?_append, List.getLast?_replicate, if_neg hpos, Option.some_or]

/-- The pad count of 1 to 16 fits its byte, so unpadding takes off exactly what padding put on (R220, R223). -/
theorem unpad_cbcPad (x : List Byte) : unpad (cbcPad x) = (x, 16 - x.length % 16) := by
  have hcount : (BitVec.ofNat 8 (16 - x.length % 16)).toNat = 16 - x.length % 16 := by
    rw [BitVec.toNat_ofNat]
    omega
  have hkept : (cbcPad x).length - (16 - x.length % 16) = x.length := by
    rw [cbcPad_length, paddedLen]
    omega
  rw [unpad_of_getLast? (cbcPad_getLast? x), hcount, hkept, cbcPad, List.take_left]

/-! ### Decryption undoes encryption -/

theorem xorBytes_xorBytes_cancel {q prev : List Byte} (h : q.length = prev.length) :
    xorBytes (xorBytes q prev) prev = q := by
  induction q generalizing prev with
  | nil => rfl
  | cons b q ih =>
    obtain ⟨c, prev, rfl⟩ := List.exists_cons_of_length_eq_add_one h.symm
    simpa [xorBytes] using ih (by simpa using h)

theorem groups_succ_append {w n : Nat} {g s : List Byte} (h : g.length = w) :
    groups w (n + 1) (g ++ s) = g :: groups w n s := by
  rw [groups, List.take_left' h, List.drop_left' h]

/-- Each ciphertext block decrypts to its plaintext block XORed with the block before it, which both directions have (R221, R222). -/
theorem cbcDecBlocks_cbcEncBlocks (w : List Quad) {prev : List Byte} {qs : List (List Byte)} (hp : prev.length = 16)
    (hq : ∀ q ∈ qs, q.length = 16) :
    cbcDecBlocks w prev (groups 16 qs.length (cbcEncBlocks w prev qs)) = qs.flatten := by
  induction qs generalizing prev with
  | nil => rfl
  | cons q qs ih =>
    obtain ⟨hq0, hqs⟩ := List.forall_mem_cons.mp hq
    have hblock : decryptBlock w (encryptBlock w (xorBytes q prev)) = xorBytes q prev :=
      decryptBlock_encryptBlock w (by simp [hq0, hp])
    rw [List.length_cons, cbcEncBlocks, groups_succ_append (encryptBlock_length w _), cbcDecBlocks, hblock,
      xorBytes_xorBytes_cancel (hq0.trans hp.symm), ih (encryptBlock_length w _) hqs, List.flatten_cons]

/-- Decrypting an encryption gives the padded plaintext (R220 to R222). -/
theorem cbcDecRaw_cbcEnc (w : List Quad) {iv : List Byte} (hiv : iv.length = 16) (x : List Byte) :
    cbcDecRaw w iv (cbcEnc w iv x) = cbcPad x := by
  have hpad : (cbcPad x).length = 16 * ((cbcPad x).length / 16) := by
    rw [cbcPad_length, paddedLen_eq]
    omega
  have h := cbcDecBlocks_cbcEncBlocks w hiv (groups_each_length hpad.ge)
  rw [groups_length, groups_flatten hpad] at h
  rwa [cbcDecRaw, cbcEnc_length, ← cbcPad_length]

/-! ### CBC_DEC -/

/-- The decryption of a ciphertext that is not empty ends in a byte, its pad byte (R222, R223). -/
theorem cbcDecRaw_getLast? (w : List Quad) {iv y : List Byte} (hiv : iv.length = 16) (h0 : y.length ≠ 0)
    (hy : y.length % 16 = 0) : ∃ n, (cbcDecRaw w iv y).getLast? = some n := by
  have hne : cbcDecRaw w iv y ≠ [] := by
    rw [← List.length_pos_iff, cbcDecRaw_length hiv hy]
    omega
  exact ⟨_, List.getLast?_eq_some_getLast hne⟩

/-- CBC_DEC with its length and regions in order and its inputs read stores what unpadding the decryption keeps, and answers how many
bytes that is and the pad count (R225). -/
theorem exec_cbcDec_eq {key y iv kept : List Byte} {count : Nat} (hc : s.CtLenOk .cbcDec) (hr : s.RegionsOk .cbcDec)
    (hkey : s.buf.readBytes (s.param 0) 32 = some key) (hy : s.buf.readBytes (s.param 1) (s.param 2) = some y)
    (hiv : s.buf.readBytes (s.param 4) 16 = some iv)
    (hout : unpad (cbcDecRaw (keyExpansion key) iv y) = (kept, count)) :
    exec .cbcDec s = .next ((((s.loadKey key (keyExpansion key)).memWrite (s.param 3) kept).setR 0 kept.length).setR 1
      count).finish := by
  obtain ⟨rfl, rfl⟩ := Prod.mk.inj hout
  have hchecks : exec .cbcDec s = _ := (foldr_checkCtLen_of_ok hc).trans (checkRegions_of_in hr)
  exact hchecks.trans ((memRead_of_some hkey).trans ((memRead_of_some hy).trans (memRead_of_some hiv)))

end Sys2Proof.Machine

open Sys2Proof Sys2Proof.Machine

/-- Settles O28: the decryption is not empty, so its last byte says how much of it is stored. -/
theorem cbcDecStoresThePlaintext : Obligations.CbcDecStoresThePlaintext := by
  unfold Obligations.CbcDecStoresThePlaintext
  intro s key y iv hc hr hkey hy hiv
  obtain ⟨h0, hm⟩ : s.param 2 ≠ 0 ∧ s.param 2 % 16 = 0 := hc _ (List.mem_singleton_self _)
  have hylen := Memory.readBytes_length hy
  have hivlen := Memory.readBytes_length hiv
  rw [← hylen] at h0 hm
  have hzlen := (cbcDecRaw_length (w := keyExpansion key) hivlen hm).trans hylen
  obtain ⟨n, hn⟩ := cbcDecRaw_getLast? (keyExpansion key) hivlen h0 hm
  have hout := unpad_of_getLast? hn
  rw [hzlen] at hout
  have h := exec_cbcDec_eq hc hr hkey hy hiv hout
  exact ⟨_, _, n, h, endedDone_finish (.inl rfl), (exec_hostSide h).1, rfl, rfl, hzlen, hn, s.buf.stored_writeBytes _ _,
    resultsAre_of_set (by simp [hzlen])⟩

/-- Settles O58: the padding fills the last block, decryption undoes encryption, and unpadding the padding. -/
theorem cbcLaws : Obligations.CbcLaws := by
  unfold Obligations.CbcLaws
  intro key iv x _ hiv
  exact ⟨cbcEnc_length (keyExpansion key) iv x, by rw [cbcDecRaw_cbcEnc (keyExpansion key) hiv, unpad_cbcPad]⟩

end

section
/-! MODEXP's result, the checks on lengths that come before every other check, the modulus of value 0, and what RSA and the hybrid codec
give back under a valid key pair (R250, R251, R255, R270 to R275, R332). -/

namespace Sys2Proof.Machine

variable {s : State}

/-! ### Lengths come first -/

theorem afterChecks_of_lens_bad {i : Instr} {k : Result} (hl : ¬ s.LensOk i) :
    afterChecks i s k = .next (s.raise .elen) := checkLens_of_not_in hl

theorem foldr_checkCtLen_of_bad {ns : List Nat} {k : Result} (h : ¬ ∀ n ∈ ns, n ≠ 0 ∧ n % 16 = 0) :
    ns.foldr (checkCtLen s) k = .next (s.raise .ectlen) := by
  induction ns with
  | nil => simp at h
  | cons n ns ih =>
    rw [List.foldr_cons]
    by_cases hn : n ≠ 0 ∧ n % 16 = 0
    · obtain ⟨h0, hm⟩ := hn
      rw [checkCtLen_of_ok h0 hm]
      exact ih fun hns => h (List.forall_mem_cons.mpr ⟨⟨h0, hm⟩, hns⟩)
    · exact checkCtLen_of_bad (by omega)

theorem afterChecks_of_ctLen_bad {i : Instr} {k : Result} (hl : s.LensOk i) (hc : ¬ s.CtLenOk i) :
    afterChecks i s k = .next (s.raise .ectlen) :=
  (checkLens_of_in hl).trans (foldr_checkCtLen_of_bad hc)

/-- A stream command has no operand length and no ciphertext length to check. -/
theorem lensOk_and_ctLenOk_of_stream {i : Instr} (hi : i.isStream = true) : s.LensOk i ∧ s.CtLenOk i := by
  cases i with
  | frameTx | frameRx | rawTx | rawRx => exact ⟨List.forall_mem_nil _, List.forall_mem_nil _⟩
  | nop | rngFill | sha256 | kexp | aesEnc | aesDec | cbcEnc | cbcDec | modexp | hybEnc | hybDec => cases hi

/-- A command with a length out of order is a compute command, so its step makes all the checks. -/
theorem exec_eq_afterChecks_of_bad_length {i : Instr} (h : ¬ (s.LensOk i ∧ s.CtLenOk i)) :
    ∃ k, exec i s = afterChecks i s k := by
  obtain ⟨k, hk, -⟩ := exec_eq_afterChecks i s fun hi => absurd (lensOk_and_ctLenOk_of_stream hi) h
  exact ⟨k, hk⟩

/-! ### Commands with a modulus -/

/-- MODEXP with its lengths and regions in order and its inputs read: the modulus decides how it ends (R251). -/
theorem exec_modexp_eq {b x n : List Byte} (hl : s.LensOk .modexp) (hr : s.RegionsOk .modexp)
    (hb : s.buf.readBytes (s.param 0) (s.param 1) = some b) (hx : s.buf.readBytes (s.param 2) (s.param 3) = some x)
    (hn : s.buf.readBytes (s.param 4) (s.param 5) = some n) :
    exec .modexp s =
      if beInt n = 0 then .next (s.raise .emodzero)
      else .next ((s.memWrite (s.param 6) (beMin (modexp (beInt b) (beInt x) (beInt n)))).setR 0
        (beMin (modexp (beInt b) (beInt x) (beInt n))).length).finish := by
  have hchecks : exec .modexp s = _ := (checkLens_of_in hl).trans (checkRegions_of_in hr)
  exact hchecks.trans ((memRead_of_some hb).trans ((memRead_of_some hx).trans (memRead_of_some hn)))

/-- HYB_ENC looks at the modulus once its inputs are read, before any draw (R273). -/
theorem exec_hybEnc_of_zero_modulus {isrc ksrc : Bool} {x n ex key iv : List Byte} (hl : s.LensOk (.hybEnc isrc ksrc))
    (hr : s.RegionsOk (.hybEnc isrc ksrc)) (hx : s.buf.readBytes (s.param 0) (s.param 1) = some x)
    (hn : s.buf.readBytes (s.param 2) (s.param 3) = some n) (hex : s.buf.readBytes (s.param 4) (s.param 5) = some ex)
    (hkey : ksrc = true → s.buf.readBytes (s.param 9) 32 = some key)
    (hiv : isrc = true → s.buf.readBytes (s.param 8) 16 = some iv) (h0 : beInt n = 0) :
    exec (.hybEnc isrc ksrc) s = .next (s.raise .emodzero) := by
  have hchecks : exec (.hybEnc isrc ksrc) s = _ := (checkLens_of_in hl).trans (checkRegions_of_in hr)
  obtain ⟨ivIn, -, hivRead⟩ := memReadIf_of hiv
  obtain ⟨keyIn, -, hkeyRead⟩ := memReadIf_of hkey
  exact hchecks.trans ((memRead_of_some hx).trans ((memRead_of_some hn).trans ((memRead_of_some hex).trans
    (hivRead.trans (hkeyRead.trans (if_pos h0))))))

theorem exec_hybDec_of_zero_modulus {y c iv n d : List Byte} (hl : s.LensOk .hybDec) (hc : s.CtLenOk .hybDec)
    (hr : s.RegionsOk .hybDec) (hy : s.buf.readBytes (s.param 0) (s.param 1) = some y)
    (hwk : s.buf.readBytes (s.param 2) (s.param 3) = some c) (hiv : s.buf.readBytes (s.param 4) 16 = some iv)
    (hn : s.buf.readBytes (s.param 5) (s.param 6) = some n) (hd : s.buf.readBytes (s.param 7) (s.param 8) = some d)
    (h0 : beInt n = 0) : exec .hybDec s = .next (s.raise .emodzero) := by
  have hchecks : exec .hybDec s = _ :=
    (checkLens_of_in hl).trans ((foldr_checkCtLen_of_ok hc).trans (checkRegions_of_in hr))
  exact hchecks.trans ((memRead_of_some hy).trans ((memRead_of_some hwk).trans ((memRead_of_some hiv).trans
    ((memRead_of_some hn).trans ((memRead_of_some hd).trans (if_pos h0))))))

/-! ### RSA -/

/-- Fermat's little theorem for every base, the multiples of the prime among them. -/
theorem pow_modEq_self_of_prime {p x : Nat} (hp : p.Prime) (hx0 : x ≠ 0) (hx : x ≡ 1 [MOD p - 1]) (m : Nat) :
    m ^ x ≡ m [MOD p] := by
  have hfact : Fact p.Prime := ⟨hp⟩
  obtain ⟨k, hk⟩ := (Nat.modEq_iff_dvd' (Nat.one_le_iff_ne_zero.mpr hx0)).mp hx.symm
  obtain rfl : x = (p - 1) * k + 1 := by omega
  rw [← ZMod.natCast_eq_natCast_iff, Nat.cast_pow]
  by_cases hm : (m : ZMod p) = 0
  · rw [hm, zero_pow hx0]
  · rw [pow_succ, pow_mul, ZMod.pow_card_sub_one_eq_one hm, one_pow, one_mul]

/-- The product of the exponents of a valid key pair is not 0, for the two primes are not both 2. -/
theorem ne_zero_of_modEq_one_keyPair {p q x : Nat} (hp : p.Prime) (hq : q.Prime) (hpq : p ≠ q)
    (hx : x ≡ 1 [MOD (p - 1) * (q - 1)]) : x ≠ 0 := by
  rintro rfl
  have hp2 := hp.two_le
  have hq2 := hq.two_le
  have hone : (p - 1) * (q - 1) = 1 := Nat.dvd_one.mp (Nat.modEq_zero_iff_dvd.mp hx.symm)
  obtain ⟨hp1, hq1⟩ := mul_eq_one.mp hone
  omega

/-- With a valid key pair decryption gives back every number below the modulus (R255). -/
theorem modexp_modexp_of_keyPair {p q e d m : Nat} (hp : p.Prime) (hq : q.Prime) (hpq : p ≠ q)
    (hed : e * d ≡ 1 [MOD (p - 1) * (q - 1)]) (hm : m < p * q) :
    modexp (modexp m e (p * q)) d (p * q) = m := by
  have h0 := ne_zero_of_modEq_one_keyPair hp hq hpq hed
  have hmodp := pow_modEq_self_of_prime hp h0 hed.of_mul_right m
  have hmodq := pow_modEq_self_of_prime hq h0 hed.of_mul_left m
  have hmod : m ^ (e * d) ≡ m [MOD p * q] :=
    (Nat.modEq_and_modEq_iff_modEq_mul ((Nat.coprime_primes hp hq).mpr hpq)).mp ⟨hmodp, hmodq⟩
  rw [modexp_eq, modexp_eq, ← Nat.pow_mod, ← Nat.pow_mul]
  exact Nat.mod_eq_of_modEq hmod hm

/-! ### The shortest form of a string's own value -/

theorem beBytes_beInt (s : List Byte) : beBytes (beInt s) s.length = s := by
  induction s using List.reverseRecOn with
  | nil => rfl
  | append_singleton s b ih =>
    have hval : beInt (s ++ [b]) = beInt s * 256 + b.toNat := by simp [beInt_append, beInt_cons]
    have hb : b.toNat < 256 := b.isLt
    have hinit : (beInt s * 256 + b.toNat) / 256 = beInt s := by omega
    have hlast : BitVec.ofNat 8 (beInt s * 256 + b.toNat) = b := by
      apply BitVec.eq_of_toNat_eq
      rw [BitVec.toNat_ofNat]
      omega
    rw [hval, List.length_append, List.length_singleton, beBytes, hinit, ih, hlast]

/-- A string whose first byte is not 0 is the shortest form of its value (R13). -/
theorem beMin_beInt {b : Byte} (hb : b ≠ 0) (s : List Byte) : beMin (beInt (b :: s)) = b :: s := by
  have hle := beMin_beInt_length_le (List.cons_ne_nil b s)
  have hge : s.length < (beMin (beInt (b :: s))).length := by
    refine (Nat.pow_lt_pow_iff_right (a := 256) (by omega)).mp ?_
    calc 256 ^ s.length ≤ b.toNat * 256 ^ s.length := Nat.le_mul_of_pos_left _ (by bv_omega)
      _ ≤ beInt (b :: s) := by rw [beInt_cons]; exact Nat.le_add_right _ _
      _ = beInt (beMin (beInt (b :: s))) := (beInt_beMin _).symm
      _ < 256 ^ (beMin (beInt (b :: s))).length := beInt_lt _
  have hlen : max 1 ((bitLen (beInt (b :: s)) + 7) / 8) = (b :: s).length := by
    rw [← beMin_length]
    exact Nat.le_antisymm hle hge
  rw [beMin, hlen, beBytes_beInt]

/-! ### The key text -/

theorem hexVal_hexDigit : ∀ v < 16, hexVal (hexDigit v) = some v := by decide

/-- The digits are characters from `0` on, of seven bits (R271). -/
theorem hexDigit_bounds : ∀ v < 16, 0x30 ≤ (hexDigit v).toNat ∧ (hexDigit v).toNat < 0x80 := by decide

theorem keyText_cons (b : Byte) (key : List Byte) :
    keyText (b :: key) = hexDigit (b.toNat / 16) :: hexDigit (b.toNat % 16) :: keyText key := rfl

theorem keyText_length (key : List Byte) : (keyText key).length = 2 * key.length := by
  induction key with
  | nil => rfl
  | cons b key ih =>
    rw [keyText_cons, List.length_cons, List.length_cons, ih, List.length_cons]
    omega

theorem hexPairs_keyText (key : List Byte) : hexPairs (keyText key) = some key := by
  induction key with
  | nil => rfl
  | cons b key ih =>
    have hb : b.toNat < 256 := b.isLt
    rw [keyText_cons, hexPairs, hexVal_hexDigit _ (by omega), hexVal_hexDigit _ (by omega), ih]
    simp [Nat.div_add_mod]

/-- Parsing undoes the key text (R271, R272). -/
theorem keyParse_keyText {key : List Byte} (h : key.length = 32) : keyParse (keyText key) = some key := by
  rw [keyParse, if_pos (by rw [keyText_length, h]), hexPairs_keyText]

/-- The first byte of a key's text is a digit. -/
theorem exists_keyText_eq_cons {key : List Byte} (h : key.length = 32) :
    ∃ (t : Byte) (ts : List Byte), keyText key = t :: ts ∧ ts.length = 63 ∧ 0x30 ≤ t.toNat ∧ t.toNat < 0x80 := by
  obtain ⟨b, key, rfl⟩ := List.exists_cons_of_length_eq_add_one h
  have hlen := keyText_length (b :: key)
  have hb : b.toNat < 256 := b.isLt
  rw [keyText_cons, List.length_cons, h] at hlen
  exact ⟨_, _, keyText_cons b key, by omega, hexDigit_bounds _ (by omega)⟩

/-- A key's text is not changed on its way through its value, since it starts with no zero byte (R270, R274). -/
theorem beMin_beInt_keyText {key : List Byte} (h : key.length = 32) : beMin (beInt (keyText key)) = keyText key := by
  obtain ⟨t, ts, heq, -, hdigit, -⟩ := exists_keyText_eq_cons h
  rw [heq]
  refine beMin_beInt ?_ ts
  rintro rfl
  simp at hdigit

/-- The 64 digits have seven bits each, the first among them (R275). -/
theorem beInt_keyText_lt {key : List Byte} (h : key.length = 32) : beInt (keyText key) < 2 ^ 511 := by
  obtain ⟨t, ts, heq, hlen, -, hlt⟩ := exists_keyText_eq_cons h
  have hrest := beInt_lt ts
  have hfirst : t.toNat * 256 ^ 63 ≤ 127 * 256 ^ 63 := Nat.mul_le_mul_right _ (by omega)
  rw [hlen] at hrest
  rw [heq, beInt_cons, hlen]
  omega

end Sys2Proof.Machine

open Sys2Proof Sys2Proof.Machine

/-- Settles O29: with a modulus that is not 0 the result is a residue, so it is no longer than the modulus. -/
theorem modexpStoresThePower : Obligations.ModexpStoresThePower := by
  unfold Obligations.ModexpStoresThePower
  intro s b x n hl hr hb hx hn h0
  have h := (exec_modexp_eq hl hr hb hx hn).trans (if_neg h0)
  refine ⟨_, _, h, endedDone_finish (.inl rfl), (exec_hostSide h).1, rfl, by rw [modexp_eq], ?_, ?_,
    s.buf.stored_writeBytes _ _, resultIs_of_set rfl⟩
  · rw [beMin_length]
    exact Nat.le_max_left _ _
  · exact Memory.readBytes_length hn ▸ modexp_bytes_length_le h0

/-- Settles O33: a command with such a length makes its checks, operand lengths first and then the ciphertext length. -/
theorem lengthErrorsComeFirst : Obligations.LengthErrorsComeFirst := by
  unfold Obligations.LengthErrorsComeFirst
  refine ⟨fun s i hl => ?_, fun s i hl hc => ?_⟩
  · obtain ⟨k, hk⟩ := exec_eq_afterChecks_of_bad_length fun h => hl h.1
    exact ⟨_, hk.trans (afterChecks_of_lens_bad hl), failsPrecisely_raise (.refl s.env) _⟩
  · obtain ⟨k, hk⟩ := exec_eq_afterChecks_of_bad_length fun h => hc h.2
    exact ⟨_, hk.trans (afterChecks_of_ctLen_bad hl hc), failsPrecisely_raise (.refl s.env) _⟩

/-- Settles O34: each command looks at its modulus right after its inputs are read. -/
theorem zeroModulusIsEmodzero : Obligations.ZeroModulusIsEmodzero := by
  unfold Obligations.ZeroModulusIsEmodzero
  refine ⟨?_, ?_, ?_⟩
  · intro s b x n hl hr hb hx hn h0
    exact ⟨_, (exec_modexp_eq hl hr hb hx hn).trans (if_pos h0), failsPrecisely_raise (.refl s.env) _, rfl⟩
  · intro s isrc ksrc x n ex key iv hl hr hx hn hex hkey hiv h0
    exact ⟨_, exec_hybEnc_of_zero_modulus hl hr hx hn hex hkey hiv h0, failsPrecisely_raise (.refl s.env) _, rfl⟩
  · intro s y c iv n d hl hc hr hy hwk hiv hn hd h0
    exact ⟨_, exec_hybDec_of_zero_modulus hl hc hr hy hwk hiv hn hd h0, failsPrecisely_raise (.refl s.env) _, rfl⟩

/-- Settles O60: Fermat's little theorem at each prime; the key text survives its number, and parsing, decryption and unpadding
undo their opposites. -/
theorem rsaAndHybridRoundTrip : Obligations.RsaAndHybridRoundTrip := by
  unfold Obligations.RsaAndHybridRoundTrip
  intro p q e d hp hq hpq hed
  refine ⟨fun m hm => modexp_modexp_of_keyPair hp hq hpq hed hm, fun key iv x hkey hiv hlt => ⟨?_, ?_⟩,
    fun key hkey => beInt_keyText_lt hkey⟩
  · rw [wrapKey, beInt_beMin, modexp_modexp_of_keyPair hp hq hpq hed hlt, beMin_beInt_keyText hkey, keyParse_keyText hkey]
  · rw [cbcDecRaw_cbcEnc (keyExpansion key) hiv, unpad_cbcPad]

end

section
/-! HYB_DEC: which texts parse as a key, and how the command ends once its inputs are read and its modulus is not 0 (R272, R274). -/

namespace Sys2Proof.Machine

variable {s : State}

/-! ### The text of a key -/

theorem hexVal_isSome_iff {c : Byte} : (hexVal c).isSome ↔
    (0x30 ≤ c.toNat ∧ c.toNat ≤ 0x39) ∨ (0x61 ≤ c.toNat ∧ c.toNat ≤ 0x66) := by
  rw [hexVal]
  split
  · next h => exact iff_of_true rfl (.inl h)
  · next h =>
    rw [or_iff_right h]
    split
    · next h' => exact iff_of_true rfl h'
    · next h' => exact iff_of_false Bool.false_ne_true h'

theorem hexPairs_cons_cons_isSome_iff {t0 t1 : Byte} {ts : List Byte} :
    (hexPairs (t0 :: t1 :: ts)).isSome ↔ (hexVal t0).isSome ∧ (hexVal t1).isSome ∧ (hexPairs ts).isSome := by
  rw [hexPairs]
  split
  · next h0 h1 hs => simp [h0, h1, hs]
  · next hnone =>
    refine iff_of_false Bool.false_ne_true fun ⟨h0, h1, hs⟩ => ?_
    obtain ⟨v0, h0⟩ := Option.isSome_iff_exists.mp h0
    obtain ⟨v1, h1⟩ := Option.isSome_iff_exists.mp h1
    obtain ⟨bs, hs⟩ := Option.isSome_iff_exists.mp hs
    exact hnone v0 v1 bs h0 h1 hs

/-- A text of digit pairs has an even length and only digits. -/
theorem hexPairs_isSome_iff (ts : List Byte) :
    (hexPairs ts).isSome ↔ ts.length % 2 = 0 ∧ ∀ c ∈ ts, (hexVal c).isSome := by
  induction ts using List.twoStepInduction with
  | nil => simp [hexPairs]
  | singleton t => simp [hexPairs]
  | cons_cons t0 t1 ts ih _ =>
    rw [hexPairs_cons_cons_isSome_iff, ih, List.forall_mem_cons, List.forall_mem_cons, List.length_cons, List.length_cons,
      Nat.add_mod_right ts.length 2]
    tauto

/-- A text parses exactly when it is 64 lowercase hexadecimal digits (R272). -/
theorem keyParse_isSome_iff {text : List Byte} :
    (keyParse text).isSome ↔ text.length = 64 ∧
      ∀ c ∈ text, (0x30 ≤ c.toNat ∧ c.toNat ≤ 0x39) ∨ (0x61 ≤ c.toNat ∧ c.toNat ≤ 0x66) := by
  simp only [← hexVal_isSome_iff]
  rw [keyParse]
  split
  · next h => rw [hexPairs_isSome_iff, h]; simp
  · next h => exact iff_of_false Bool.false_ne_true fun h' => h h'.1

/-! ### The command -/

/-- The last byte of a decryption says how much of it unpadding keeps (R222, R223). -/
theorem exists_unpad_cbcDecRaw (w : List Quad) {iv y : List Byte} (hiv : iv.length = 16) (h0 : y.length ≠ 0)
    (hy : y.length % 16 = 0) : ∃ k, (cbcDecRaw w iv y).getLast? = some k ∧
      unpad (cbcDecRaw w iv y) = ((cbcDecRaw w iv y).take (y.length - k.toNat), k.toNat) := by
  obtain ⟨k, hk⟩ := cbcDecRaw_getLast? w hiv h0 hy
  exact ⟨k, hk, cbcDecRaw_length (w := w) hiv hy ▸ unpad_of_getLast? hk⟩

/-- What HYB_DEC stores under the key it unwrapped, before it ends: the bytes `out` keeps, and in the results how many they are and its
pad count (R274). -/
def State.storeUnwrapped (s : State) (key : List Byte) (out : List Byte × Nat) : State :=
  (((s.loadKey key (keyExpansion key)).memWrite (s.param 9) out.1).setR 0 out.1.length).setR 1 out.2

/-- HYB_DEC with its lengths and regions in order, its inputs read and a modulus that is not 0: the unwrapped text decides how it ends
(R274). -/
theorem exec_hybDec_eq {y c iv n d : List Byte} (hl : s.LensOk .hybDec) (hc : s.CtLenOk .hybDec) (hr : s.RegionsOk .hybDec)
    (hy : s.buf.readBytes (s.param 0) (s.param 1) = some y) (hwk : s.buf.readBytes (s.param 2) (s.param 3) = some c)
    (hiv : s.buf.readBytes (s.param 4) 16 = some iv) (hn : s.buf.readBytes (s.param 5) (s.param 6) = some n)
    (hd : s.buf.readBytes (s.param 7) (s.param 8) = some d) (h0 : beInt n ≠ 0) :
    exec .hybDec s = (keyParse (beMin (beInt c ^ beInt d % beInt n))).elim (.next (s.raise .ekeydec)) fun key =>
      .next (s.storeUnwrapped key (unpad (cbcDecRaw (keyExpansion key) iv y))).finish := by
  have hchecks : exec .hybDec s = _ :=
    (checkLens_of_in hl).trans ((foldr_checkCtLen_of_ok hc).trans (checkRegions_of_in hr))
  have hinputs := hchecks.trans ((memRead_of_some hy).trans ((memRead_of_some hwk).trans ((memRead_of_some hiv).trans
    ((memRead_of_some hn).trans ((memRead_of_some hd).trans (if_neg h0))))))
  rw [hinputs, modexp_eq]
  cases keyParse (beMin (beInt c ^ beInt d % beInt n)) with
  | none => rfl
  | some key => rfl

end Sys2Proof.Machine

open Sys2Proof Sys2Proof.Machine

/-- Settles O31: the text parses, so HYB_DEC decrypts with its key and stores what unpadding keeps. -/
theorem hybDecStoresThePlaintext : Obligations.HybDecStoresThePlaintext := by
  unfold Obligations.HybDecStoresThePlaintext
  intro s y c iv n d key hl hc hr hy hwk hiv hn hd h0 hkey
  obtain ⟨hpos, hmod⟩ : s.param 1 ≠ 0 ∧ s.param 1 % 16 = 0 := hc _ (List.mem_singleton_self _)
  have hylen := Memory.readBytes_length hy
  have hivlen := Memory.readBytes_length hiv
  rw [← hylen] at hpos hmod
  have hzlen := cbcDecRaw_length (w := keyExpansion key) hivlen hmod
  obtain ⟨k, hk, hout⟩ := exists_unpad_cbcDecRaw (keyExpansion key) hivlen hpos hmod
  have h := exec_hybDec_eq hl hc hr hy hwk hiv hn hd h0
  rw [hkey, Option.elim_some, hout] at h
  rw [← hylen]
  exact ⟨_, _, k, h, endedDone_finish (.inl rfl), (exec_hostSide h).1, rfl, rfl, hzlen, hk, s.buf.stored_writeBytes _ _,
    resultsAre_of_set (by simp [State.storeUnwrapped, hzlen])⟩

/-- Settles O35: a text parses exactly when it is a key's, and the text that does not parse is looked at before anything is written. -/
theorem badKeyTextIsEkeydec : Obligations.BadKeyTextIsEkeydec := by
  unfold Obligations.BadKeyTextIsEkeydec
  refine ⟨fun text => ?_, ?_⟩
  · rw [← keyParse_isSome_iff, Option.not_isSome_iff_eq_none]
  · intro s y c iv n d hl hc hr hy hwk hiv hn hd h0 hkey
    have h := exec_hybDec_eq hl hc hr hy hwk hiv hn hd h0
    rw [hkey, Option.elim_none] at h
    exact ⟨_, h, failsPrecisely_raise (.refl s.env) _⟩

end

section
/-! The steps of the stream commands: the bounds check, and then one byte a step (R290 to R297, R339). -/

namespace Sys2Proof.Machine

variable {s : State}

/-! ### Which step a stream command takes -/

section
variable {x : List Byte}

theorem exec_frameTx_of_checked (hc : s.progress.checked = true) : exec .frameTx s = sendStep s true (s.param 1) :=
  if_pos hc

theorem exec_rawTx_of_checked (hc : s.progress.checked = true) : exec .rawTx s = sendStep s false (s.param 1) :=
  if_pos hc

theorem exec_frameRx_of_header (hc : s.progress.checked = true) (hh : s.hdrGot < 4) :
    exec .frameRx s = headerStep s (s.param 1) :=
  (if_pos hc).trans (if_pos hh)

theorem exec_frameRx_of_payload (hc : s.progress.checked = true) (hh : ¬ s.hdrGot < 4) :
    exec .frameRx s = receiveStep s (s.param 0) s.progress.declared.toNat :=
  (if_pos hc).trans (if_neg hh)

theorem exec_rawRx_of_checked (hc : s.progress.checked = true) : exec .rawRx s = receiveStep s (s.param 0) (s.param 1) :=
  if_pos hc

theorem exec_frameTx_of_unchecked (hc : s.progress.checked = false) (hr : s.RegionsOk .frameTx)
    (hx : s.buf.readBytes (s.param 0) (s.param 1) = some x) :
    exec .frameTx s = .next (s.streamChecked (frameHeader (s.param 1) ++ x)) :=
  (if_neg (by simp [hc])).trans ((checkRegions_of_in hr).trans (memRead_of_some hx))

theorem exec_rawTx_of_unchecked (hc : s.progress.checked = false) (hr : s.RegionsOk .rawTx)
    (hx : s.buf.readBytes (s.param 0) (s.param 1) = some x) :
    exec .rawTx s = if s.param 1 = 0 then .next (s.setCounts 0 0 0).finish else .next (s.streamChecked x) :=
  (if_neg (by simp [hc])).trans ((checkRegions_of_in hr).trans (memRead_of_some hx))

theorem exec_frameRx_of_unchecked (hc : s.progress.checked = false) (hr : s.RegionsOk .frameRx) :
    exec .frameRx s = .next (s.streamChecked []) :=
  (if_neg (by simp [hc])).trans (checkRegions_of_in hr)

theorem exec_rawRx_of_unchecked (hc : s.progress.checked = false) (hr : s.RegionsOk .rawRx) :
    exec .rawRx s = if s.param 1 = 0 then .next (s.setCounts 0 0 0).finish else .next (s.streamChecked []) :=
  (if_neg (by simp [hc])).trans (checkRegions_of_in hr)

end

/-! ### A command ends -/

section
variable {u : State} {r : Result} {st : Status} {E : State → Prop} {v0 v1 v2 : Nat}

theorem sameHostSide_unheld (s : State) : s.SameHostSide s.unheld := ⟨rfl, rfl, rfl, rfl, rfl, rfl, rfl, rfl⟩

/-- A stream command that ends leaves its counts, and all else as it was before but for how it ended. -/
theorem endsWithCounts (h : r = .next ((u.setCounts v0 v1 v2).complete st)) (hhost : s.SameHostSide u) (hr : u.r = s.r)
    (hE : E ((u.setCounts v0 v1 v2).complete st)) :
    ∃ t, r = .next t ∧ E t ∧ s.SameHostSide t ∧ t.env = u.env ∧ t.buf = u.buf ∧ s.CountsAre t v0 v1 v2 :=
  ⟨_, h, hE, hhost, rfl, rfl, countsAre_setCounts hr⟩

/-- FRAME_RX has no counts but the header's before its length is known (R295). -/
theorem frameRx_endsWithCounts (hs : s.progress.checked = true)
    (hhdr : headerStep s (s.param 1) = .next ((s.unheld.setCounts 0 0 s.hdrGot).complete st))
    (hpay : receiveStep s (s.param 0) s.progress.declared.toNat =
      .next ((s.unheld.setCounts s.progress.doneBytes s.progress.declared.toNat
        (s.hdrGot + s.progress.doneBytes)).complete st))
    (hE : ∀ v0 v1 v2, E ((s.unheld.setCounts v0 v1 v2).complete st)) :
    ∃ t, exec .frameRx s = .next t ∧ E t ∧ s.SameHostSide t ∧ t.env = s.env ∧ t.buf = s.buf ∧
      (s.hdrGot < 4 → s.CountsAre t 0 0 s.hdrGot) ∧
      (s.hdrGot = 4 → s.CountsAre t s.progress.doneBytes s.progress.declared.toNat (4 + s.progress.doneBytes)) := by
  by_cases hh : s.hdrGot < 4
  · obtain ⟨t, h, hend, hhost, henv, hbuf, hcounts⟩ :=
      endsWithCounts ((exec_frameRx_of_header hs hh).trans hhdr) (sameHostSide_unheld s) rfl (hE _ _ _)
    exact ⟨t, h, hend, hhost, henv, hbuf, fun _ => hcounts, fun h4 => absurd h4 hh.ne⟩
  · obtain ⟨t, h, hend, hhost, henv, hbuf, hcounts⟩ :=
      endsWithCounts ((exec_frameRx_of_payload hs hh).trans hpay) (sameHostSide_unheld s) rfl (hE _ _ _)
    exact ⟨t, h, hend, hhost, henv, hbuf, fun hlt => absurd hlt hh, fun h4 => h4 ▸ hcounts⟩

end

/-! ### A byte goes out -/

section
variable {framed : Bool} {n c : Nat} {b : Byte} {rest : List Byte}

/-- The byte `b` has gone out, `rest` is still to be sent, and the TX environment accepts `c` bytes more (R291). -/
def State.accepted (s : State) (framed : Bool) (b : Byte) (rest : List Byte) (c : Nat) : State :=
  (s.unheld.withEnv { s.env with txLog := s.env.txLog ++ [b], txCredit := c }).sentByte framed b rest

theorem State.sameHostSide_accepted (s : State) (framed : Bool) (b : Byte) (rest : List Byte) (c : Nat) :
    s.SameHostSide (s.accepted framed b rest c) :=
  ⟨rfl, rfl, rfl, rfl, rfl, rfl, rfl, rfl⟩

/-- A byte that goes out counts once, in the header or in the payload (R294). -/
theorem sentByte_streamBytes :
    (s.sentByte framed b rest).hdrGot + (s.sentByte framed b rest).progress.doneBytes =
      s.hdrGot + s.progress.doneBytes + 1 := by
  by_cases hh : framed = true ∧ s.hdrGot < 4
  · obtain ⟨rfl, hh⟩ := hh
    rw [State.hdrGot, sentByte_header_progress hh]
    simp only [State.hdrGot, List.length_append, List.length_singleton]
    omega
  · rw [State.hdrGot, sentByte_payload_progress fun hf => Nat.le_of_not_lt fun h => hh ⟨hf, h⟩]
    rfl

theorem sendStep_of_abort (hp : s.progress.pending ≠ []) (ha : s.abortPending = true) :
    sendStep s framed n =
      .next (s.unheld.setCounts s.progress.doneBytes n (s.hdrGot + s.progress.doneBytes)).cancel := by
  obtain ⟨b, rest, hp⟩ := List.exists_cons_of_ne_nil hp
  simp only [sendStep, hp]
  exact txPut_of_abort ha

theorem sendStep_of_closed (hp : s.progress.pending ≠ []) (ha : s.abortPending = false) (hc : s.env.txClosed = true) :
    sendStep s framed n =
      .next ((s.unheld.setCounts s.progress.doneBytes n (s.hdrGot + s.progress.doneBytes)).raise .etxclosed) := by
  obtain ⟨b, rest, hp⟩ := List.exists_cons_of_ne_nil hp
  simp only [sendStep, hp]
  exact txPut_of_closed ha hc

theorem sendStep_of_no_credit (hp : s.progress.pending ≠ []) (ha : s.abortPending = false) (hc : s.env.txClosed = false)
    (hn : s.env.txCredit = 0) : sendStep s framed n = .next s.held := by
  obtain ⟨b, rest, hp⟩ := List.exists_cons_of_ne_nil hp
  simp only [sendStep, hp]
  exact txPut_of_no_credit ha hc hn

theorem sendStep_of_more (hp : s.progress.pending = b :: rest) (hr : rest ≠ []) (ha : s.abortPending = false)
    (hc : s.env.txClosed = false) (hn : s.env.txCredit = c + 1) :
    sendStep s framed n = .next (s.accepted framed b rest c) := by
  simp only [sendStep, hp]
  exact (txPut_of_credit ha hc hn).trans (if_neg (by simpa using hr))

theorem sendStep_of_last (hp : s.progress.pending = [b]) (ha : s.abortPending = false)
    (hc : s.env.txClosed = false) (hn : s.env.txCredit = c + 1) :
    sendStep s framed n = .next ((s.accepted framed b [] c).setCounts (s.sentByte framed b []).progress.doneBytes n
      (s.hdrGot + s.progress.doneBytes + 1)).finish := by
  rw [← sentByte_streamBytes (framed := framed) (b := b) (rest := [])]
  simp only [sendStep, hp]
  exact txPut_of_credit ha hc hn

/-- A byte step of FRAME_TX and RAW_TX that the TX environment accepts (R291, R294, R296). -/
theorem sendStep_sendsOneByte (hp : s.progress.pending = b :: rest) (ha : s.abortPending = false)
    (hc : s.env.txClosed = false) (hn : s.env.txCredit = c + 1) :
    ∃ t, sendStep s framed n = .next t ∧ s.SameHostSide t ∧ t.buf = s.buf ∧
      t.env = { s.env with txLog := s.env.txLog ++ [b], txCredit := c } ∧
      (rest ≠ [] → t.phase = s.phase ∧ t.abortPending = false ∧ t.keyStore = s.keyStore ∧ t.r = s.r ∧
        t.status = { s.status with wait := false } ∧ t.progress = (s.sentByte framed b rest).progress) ∧
      (rest = [] → s.EndedDone t ∧
        s.CountsAre t (s.sentByte framed b rest).progress.doneBytes n (s.hdrGot + s.progress.doneBytes + 1)) := by
  by_cases hr : rest = []
  · subst hr
    obtain ⟨t, h, hend, hhost, henv, hbuf, hcounts⟩ := endsWithCounts (E := s.EndedDone)
      (sendStep_of_last (framed := framed) (n := n) hp ha hc hn) (s.sameHostSide_accepted _ _ _ _) rfl
      (endedDone_finish (.inr rfl))
    exact ⟨t, h, hhost, hbuf, henv, fun h => absurd rfl h, fun _ => ⟨hend, hcounts⟩⟩
  · exact ⟨_, sendStep_of_more hp hr ha hc hn, s.sameHostSide_accepted _ _ _ _, rfl, rfl,
      fun _ => ⟨rfl, ha, rfl, rfl, rfl, rfl⟩, fun h => absurd h hr⟩

end

/-! ### A byte comes in -/

section
variable {dst n cap : Nat} {b : Byte} {q : List Byte}

/-- A byte has left `rx_q`, and `q` is what follows it (R290). -/
def State.taken (s : State) (q : List Byte) : State := s.unheld.withEnv { s.env with rxQ := q }

theorem State.sameHostSide_taken (s : State) (q : List Byte) : s.SameHostSide (s.taken q) :=
  ⟨rfl, rfl, rfl, rfl, rfl, rfl, rfl, rfl⟩

theorem receiveStep_of_abort (ha : s.abortPending = true) : receiveStep s dst n =
    .next (s.unheld.setCounts s.progress.doneBytes n (s.hdrGot + s.progress.doneBytes)).cancel := by
  rw [receiveStep]
  exact rxTake_of_abort ha

theorem receiveStep_of_closed (ha : s.abortPending = false) (hq : s.env.rxQ = []) (hc : s.env.rxClosed = true) :
    receiveStep s dst n =
      .next ((s.unheld.setCounts s.progress.doneBytes n (s.hdrGot + s.progress.doneBytes)).raise .etrunc) := by
  rw [receiveStep]
  exact rxTake_of_closed ha hq hc

theorem receiveStep_of_empty (ha : s.abortPending = false) (hq : s.env.rxQ = []) (hc : s.env.rxClosed = false) :
    receiveStep s dst n = .next s.held := by
  rw [receiveStep]
  exact rxTake_of_empty ha hq hc

theorem receiveStep_of_more (ha : s.abortPending = false) (hq : s.env.rxQ = b :: q) (hlt : s.progress.doneBytes + 1 < n) :
    receiveStep s dst n = .next ((s.taken q).gotPayloadByte (dst + s.progress.doneBytes) b) := by
  rw [receiveStep]
  exact (rxTake_of_byte ha hq).trans (if_pos hlt)

theorem receiveStep_of_last (ha : s.abortPending = false) (hq : s.env.rxQ = b :: q) (hn : n = s.progress.doneBytes + 1) :
    receiveStep s dst n = .next (((s.taken q).gotPayloadByte (dst + s.progress.doneBytes) b).setCounts
      n n (s.hdrGot + n)).finish := by
  subst hn
  rw [receiveStep]
  exact (rxTake_of_byte ha hq).trans (if_neg (Nat.lt_irrefl _))

/-- A payload byte step of FRAME_RX and RAW_RX when a byte is there (R290, R295, R297). -/
theorem receiveStep_storesOneByte (ha : s.abortPending = false) (hq : s.env.rxQ = b :: q) (hlt : s.progress.doneBytes < n) :
    ∃ t, receiveStep s dst n = .next t ∧ s.SameHostSide t ∧ t.env = { s.env with rxQ := q } ∧
      s.buf.Stored t.buf (dst + s.progress.doneBytes) [b] ∧
      (s.progress.doneBytes + 1 < n → t.phase = s.phase ∧ t.abortPending = false ∧ t.keyStore = s.keyStore ∧
        t.r = s.r ∧ t.status = { s.status with wait := false } ∧
        t.progress = { s.progress with doneBytes := s.progress.doneBytes + 1 }) ∧
      (s.progress.doneBytes + 1 = n → s.EndedDone t ∧ s.CountsAre t n n (s.hdrGot + n)) := by
  by_cases hn : n = s.progress.doneBytes + 1
  · obtain ⟨t, h, hend, hhost, henv, hbuf, hcounts⟩ := endsWithCounts (E := s.EndedDone)
      (receiveStep_of_last (dst := dst) ha hq hn) (s.sameHostSide_taken q) rfl (endedDone_finish (.inr rfl))
    exact ⟨t, h, hhost, henv, hbuf ▸ s.buf.stored_writeBytes _ _, fun h => absurd hn h.ne', fun _ => ⟨hend, hcounts⟩⟩
  · exact ⟨_, receiveStep_of_more ha hq (by omega), s.sameHostSide_taken q, rfl,
      s.buf.stored_writeBytes _ _, fun _ => ⟨rfl, ha, rfl, rfl, rfl, rfl⟩, fun h => absurd h.symm hn⟩

theorem headerStep_of_abort (ha : s.abortPending = true) :
    headerStep s cap = .next (s.unheld.setCounts 0 0 s.hdrGot).cancel := by
  rw [headerStep]
  exact rxTake_of_abort ha

theorem headerStep_of_closed (ha : s.abortPending = false) (hq : s.env.rxQ = []) (hc : s.env.rxClosed = true) :
    headerStep s cap = .next ((s.unheld.setCounts 0 0 s.hdrGot).raise .etrunc) := by
  rw [headerStep]
  exact rxTake_of_closed ha hq hc

theorem headerStep_of_empty (ha : s.abortPending = false) (hq : s.env.rxQ = []) (hc : s.env.rxClosed = false) :
    headerStep s cap = .next s.held := by
  rw [headerStep]
  exact rxTake_of_empty ha hq hc

theorem headerStep_of_more (ha : s.abortPending = false) (hq : s.env.rxQ = b :: q) (hlt : s.hdrGot < 3) :
    headerStep s cap = .next ((s.taken q).gotHeaderByte b) := by
  rw [headerStep]
  refine (rxTake_of_byte ha hq).trans (if_pos ?_)
  rw [gotHeaderByte_hdrGot]
  exact Nat.succ_lt_succ hlt

/-- With the fourth header byte the length is known (R295). -/
theorem headerStep_of_fourth (ha : s.abortPending = false) (hq : s.env.rxQ = b :: q) (h3 : s.hdrGot = 3) :
    headerStep s cap =
      if cap < beInt (s.progress.hdr ++ [b]) then
        .next ((((s.taken q).gotHeaderByte b).setCounts 0 (beInt (s.progress.hdr ++ [b])) 4).raise .eframelen)
      else if beInt (s.progress.hdr ++ [b]) = 0 then .next (((s.taken q).gotHeaderByte b).setCounts 0 0 4).finish
      else .next (((s.taken q).gotHeaderByte b).gotLength (beInt (s.progress.hdr ++ [b]))) := by
  rw [headerStep]
  refine (rxTake_of_byte ha hq).trans (if_neg ?_)
  rw [gotHeaderByte_hdrGot]
  exact Nat.not_lt.mpr (congrArg Nat.succ h3).ge

/-- A receive command whose stream is empty and open is held (R290). -/
theorem exec_rx_of_empty (hs : s.progress.checked = true) (ha : s.abortPending = false) (hq : s.env.rxQ = [])
    (hc : s.env.rxClosed = false) : exec .frameRx s = .next s.held ∧ exec .rawRx s = .next s.held := by
  refine ⟨?_, (exec_rawRx_of_checked hs).trans (receiveStep_of_empty ha hq hc)⟩
  by_cases hh : s.hdrGot < 4
  · exact (exec_frameRx_of_header hs hh).trans (headerStep_of_empty ha hq hc)
  · exact (exec_frameRx_of_payload hs hh).trans (receiveStep_of_empty ha hq hc)

end

end Sys2Proof.Machine

open Sys2Proof Sys2Proof.Machine

/-- Settles O45: the bounds check passes, and a transmit command reads what it will send. -/
theorem streamCommandsStart : Obligations.StreamCommandsStart := by
  unfold Obligations.StreamCommandsStart
  intro s hc hr
  have hend : s.EndedDone (s.setCounts 0 0 0).finish ∧ s.CountsAre (s.setCounts 0 0 0).finish 0 0 0 ∧
      s.SameHostSide (s.setCounts 0 0 0).finish ∧ (s.setCounts 0 0 0).finish.env = s.env ∧
      (s.setCounts 0 0 0).finish.buf = s.buf :=
    ⟨endedDone_finish (.inl rfl), countsAre_setCounts rfl, ⟨rfl, rfl, rfl, rfl, rfl, rfl, rfl, rfl⟩, rfl, rfl⟩
  refine ⟨fun x hx => ⟨exec_frameTx_of_unchecked hc hr hx, fun h0 => ?_⟩, exec_frameRx_of_unchecked hc hr, fun h0 => ?_,
    fun h0 => ⟨⟨_, ?_, hend⟩, ⟨_, ?_, hend⟩⟩⟩
  · exact (exec_rawTx_of_unchecked hc hr hx).trans (if_neg h0)
  · exact (exec_rawRx_of_unchecked hc hr).trans (if_neg h0)
  · have hx : s.buf.readBytes (s.param 0) (s.param 1) = some [] := by rw [h0, Memory.readBytes]
    exact (exec_rawTx_of_unchecked hc hr hx).trans (if_pos h0)
  · exact (exec_rawRx_of_unchecked hc hr).trans (if_pos h0)

/-- Settles O46: the byte goes out in the header or in the payload, and it is the last one or not. -/
theorem transmitStepSendsOneByte : Obligations.TransmitStepSendsOneByte := by
  unfold Obligations.TransmitStepSendsOneByte
  intro s b rest c hs hp ha hc hn
  rw [exec_frameTx_of_checked hs, exec_rawTx_of_checked hs]
  refine ⟨?_, sendStep_sendsOneByte hp ha hc hn⟩
  obtain ⟨t, h, hhost, hbuf, henv, hmore, hlast⟩ := sendStep_sendsOneByte (framed := true) (n := s.param 1) hp ha hc hn
  refine ⟨t, h, hhost, hbuf, henv, ?_⟩
  by_cases hh : s.hdrGot < 4
  · rw [sentByte_header_progress hh] at hmore hlast
    simp only [if_pos hh]
    exact ⟨hmore, hlast⟩
  · rw [sentByte_payload_progress fun _ => Nat.le_of_not_lt hh] at hmore hlast
    simp only [if_neg hh]
    exact ⟨hmore, hlast⟩

/-- Settles O47: both commands take the payload byte by `receiveStep`. -/
theorem receiveStepStoresOneByte : Obligations.ReceiveStepStoresOneByte := by
  unfold Obligations.ReceiveStepStoresOneByte
  intro s b q hs ha hq
  refine ⟨fun h4 hlt => ?_, fun h0 hlt => ?_⟩
  · rw [exec_frameRx_of_payload hs h4.not_lt]
    have h := receiveStep_storesOneByte (dst := s.param 0) ha hq hlt
    rwa [h4] at h
  · rw [exec_rawRx_of_checked hs]
    have h := receiveStep_storesOneByte (dst := s.param 0) ha hq hlt
    rwa [h0, Nat.zero_add] at h

/-- Settles O48: the byte is one of the first three of the header, or the fourth, which gives the length. -/
theorem headerStepReadsTheLength : Obligations.HeaderStepReadsTheLength := by
  unfold Obligations.HeaderStepReadsTheLength
  intro s b q hs ha hq hh
  rw [exec_frameRx_of_header hs hh]
  by_cases h3 : s.hdrGot = 3
  · have h := headerStep_of_fourth (cap := s.param 1) ha hq h3
    have hlt : ¬ s.hdrGot < 3 := h3.not_lt
    split at h
    · next hcap =>
      obtain ⟨t, h, hend, hhost, henv, hbuf, hcounts⟩ := endsWithCounts (E := (s.EndedErr · 0x08)) h
        (s.sameHostSide_taken q) rfl (endedErr_raise (.inr rfl))
      refine ⟨t, h, hhost, henv, hbuf, fun h => absurd h hlt, ?_⟩
      rintro - d rfl
      exact ⟨fun _ => ⟨hend, hcounts⟩, fun h0 => by omega, fun _ hle => by omega⟩
    · next hcap =>
      split at h
      · next h0 =>
        obtain ⟨t, h, hend, hhost, henv, hbuf, hcounts⟩ := endsWithCounts (E := s.EndedDone) h
          (s.sameHostSide_taken q) rfl (endedDone_finish (.inr rfl))
        refine ⟨t, h, hhost, henv, hbuf, fun h => absurd h hlt, ?_⟩
        rintro - d rfl
        exact ⟨fun h => absurd h hcap, fun _ => ⟨hend, hcounts⟩, fun hpos => by omega⟩
      · next h0 =>
        refine ⟨_, h, s.sameHostSide_taken q, rfl, rfl, fun h => absurd h hlt, ?_⟩
        rintro - d rfl
        exact ⟨fun h => absurd h hcap, fun h => absurd h h0, fun _ _ => ⟨rfl, ha, rfl, rfl, rfl, rfl⟩⟩
  · exact ⟨_, headerStep_of_more ha hq (by omega), s.sameHostSide_taken q, rfl, rfl,
      fun _ => ⟨rfl, ha, rfl, rfl, rfl, rfl⟩, fun h => absurd h h3⟩

/-- Settles O49: each step of a stream command looks at the abort latch before anything else. -/
theorem abortCancelsAtAByteBoundary : Obligations.AbortCancelsAtAByteBoundary := by
  unfold Obligations.AbortCancelsAtAByteBoundary
  intro s hs ha
  have hhost := sameHostSide_unheld s
  have hend : ∀ v0 v1 v2, s.EndedCancelled (s.unheld.setCounts v0 v1 v2).cancel :=
    fun _ _ _ => endedCancelled_cancel (.inr rfl)
  refine ⟨fun hp => ⟨?_, ?_⟩, ?_, fun h0 => ?_⟩
  · exact endsWithCounts ((exec_frameTx_of_checked hs).trans (sendStep_of_abort hp ha)) hhost rfl (hend _ _ _)
  · exact endsWithCounts ((exec_rawTx_of_checked hs).trans (sendStep_of_abort hp ha)) hhost rfl (hend _ _ _)
  · exact frameRx_endsWithCounts hs (headerStep_of_abort ha) (receiveStep_of_abort ha) hend
  · have h := receiveStep_of_abort (dst := s.param 0) (n := s.param 1) ha
    rw [h0, Nat.zero_add] at h
    exact endsWithCounts ((exec_rawRx_of_checked hs).trans h) hhost rfl (hend _ _ _)

/-- Settles O50: with no abort pending each step looks at the close of its stream, a receiving one only when no byte is left. -/
theorem closedStreamFailsTheCommand : Obligations.ClosedStreamFailsTheCommand := by
  unfold Obligations.ClosedStreamFailsTheCommand
  intro s hs ha
  have hhost := sameHostSide_unheld s
  have hend : ∀ e v0 v1 v2, s.EndedErr ((s.unheld.setCounts v0 v1 v2).raise e) e.code :=
    fun _ _ _ _ => endedErr_raise (.inr rfl)
  refine ⟨fun hp hc => ⟨?_, ?_⟩, fun hq hc => ⟨?_, fun h0 => ?_⟩⟩
  · exact endsWithCounts ((exec_frameTx_of_checked hs).trans (sendStep_of_closed hp ha hc)) hhost rfl (hend _ _ _ _)
  · exact endsWithCounts ((exec_rawTx_of_checked hs).trans (sendStep_of_closed hp ha hc)) hhost rfl (hend _ _ _ _)
  · exact frameRx_endsWithCounts hs (headerStep_of_closed ha hq hc) (receiveStep_of_closed ha hq hc) (hend .etrunc)
  · have h := receiveStep_of_closed (dst := s.param 0) (n := s.param 1) ha hq hc
    rw [h0, Nat.zero_add] at h
    exact endsWithCounts ((exec_rawRx_of_checked hs).trans h) hhost rfl (hend _ _ _ _)

/-- Settles O51: with nothing to move the command's step is `held`. -/
theorem commandWaitsWhileNothingMoves : Obligations.CommandWaitsWhileNothingMoves := by
  unfold Obligations.CommandWaitsWhileNothingMoves
  intro s hs ha
  refine ⟨fun hp hc hn => ⟨?_, ?_⟩, exec_rx_of_empty hs ha⟩
  · exact (exec_frameTx_of_checked hs).trans (sendStep_of_no_credit hp ha hc hn)
  · exact (exec_rawTx_of_checked hs).trans (sendStep_of_no_credit hp ha hc hn)

end

section
/-! The stream commands run to their ends: what goes out (R293, R294, R296), and what comes in however its bytes arrive (R295, R297,
R298). -/

namespace Sys2Proof.Machine

variable {s t u v : State} {i : Instr}

/-! ### Everything a transmit command holds goes out -/

section
variable {framed : Bool}

/-- `i` is FRAME_TX, whose first four bytes are the header, or RAW_TX, which has none. -/
inductive IsTx : Instr → Bool → Prop
  | frame : IsTx .frameTx true
  | raw : IsTx .rawTx false

theorem IsTx.exec_of_checked (hi : IsTx i framed) (hc : s.progress.checked = true) :
    exec i s = sendStep s framed (s.param 1) := by
  cases hi with
  | frame => exact exec_frameTx_of_checked hc
  | raw => exact exec_rawTx_of_checked hc

theorem IsTx.streamOk_sentByte {b : Byte} {rest : List Byte} (hi : IsTx i framed) (h : s.StreamOk i)
    (hp : s.progress.pending = b :: rest) (hr : rest ≠ []) : (s.sentByte framed b rest).StreamOk i := by
  cases hi with
  | frame => exact State.FrameTxOk.sentByte h hp hr
  | raw => exact State.RawTxOk.sentByte h hp hr

/-- With the last byte every payload byte is counted. -/
theorem IsTx.doneBytes_of_last {b : Byte} (hi : IsTx i framed) (h : s.StreamOk i) (hp : s.progress.pending = [b]) :
    (s.sentByte framed b []).progress.doneBytes = s.param 1 := by
  cases hi with
  | frame =>
    obtain ⟨-, -, -, hgot, hdone, hsum⟩ : s.FrameTxOk := h
    rw [hp, List.length_singleton] at hsum
    by_cases hh : s.hdrGot < 4
    · rw [sentByte_header_progress hh]
      have := hdone hh
      dsimp only
      omega
    · rw [sentByte_payload_progress fun _ => Nat.le_of_not_lt hh]
      dsimp only
      omega
  | raw =>
    obtain ⟨-, -, -, -, hsum⟩ : s.RawTxOk := h
    rw [hp, List.length_singleton] at hsum
    exact hsum

/-- The environment once it has accepted the bytes `bs` (R291). -/
def Env.accepting (e : Env) (bs : List Byte) : Env :=
  { e with txLog := e.txLog ++ bs, txCredit := e.txCredit - bs.length }

theorem Env.accepting_cons {e : Env} {b : Byte} {bs : List Byte} {c : Nat} (h : e.txCredit = c + 1) :
    Env.accepting { e with txLog := e.txLog ++ [b], txCredit := c } bs = e.accepting (b :: bs) := by
  simp [Env.accepting, h]

theorem State.accepted_checked {b : Byte} {rest : List Byte} {c : Nat} :
    (s.accepted framed b rest c).progress.checked = s.progress.checked := by
  rw [State.accepted, State.sentByte_progress]
  split <;> rfl

theorem State.accepted_pending {b : Byte} {rest : List Byte} {c : Nat} :
    (s.accepted framed b rest c).progress.pending = rest := by
  rw [State.accepted, State.sentByte_progress]
  split <;> rfl

theorem State.accepted_streamBytes {b : Byte} {rest : List Byte} {c : Nat} :
    (s.accepted framed b rest c).hdrGot + (s.accepted framed b rest c).progress.doneBytes =
      s.hdrGot + s.progress.doneBytes + 1 :=
  sentByte_streamBytes (s := s.unheld.withEnv _)

theorem step_of_command (hsc : s.script = []) (hr : s.rst = false) (hp : s.phase = .run (.command i)) :
    step s = exec i s :=
  (step_of_no_script hsc).trans (engineStep_command hr hp)

/-- A transmit command past its bounds check, with `bs` to send to an environment that accepts them all, sends them one a step and
completes with the last. -/
theorem IsTx.sendsAll {bs : List Byte} (hi : IsTx i framed) (hne : bs ≠ []) (hp : s.progress.pending = bs)
    (hc : s.progress.checked = true) (hok : s.StreamOk i) (hr : s.rst = false) (hph : s.phase = .run (.command i))
    (ha : s.abortPending = false) (hsc : s.script = []) (ho : s.env.txClosed = false) (hn : bs.length ≤ s.env.txCredit) :
    ∃ t, runFor bs.length s = .next t ∧ s.EndedDone t ∧ s.SameHostSide t ∧ t.buf = s.buf ∧ t.env = s.env.accepting bs ∧
      s.CountsAre t (s.param 1) (s.param 1) (s.hdrGot + s.progress.doneBytes + bs.length) := by
  induction bs generalizing s with
  | nil => exact absurd rfl hne
  | cons b rest ih =>
    obtain ⟨c, hcr⟩ := Nat.exists_eq_add_of_le' (Nat.one_le_of_lt (Nat.lt_of_succ_le hn))
    have hstep : step s = sendStep s framed (s.param 1) :=
      (step_of_command hsc hr hph).trans (hi.exec_of_checked hc)
    by_cases hrest : rest = []
    · subst hrest
      obtain ⟨t, h, hhost, hbuf, henv, -, hlast⟩ := sendStep_sendsOneByte (framed := framed) (n := s.param 1) hp ha ho hcr
      obtain ⟨hend, hcounts⟩ := hlast rfl
      rw [hi.doneBytes_of_last hok hp] at hcounts
      refine ⟨t, runFor_succ (hstep.trans h), hend, hhost, hbuf, henv.trans ?_, hcounts⟩
      rw [← Env.accepting_cons hcr, Env.accepting]
      simp
    · have hmore := sendStep_of_more (framed := framed) (n := s.param 1) hp hrest ha ho hcr
      have hle : rest.length ≤ (s.accepted framed b rest c).env.txCredit := by
        rw [hcr] at hn
        exact Nat.le_of_succ_le_succ hn
      obtain ⟨t, h, hend, hhost, hbuf, henv, hcounts⟩ := ih (s := s.accepted framed b rest c) hrest
        State.accepted_pending (State.accepted_checked.trans hc) (hi.streamOk_sentByte hok hp hrest) hr hph ha hsc ho hle
      refine ⟨t, (runFor_succ (hstep.trans hmore)).trans h, hend, (s.sameHostSide_accepted _ _ _ _).trans hhost, hbuf,
        henv.trans (Env.accepting_cons hcr), ?_⟩
      rw [State.accepted_streamBytes, Nat.add_right_comm] at hcounts
      exact hcounts

/-- A transmit command from its issue to its end, where its bounds check leaves `bs` to send. -/
theorem IsTx.runsToItsEnd {bs : List Byte} (hi : IsTx i framed) (hs : s.FreshStream i) (hsc : s.script = [])
    (hstart : exec i s = .next (s.streamChecked bs)) (hne : bs ≠ []) (hok : (s.streamChecked bs).StreamOk i)
    (ho : s.env.txClosed = false) (hn : bs.length ≤ s.env.txCredit) :
    ∃ t, runFor (bs.length + 1) s = .next t ∧ s.EndedDone t ∧ s.SameHostSide t ∧ t.buf = s.buf ∧
      t.env = s.env.accepting bs ∧ s.CountsAre t (s.param 1) (s.param 1) bs.length := by
  obtain ⟨hr, hph, hpr, ha⟩ := hs
  obtain ⟨t, h, hend, hhost, hbuf, henv, hcounts⟩ :=
    hi.sendsAll (s := s.streamChecked bs) hne rfl rfl hok hr hph ha hsc ho hn
  have hzero : (s.streamChecked bs).hdrGot + (s.streamChecked bs).progress.doneBytes = 0 := by
    simp [State.hdrGot, hpr, Progress.zero]
  rw [hzero, Nat.zero_add] at hcounts
  exact ⟨t, (runFor_succ ((step_of_command hsc hr hph).trans hstart)).trans h, hend, hhost, hbuf, henv, hcounts⟩

theorem runFor_frameTx {x : List Byte} (hs : s.FreshStream .frameTx) (hsc : s.script = []) (hr : s.RegionsOk .frameTx)
    (hx : s.buf.readBytes (s.param 0) (s.param 1) = some x) (ho : s.env.txClosed = false)
    (hn : s.param 1 + 4 ≤ s.env.txCredit) :
    ∃ t, runFor (s.param 1 + 5) s = .next t ∧ s.EndedDone t ∧ s.SameHostSide t ∧ t.buf = s.buf ∧
      t.env = s.env.accepting (frameHeader (s.param 1) ++ x) ∧ s.CountsAre t (s.param 1) (s.param 1) (s.param 1 + 4) := by
  have ⟨_, _, hpr, _⟩ := hs
  have hlen := Memory.readBytes_length hx
  have hbs : (frameHeader (s.param 1) ++ x).length = s.param 1 + 4 := by simp [hlen, Nat.add_comm]
  have hin : s.param 0 + s.param 1 ≤ s.cfg.bufBytes := hr _ (List.mem_singleton_self _)
  have hok : (s.streamChecked (frameHeader (s.param 1) ++ x)).FrameTxOk := by
    simp [State.FrameTxOk, State.hdrGot, hpr, Progress.zero, hin, hlen, ← List.length_eq_zero_iff]
  have h := IsTx.frame.runsToItsEnd hs hsc (exec_frameTx_of_unchecked (by simp [hpr, Progress.zero]) hr hx)
    (List.ne_nil_of_length_pos (by omega)) hok ho (hbs.trans_le hn)
  rwa [hbs] at h

theorem runFor_rawTx {x : List Byte} (hs : s.FreshStream .rawTx) (hsc : s.script = []) (hr : s.RegionsOk .rawTx)
    (hx : s.buf.readBytes (s.param 0) (s.param 1) = some x) (ho : s.env.txClosed = false)
    (hn : s.param 1 ≤ s.env.txCredit) :
    ∃ t, runFor (s.param 1 + 1) s = .next t ∧ s.EndedDone t ∧ s.SameHostSide t ∧ t.buf = s.buf ∧
      t.env = s.env.accepting x ∧ s.CountsAre t (s.param 1) (s.param 1) (s.param 1) := by
  have ⟨hrst, hph, hpr, _⟩ := hs
  have hlen := Memory.readBytes_length hx
  have hin : s.param 0 + s.param 1 ≤ s.cfg.bufBytes := hr _ (List.mem_singleton_self _)
  have hstart := exec_rawTx_of_unchecked (by simp [hpr, Progress.zero]) hr hx
  by_cases h0 : s.param 1 = 0
  · obtain rfl : x = [] := List.eq_nil_of_length_eq_zero (hlen.trans h0)
    obtain ⟨t, h, hend, hhost, henv, hbuf, hcounts⟩ := endsWithCounts (E := s.EndedDone) (hstart.trans (if_pos h0))
      ⟨rfl, rfl, rfl, rfl, rfl, rfl, rfl, rfl⟩ rfl (endedDone_finish (.inl rfl))
    rw [h0]
    exact ⟨t, runFor_succ ((step_of_command hsc hrst hph).trans h), hend, hhost, hbuf,
      henv.trans (by simp [Env.accepting]), hcounts⟩
  · have hok : (s.streamChecked x).RawTxOk := by
      simp [State.RawTxOk, hpr, Progress.zero, hin, hlen, ← List.length_eq_zero_iff, h0]
    have h := IsTx.raw.runsToItsEnd hs hsc (hstart.trans (if_neg h0)) (List.ne_nil_of_length_pos (by omega)) hok ho
      (hlen.trans_le hn)
    rwa [hlen] at h

end

/-! ### Bytes that arrive while an engine runs -/

/-- A command that takes a stream: `R e todo v` says that in `v` it is `e` steps of its own, and then the bytes `todo`, from its end.
Each kind of engine step brings it nearer, or holds it where it stands. -/
structure Takes (R : Nat → List Byte → State → Prop) : Prop where
  outside : ∀ {e : Nat} {todo : List Byte} {v : State} (env : Env) (script : List Event), R e todo v →
    R e todo { v with env := env, script := script }
  prepares : ∀ {e : Nat} {todo : List Byte} {v : State}, R (e + 1) todo v →
    ∃ u, engineStep v = .next u ∧ R e todo u ∧ u.env = v.env ∧ u.script = v.script
  takes : ∀ {b : Byte} {todo q : List Byte} {v : State}, R 0 (b :: todo) v → v.env.rxQ = b :: q →
    ∃ u, engineStep v = .next u ∧ R 0 todo u ∧ u.env = { v.env with rxQ := q } ∧ u.script = v.script
  waits : ∀ {b : Byte} {todo : List Byte} {v : State}, R 0 (b :: todo) v → v.env.rxQ = [] → v.env.rxClosed = false →
    ∃ u, engineStep v = .next u ∧ R 0 (b :: todo) u ∧ u.env = v.env ∧ u.script = v.script
  ended : ∀ {v : State}, R 0 [] v → engineStep v = .next v

/-- The moves left are engine steps and arrivals of bytes. -/
def OnlyArrivals (script : List Event) : Prop := ∀ m ∈ script, m = .engine ∨ ∃ b, m = .rxByte b

/-- An engine step takes the byte it finds, or takes none and is not further from the end. -/
theorem Takes.engine_nearer {R : Nat → List Byte → State → Prop} (hR : Takes R) {e : Nat} {todo later rest : List Byte}
    (h : R e todo v) (hq : v.env.rxQ ++ later = todo ++ rest) (ho : v.env.rxQ = [] → todo ≠ [] → v.env.rxClosed = false) :
    ∃ e' todo' u, engineStep v = .next u ∧ R e' todo' u ∧ u.env = { v.env with rxQ := u.env.rxQ } ∧
      u.script = v.script ∧ u.env.rxQ ++ later = todo' ++ rest ∧ e' + todo'.length ≤ e + todo.length ∧
      (later = [] → e' + todo'.length ≤ e + todo.length - 1) := by
  cases e with
  | succ e =>
    obtain ⟨u, hu, hRu, henv, hsc⟩ := hR.prepares h
    exact ⟨e, todo, u, hu, hRu, by rw [henv], hsc, henv ▸ hq, by omega, fun _ => by omega⟩
  | zero =>
    cases todo with
    | nil => exact ⟨0, [], v, hR.ended h, h, rfl, rfl, hq, le_rfl, fun _ => le_rfl⟩
    | cons b todo =>
      cases hrx : v.env.rxQ with
      | nil =>
        obtain ⟨u, hu, hRu, henv, hsc⟩ := hR.waits h hrx (ho hrx (List.cons_ne_nil _ _))
        refine ⟨0, b :: todo, u, hu, hRu, by rw [henv], hsc, henv ▸ hq, le_rfl, ?_⟩
        rintro rfl
        simp [hrx] at hq
      | cons b' q =>
        rw [hrx, List.cons_append, List.cons_append] at hq
        obtain ⟨rfl, hq'⟩ := List.cons.inj hq
        obtain ⟨u, hu, hRu, henv, hsc⟩ := hR.takes h hrx
        exact ⟨0, todo, u, hu, hRu, by rw [henv], hsc, by rw [henv]; exact hq', by simp, fun _ => by simp⟩

/-- Once the stream, with all that still arrives, holds what the command has yet to take, the command ends, and leaves what follows. -/
theorem Takes.reachesItsEnd {R : Nat → List Byte → State → Prop} (hR : Takes R) {m e : Nat} {todo rest : List Byte}
    (h : R e todo v) (hsc : OnlyArrivals v.script) (ho : v.script = [] ∨ v.env.rxClosed = false)
    (hq : v.env.rxQ ++ v.script.filterMap rxByteOf = todo ++ rest) (hm : v.script.length + (e + todo.length) ≤ m) :
    ∃ t, runFor m v = .next t ∧ R 0 [] t ∧ t.env = { v.env with rxQ := rest } ∧ t.script = [] := by
  induction m generalizing v e todo with
  | zero =>
    obtain ⟨hs, he, ht⟩ : v.script.length = 0 ∧ e = 0 ∧ todo.length = 0 := by omega
    rw [List.length_eq_zero_iff] at hs ht
    subst he ht
    refine ⟨v, rfl, h, ?_, hs⟩
    rw [hs, List.filterMap_nil, List.append_nil, List.nil_append] at hq
    rw [← hq]
  | succ m ih =>
    cases hscript : v.script with
    | nil =>
      rw [hscript, List.filterMap_nil] at hq
      obtain ⟨e', todo', u, hu, hRu, henv, hsc', hq', -, hlt⟩ := hR.engine_nearer h hq fun h0 hne =>
        absurd (List.append_eq_nil_iff.mp (hq.symm.trans (by rw [h0, List.nil_append]))).1 hne
      rw [hscript] at hm hsc'
      have hlt := hlt rfl
      obtain ⟨t, ht, hRt, htenv, htsc⟩ := ih hRu (by simp [hsc', OnlyArrivals]) (.inl hsc') (by simpa [hsc'] using hq')
        (by simp only [hsc', List.length_nil] at hm ⊢; omega)
      refine ⟨t, (runFor_succ ((step_of_no_script hscript).trans hu)).trans ht, hRt, ?_, htsc⟩
      rw [htenv, henv]
    | cons mv script =>
      rw [hscript] at hsc hq hm
      obtain ⟨hmv, hrest⟩ := List.forall_mem_cons.mp hsc
      replace ho : v.env.rxClosed = false := ho.resolve_left (by simp [hscript])
      have hmoved := hR.outside v.env script h
      rcases hmv with rfl | ⟨b, rfl⟩
      · obtain ⟨e', todo', u, hu, hRu, henv, hsc', hq', hle, -⟩ :=
          hR.engine_nearer (later := script.filterMap rxByteOf) hmoved hq fun _ _ => ho
        replace hsc' : u.script = script := hsc'
        have hopen : u.env.rxClosed = false := by
          rw [henv]
          exact ho
        obtain ⟨t, ht, hRt, htenv, htsc⟩ := ih hRu (hsc' ▸ hrest) (.inr hopen) (hsc' ▸ hq')
          (by rw [hsc']; simp only [List.length_cons] at hm; omega)
        refine ⟨t, (runFor_succ ((step_of_script hscript).trans hu)).trans ht, hRt, ?_, htsc⟩
        rw [htenv, henv]
      · have hstep : step v = .next { v with env := { v.env with rxQ := v.env.rxQ ++ [b] }, script := script } := by
          rw [step_of_script hscript]
          simp [eventStep, State.rxAppend, ho]
        obtain ⟨t, ht, hRt, htenv, htsc⟩ := ih (hR.outside { v.env with rxQ := v.env.rxQ ++ [b] } script h) hrest (.inr ho)
          (by simpa [rxByteOf] using hq) (by simp only [List.length_cons] at hm ⊢; omega)
        exact ⟨t, (runFor_succ hstep).trans ht, hRt, htenv, htsc⟩

/-! ### A receive command takes its frame -/

/-- `x` is what the command is to store and `hdr` what goes before it in the stream: FRAME_RX has room for it (R295), RAW_RX takes
exactly as much (R297). -/
inductive IsRx (s : State) (x : List Byte) : Instr → List Byte → Prop
  | frame (h : x.length ≤ s.param 1) : IsRx s x .frameRx (frameHeader x.length)
  | raw (h : x.length = s.param 1) : IsRx s x .rawRx []

/-- The counters once the bytes `got` have come in (R47, R295, R297). -/
def progressAfter (hdr got : List Byte) : Progress :=
  { checked := true
    hdr := got.take hdr.length
    declared := if got.length < hdr.length then 0 else BitVec.ofNat 32 (beInt hdr)
    doneBytes := got.length - hdr.length
    pending := [] }

/-- A stream command on its way from `s`: what may have changed. -/
def State.onItsWay (s : State) (w : Bool) (pr : Progress) (buf : Memory) (env : Env) (script : List Event) : State :=
  { s with status := { s.status with wait := w }, progress := pr, buf := buf, env := env, script := script }

/-- Where a receive command from `s` can stand that is to take `hdr` and store `x`: at its issue, at a byte, or at its end. -/
inductive Receives (s : State) (hdr x : List Byte) : Nat → List Byte → State → Prop
  | start (env : Env) (script : List Event) : Receives s hdr x 1 (hdr ++ x) { s with env := env, script := script }
  | atByte {b : Byte} {got todo : List Byte} {buf : Memory} (w : Bool) (env : Env) (script : List Event)
      (hgot : got ++ b :: todo = hdr ++ x)
      (hbuf : s.buf.Stored buf (s.param 0) (got.drop hdr.length)) :
      Receives s hdr x 0 (b :: todo) (s.onItsWay w (progressAfter hdr got) buf env script)
  | ended {v : State} (script : List Event) (hend : s.EndedDone v) (hhost : State.SameHostSide { s with script := script } v)
      (hbuf : s.buf.Stored v.buf (s.param 0) x) (hcounts : s.CountsAre v x.length x.length (hdr.length + x.length)) :
      Receives s hdr x 0 [] v

theorem State.SameHostSide.script_eq (h : s.SameHostSide t) : t.script = s.script := by
  obtain ⟨-, -, -, -, -, -, -, hscript⟩ := h
  exact hscript

theorem Memory.stored_nil (m : Memory) (a : Nat) : m.Stored m a [] := ⟨rfl, fun _ _ => rfl⟩

/-- A string stored behind a string. -/
theorem Memory.Stored.append {m m' m'' : Memory} {a : Nat} {bs cs : List Byte} (h : m.Stored m' a bs)
    (h' : m'.Stored m'' (a + bs.length) cs) : m.Stored m'' a (bs ++ cs) := by
  obtain ⟨hread, hout⟩ := h
  obtain ⟨hread', hout'⟩ := h'
  rw [Memory.readBytes_eq_some_iff] at hread hread'
  refine ⟨Memory.readBytes_eq_some_iff.mpr ⟨rfl, fun j hj => ?_⟩, fun y hy => ?_⟩
  · by_cases hlt : j < bs.length
    · rw [hout' _ (.inl (by omega)), hread.2 j hlt, List.getElem_append_left hlt]
    · have hk : j - bs.length < cs.length := by
        rw [List.length_append] at hj
        omega
      have h := hread'.2 _ hk
      rw [Nat.add_assoc, Nat.add_sub_cancel' (Nat.le_of_not_lt hlt)] at h
      rw [h, List.getElem_append_right (Nat.le_of_not_lt hlt)]
  · rw [List.length_append] at hy
    rw [hout' y (by omega), hout y (by omega)]

section
variable {x hdr got todo : List Byte} {b : Byte} {w : Bool} {buf : Memory} {env : Env} {script : List Event}

theorem progressAfter_payload (h : hdr.length ≤ got.length) : progressAfter hdr (got ++ [b]) =
    { progressAfter hdr got with doneBytes := (progressAfter hdr got).doneBytes + 1 } := by
  simp only [progressAfter, List.take_append_of_le_length h, List.length_append, List.length_singleton,
    if_neg (Nat.not_lt.mpr h), if_neg (Nat.not_lt.mpr (h.trans (Nat.le_succ _))), Nat.sub_add_comm h]

theorem progressAfter_header (h : got.length + 1 < hdr.length) : progressAfter hdr (got ++ [b]) =
    { progressAfter hdr got with hdr := (progressAfter hdr got).hdr ++ [b] } := by
  simp only [progressAfter, List.length_append, List.length_singleton, if_pos h, if_pos (Nat.lt_of_succ_lt h),
    List.take_of_length_le (Nat.le_of_lt (Nat.lt_of_succ_lt h))]
  rw [List.take_of_length_le (by simp; omega)]
  congr 1
  omega

theorem progressAfter_header_last (h : got ++ [b] = hdr) : progressAfter hdr (got ++ [b]) =
    { progressAfter hdr got with
      hdr := (progressAfter hdr got).hdr ++ [b]
      declared := BitVec.ofNat 32 (beInt hdr) } := by
  subst h
  simp [progressAfter, List.take_of_length_le]

theorem progressAfter_nil (hdr : List Byte) : progressAfter hdr [] = { Progress.zero with checked := true } := by
  cases hdr with
  | nil => rfl
  | cons b hdr => simp [progressAfter, Progress.zero]

/-- The bounds-check step brings a receive command to its first byte. -/
theorem receives_streamChecked (hpr : s.progress = Progress.zero) (hne : hdr ++ x ≠ []) (env : Env) (script : List Event) :
    Receives s hdr x 0 (hdr ++ x) (State.streamChecked { s with env := env, script := script } []) := by
  obtain ⟨b, todo, h⟩ := List.exists_cons_of_ne_nil hne
  have hst : State.streamChecked { s with env := env, script := script } [] =
      s.onItsWay s.status.wait (progressAfter hdr []) s.buf env script := by
    simp [State.streamChecked, State.onItsWay, progressAfter_nil, hpr, Progress.zero]
  rw [h, hst]
  exact .atByte _ env script h.symm (by simpa using s.buf.stored_nil _)

theorem beInt_frameHeader {n : Nat} (h : n < 2 ^ 32) : beInt (frameHeader n) = n :=
  (beInt_beBytes n 4).trans (Nat.mod_eq_of_lt h)

theorem IsRx.exec_of_payload (hi : IsRx s x i hdr) (hle : hdr.length ≤ got.length) :
    exec i (s.onItsWay w (progressAfter hdr got) buf env script) =
      receiveStep (s.onItsWay w (progressAfter hdr got) buf env script) (s.param 0) x.length := by
  cases hi with
  | frame h =>
    have hlt : x.length < 2 ^ 32 := h.trans_lt (s.snap.params[1]).isLt
    have hdecl : (progressAfter (frameHeader x.length) got).declared.toNat = x.length := by
      rw [progressAfter, if_neg (Nat.not_lt.mpr hle), beInt_frameHeader hlt, BitVec.toNat_ofNat, Nat.mod_eq_of_lt hlt]
    rw [frameHeader_length] at hle
    have hh : ¬ (s.onItsWay w (progressAfter (frameHeader x.length) got) buf env script).hdrGot < 4 := by
      simp [State.hdrGot, State.onItsWay, progressAfter, hle]
    rw [exec_frameRx_of_payload rfl hh]
    exact congrArg (receiveStep _ _) hdecl
  | raw h => exact h ▸ exec_rawRx_of_checked rfl

/-- A payload byte brings the command to its next byte, or to its end. -/
theorem receives_payload {q : List Byte} (ha : s.abortPending = false) (hle : hdr.length ≤ got.length)
    (hgot : got ++ b :: todo = hdr ++ x) (hbuf : s.buf.Stored buf (s.param 0) (got.drop hdr.length))
    (hq : env.rxQ = b :: q) :
    ∃ u, receiveStep (s.onItsWay w (progressAfter hdr got) buf env script) (s.param 0) x.length = .next u ∧
      Receives s hdr x 0 todo u ∧ u.env = { env with rxQ := q } ∧ u.script = script := by
  have hlen := congrArg List.length hgot
  simp only [List.length_append, List.length_cons] at hlen
  have hdone : (progressAfter hdr got).doneBytes = (got.drop hdr.length).length := List.length_drop.symm
  have hstored : ∀ {buf' : Memory}, buf.Stored buf' (s.param 0 + (progressAfter hdr got).doneBytes) [b] →
      s.buf.Stored buf' (s.param 0) ((got ++ [b]).drop hdr.length) := fun h => by
    rw [List.drop_append_of_le_length hle]
    exact hbuf.append (hdone ▸ h)
  cases todo with
  | nil =>
    have hx : (got ++ [b]).drop hdr.length = x := by rw [hgot, List.drop_left]
    have hn : (progressAfter hdr got).doneBytes + 1 = x.length := by
      simp only [List.length_nil] at hlen
      dsimp only [progressAfter]
      omega
    obtain ⟨t, h, hhost, henv, hb, -, hlast⟩ := receiveStep_storesOneByte (dst := s.param 0)
      (s := s.onItsWay w (progressAfter hdr got) buf env script) ha hq (Nat.lt_of_succ_le hn.le)
    obtain ⟨hend, hcounts⟩ := hlast hn
    have hh : (s.onItsWay w (progressAfter hdr got) buf env script).hdrGot = hdr.length := by
      simp [State.hdrGot, State.onItsWay, progressAfter, hle]
    rw [hh] at hcounts
    exact ⟨t, h, .ended script hend hhost (hx ▸ hstored hb) hcounts, henv, hhost.script_eq⟩
  | cons b' todo =>
    have hlt : (progressAfter hdr got).doneBytes + 1 < x.length := by
      simp only [List.length_cons] at hlen
      dsimp only [progressAfter]
      omega
    refine ⟨_, receiveStep_of_more ha hq hlt, ?_, rfl, rfl⟩
    have h := Receives.atByte false { env with rxQ := q } script (got := got ++ [b]) (by simpa using hgot)
      (hstored (buf.stored_writeBytes _ _))
    rw [progressAfter_payload hle] at h
    exact h

/-- A header byte brings FRAME_RX to its next byte, or with a length of 0 to its end. -/
theorem receives_header {q : List Byte} (ha : s.abortPending = false) (hfit : x.length ≤ s.param 1) (hlt : got.length < 4)
    (hgot : got ++ b :: todo = frameHeader x.length ++ x) (hq : env.rxQ = b :: q)
    (hbuf : s.buf.Stored buf (s.param 0) (got.drop (frameHeader x.length).length)) :
    ∃ u, headerStep (s.onItsWay w (progressAfter (frameHeader x.length) got) buf env script) (s.param 1) = .next u ∧
      Receives s (frameHeader x.length) x 0 todo u ∧ u.env = { env with rxQ := q } ∧ u.script = script := by
  have hlen := congrArg List.length hgot
  simp only [List.length_append, List.length_cons, frameHeader_length] at hlen
  have hnone : ∀ l : List Byte, l.length ≤ 4 → l.drop (frameHeader x.length).length = [] := fun l hl => by simp [hl]
  rw [hnone got hlt.le] at hbuf
  have hhdr : (progressAfter (frameHeader x.length) got).hdr = got := by simp [progressAfter, hlt.le]
  have hgot' : (got ++ [b]) ++ todo = frameHeader x.length ++ x := by simpa using hgot
  by_cases h3 : got.length = 3
  · obtain ⟨hdr4, rfl⟩ := List.append_inj hgot' (by simp [h3])
    have hval : beInt ((progressAfter (frameHeader todo.length) got).hdr ++ [b]) = todo.length := by
      rw [hhdr, hdr4]
      exact beInt_frameHeader (hfit.trans_lt (s.snap.params[1]).isLt)
    have h := headerStep_of_fourth (s := s.onItsWay w (progressAfter (frameHeader todo.length) got) buf env script)
      (cap := s.param 1) ha hq ((congrArg List.length hhdr).trans h3)
    have hv : beInt ((s.onItsWay w (progressAfter (frameHeader todo.length) got) buf env script).progress.hdr ++ [b]) =
      todo.length := hval
    rw [hv, if_neg (Nat.not_lt.mpr hfit)] at h
    cases todo with
    | nil =>
      obtain ⟨t, h, hend, hhost, henv, hb, hcounts⟩ := endsWithCounts (E := s.EndedDone)
        (s := s.onItsWay w (progressAfter (frameHeader 0) got) buf env script) h (State.sameHostSide_taken _ q) rfl
        (endedDone_finish (.inr rfl))
      exact ⟨t, h, .ended script hend hhost (hb ▸ hbuf) hcounts, henv, hhost.script_eq⟩
    | cons b' todo =>
      refine ⟨_, h, ?_, rfl, rfl⟩
      have hr := Receives.atByte false { env with rxQ := q } script (got := got ++ [b]) hgot'
        (by rw [hnone _ (by simp [h3])]; exact hbuf)
      rw [progressAfter_header_last hdr4, beInt_frameHeader (hfit.trans_lt (s.snap.params[1]).isLt)] at hr
      exact hr
  · obtain ⟨b', todo, rfl⟩ : ∃ b' todo', todo = b' :: todo' := List.exists_cons_of_length_pos (by omega)
    refine ⟨_, headerStep_of_more ha hq ?_, ?_, rfl, rfl⟩
    · exact (congrArg List.length hhdr).trans_lt (by omega)
    · have hr := Receives.atByte false { env with rxQ := q } script (got := got ++ [b]) hgot'
        (by rw [hnone _ (by simp; omega)]; exact hbuf)
      rw [progressAfter_header (by rw [frameHeader_length]; omega)] at hr
      exact hr

theorem IsRx.exec_of_empty (hi : IsRx s x i hdr) (hc : v.progress.checked = true) (ha : v.abortPending = false)
    (hq : v.env.rxQ = []) (ho : v.env.rxClosed = false) : exec i v = .next v.held := by
  obtain ⟨hframe, hraw⟩ := exec_rx_of_empty hc ha hq ho
  cases hi with
  | frame => exact hframe
  | raw => exact hraw

/-- The bounds-check step brings the command to its first byte, or a raw transfer of no bytes to its end. -/
theorem IsRx.receives_start (hi : IsRx s x i hdr) (hs : s.FreshStream i) (hr : s.RegionsOk i) (env : Env)
    (script : List Event) :
    ∃ u, exec i { s with env := env, script := script } = .next u ∧ Receives s hdr x 0 (hdr ++ x) u ∧ u.env = env ∧
      u.script = script := by
  obtain ⟨-, -, hpr, -⟩ := hs
  have hc : s.progress.checked = false := by simp [hpr, Progress.zero]
  cases hi with
  | frame =>
    have hne : frameHeader x.length ++ x ≠ [] := List.ne_nil_of_length_pos (by simp)
    exact ⟨_, exec_frameRx_of_unchecked hc hr, receives_streamChecked hpr hne env script, rfl, rfl⟩
  | raw h =>
    have hstart := exec_rawRx_of_unchecked (s := { s with env := env, script := script }) hc hr
    by_cases h0 : s.param 1 = 0
    · obtain rfl : x = [] := List.eq_nil_of_length_eq_zero (h.trans h0)
      obtain ⟨t, h, hend, hhost, henv, hb, hcounts⟩ := endsWithCounts (E := s.EndedDone)
        (s := { s with env := env, script := script }) (hstart.trans (if_pos h0))
        ⟨rfl, rfl, rfl, rfl, rfl, rfl, rfl, rfl⟩ rfl (endedDone_finish (.inl rfl))
      exact ⟨t, h, .ended script hend hhost (hb ▸ s.buf.stored_nil _) hcounts, henv, hhost.script_eq⟩
    · have hne : [] ++ x ≠ [] := List.ne_nil_of_length_pos (by rw [List.nil_append]; omega)
      exact ⟨_, hstart.trans (if_neg h0), receives_streamChecked hpr hne env script, rfl, rfl⟩

/-- A byte of the header or of the payload. -/
theorem IsRx.receives_byte {q : List Byte} (hi : IsRx s x i hdr) (ha : s.abortPending = false)
    (hgot : got ++ b :: todo = hdr ++ x) (hbuf : s.buf.Stored buf (s.param 0) (got.drop hdr.length))
    (hq : env.rxQ = b :: q) :
    ∃ u, exec i (s.onItsWay w (progressAfter hdr got) buf env script) = .next u ∧ Receives s hdr x 0 todo u ∧
      u.env = { env with rxQ := q } ∧ u.script = script := by
  by_cases hle : hdr.length ≤ got.length
  · rw [hi.exec_of_payload hle]
    exact receives_payload ha hle hgot hbuf hq
  · cases hi with
    | frame hfit =>
      have hlt : got.length < 4 := by
        rw [frameHeader_length] at hle
        omega
      have hh : (s.onItsWay w (progressAfter (frameHeader x.length) got) buf env script).hdrGot < 4 := by
        simp [State.hdrGot, State.onItsWay, progressAfter, hlt]
      rw [exec_frameRx_of_header rfl hh]
      exact receives_header ha hfit hlt hgot hq hbuf
    | raw => exact absurd (Nat.zero_le _) hle

theorem IsRx.takes (hi : IsRx s x i hdr) (hs : s.FreshStream i) (hr : s.RegionsOk i) : Takes (Receives s hdr x) := by
  have ⟨hrst, hph, _, ha⟩ := hs
  have hengine : ∀ w pr buf env script,
      engineStep (s.onItsWay w pr buf env script) = exec i (s.onItsWay w pr buf env script) :=
    fun _ _ _ _ _ => engineStep_command hrst hph
  constructor
  case outside =>
    intro e todo v env script h
    cases h with
    | start => exact .start env script
    | atByte w _ _ hgot hbuf => exact .atByte w env script hgot hbuf
    | ended _ hend hhost hbuf hcounts =>
      obtain ⟨hcfg, hirq, hcmd, hp, hsnap, hr, hh, -⟩ := hhost
      exact .ended script hend ⟨hcfg, hirq, hcmd, hp, hsnap, hr, hh, rfl⟩ hbuf hcounts
  case prepares =>
    intro e todo v h
    cases h with
    | start env script =>
      obtain ⟨u, hu, hnext⟩ := hi.receives_start hs hr env script
      exact ⟨u, (engineStep_command (s := { s with env := env, script := script }) hrst hph).trans hu, hnext⟩
  case takes =>
    intro b todo q v h hq
    cases h with
    | atByte w env script hgot hbuf =>
      obtain ⟨u, hu, hnext⟩ := hi.receives_byte ha hgot hbuf hq
      exact ⟨u, (hengine _ _ _ _ _).trans hu, hnext⟩
  case waits =>
    intro b todo v h hq ho
    cases h with
    | atByte w env script hgot hbuf =>
      have hheld := hi.exec_of_empty (v := s.onItsWay w (progressAfter hdr _) _ env script) rfl ha hq ho
      exact ⟨_, (hengine _ _ _ _ _).trans hheld, .atByte true env script hgot hbuf, rfl, rfl⟩
  case ended =>
    intro v h
    cases h with
    | ended _ hend hhost =>
      obtain ⟨-, -, -, -, -, hr, -⟩ := hhost
      exact engineStep_idle (hr.trans hrst) hend.1.1

/-- FRAME_RX and RAW_RX from their issue, when the stream holds what they are to take, or it still arrives (R295, R297, R298). -/
theorem IsRx.reachesItsEnd {m : Nat} {rest : List Byte} (hi : IsRx s x i hdr) (hs : s.FreshStream i) (hr : s.RegionsOk i)
    (hsc : OnlyArrivals s.script) (ho : s.script = [] ∨ s.env.rxClosed = false)
    (hq : s.env.rxQ ++ s.script.filterMap rxByteOf = hdr ++ x ++ rest)
    (hm : s.script.length + (hdr.length + x.length + 1) ≤ m) :
    ∃ t, runFor m s = .next t ∧ s.EndedDone t ∧ State.SameHostSide { s with script := [] } t ∧
      t.env = { s.env with rxQ := rest } ∧ s.buf.Stored t.buf (s.param 0) x ∧
      s.CountsAre t x.length x.length (hdr.length + x.length) := by
  have hm : s.script.length + (1 + (hdr ++ x).length) ≤ m := by
    rw [List.length_append]
    omega
  obtain ⟨t, ht, hended, henv, htsc⟩ := (hi.takes hs hr).reachesItsEnd (Receives.start s.env s.script) hsc ho hq hm
  cases hended with
  | ended script hend hhost hbuf hcounts =>
    obtain ⟨hcfg, hirq, hcmd, hp, hsnap, hr, hh, -⟩ := hhost
    exact ⟨t, ht, hend, ⟨hcfg, hirq, hcmd, hp, hsnap, hr, hh, htsc⟩, henv, hbuf, hcounts⟩

end

end Sys2Proof.Machine

open Sys2Proof Sys2Proof.Machine

/-- Settles O52: after the bounds check each of the n + 4 bytes is one step. -/
theorem frameTxSendsTheFrame : Obligations.FrameTxSendsTheFrame := by
  unfold Obligations.FrameTxSendsTheFrame
  intro s x hs hsc hr hx ho hn
  obtain ⟨t, h, hend, hhost, hbuf, henv, hcounts⟩ := runFor_frameTx hs hsc hr hx ho hn
  refine ⟨t, h, hend, hhost, hbuf, henv.trans ?_, hcounts⟩
  simp [Env.accepting, frameHeader, Memory.readBytes_length hx, Nat.add_comm]

/-- Settles O53: the whole frame stands in `rx_q`, so no engine step waits. -/
theorem frameRxStoresThePayload : Obligations.FrameRxStoresThePayload := by
  unfold Obligations.FrameRxStoresThePayload
  intro s x rest hs hsc hr hfit hq
  have h := (IsRx.frame hfit).reachesItsEnd (m := x.length + 5) (rest := rest) hs hr (by simp [hsc, OnlyArrivals]) (.inl hsc)
    (by simpa [hsc, frameHeader] using hq) (by simp only [hsc, List.length_nil, frameHeader_length]; omega)
  rw [frameHeader_length, Nat.add_comm 4, ← hsc] at h
  exact h

/-- Settles O54: as for the frames, with no header. -/
theorem rawStreamsMoveExactlyTheBytes : Obligations.RawStreamsMoveExactlyTheBytes := by
  unfold Obligations.RawStreamsMoveExactlyTheBytes
  constructor
  · intro s x hs hsc hr hx ho hn
    obtain ⟨t, h, hend, hhost, hbuf, henv, hcounts⟩ := runFor_rawTx hs hsc hr hx ho hn
    refine ⟨t, h, hend, hhost, hbuf, henv.trans ?_, hcounts⟩
    rw [Env.accepting, Memory.readBytes_length hx]
  · intro s x rest hs hsc hr hlen hq
    have h := (IsRx.raw hlen).reachesItsEnd (m := s.param 1 + 1) (rest := rest) hs hr (by simp [hsc, OnlyArrivals]) (.inl hsc)
      (by simpa [hsc] using hq) (by simp [hsc, hlen])
    rw [List.length_nil, Nat.zero_add, hlen, ← hsc] at h
    exact h

/-- Settles O55: FRAME_TX sends the frame, and FRAME_RX ends once its script has brought all of it. -/
theorem frameRoundTrip : Obligations.FrameRoundTrip := by
  unfold Obligations.FrameRoundTrip
  intro s u x hs hsc hr hx ho hn hu hur hfit hq hopen hmoves
  obtain ⟨t, h, -, -, -, henv, -⟩ := runFor_frameTx hs hsc hr hx ho hn
  refine ⟨t, frameHeader x.length ++ x, h, ?_, fun hsent => ?_⟩
  · rw [henv, Memory.readBytes_length hx, Env.accepting]
  · obtain ⟨v, hv, hend, -, hvenv, hbuf, hcounts⟩ := (IsRx.frame hfit).reachesItsEnd (m := u.script.length + x.length + 5)
      (rest := []) hu hur hmoves (.inr hopen) (by rw [hq, hsent]; simp) (by rw [frameHeader_length]; omega)
    rw [frameHeader_length, Nat.add_comm 4] at hcounts
    exact ⟨v, hv, hend, hbuf, hcounts, by rw [hvenv]⟩

end

section
/-! What NOP and RNG_FILL do: both end in success, RNG_FILL with the drawn bytes stored (R320, R321, R340). -/

open Sys2Proof Sys2Proof.Machine

/-- Settles O21: NOP is `finish` alone. -/
theorem nopOnlyCompletes : Obligations.NopOnlyCompletes := by
  unfold Obligations.NopOnlyCompletes
  intro s
  have h : exec .nop s = .next s.finish := rfl
  exact ⟨_, h, endedDone_finish (.inl rfl), (exec_hostSide h).1, rfl, rfl, rfl⟩

/-- Settles O23: with its region in the buffer and its draw answered RNG_FILL writes the bytes drawn. -/
theorem rngFillStoresTheDraw : Obligations.RngFillStoresTheDraw := by
  unfold Obligations.RngFillStoresTheDraw
  intro s v e hr hd
  have h : exec .rngFill s = _ := (checkRegions_of_in hr).trans (drawEntropy_of_eq_some hd)
  have hdrew : s.env.OnlyDrew e := Env.onlyDrew_of_draw hd
  have hlen : v.length = s.param 1 := Env.draw_length (congrArg Prod.fst hd)
  exact ⟨_, h, endedDone_finish (.inl rfl), (exec_hostSide h).1, rfl, Env.OnlyDrew.sameStreams hdrew,
    s.buf.stored_writeBytes _ _, hlen, resultIs_of_set rfl⟩

end

section
/-! How commands end: a compute command in its one step, precisely where it raises, and every command with a code of its own row
(R333, R335, R338 to R341). -/

namespace Sys2Proof.Machine

variable {s t : State} {i : Instr}

/-- A compute command that reports a new error has raised one of its codes, after some draws and nothing else. -/
theorem exec_compute_raises (hi : i.isStream = false) (h : exec i s = .next t) (hs : s.status.err = false)
    (ht : t.status.err = true) : ∃ e, s.env.OnlyDrew e ∧ ∃ c ∈ raisable i, t = (s.withEnv e).raise c := by
  obtain ⟨e, he, hraise | ⟨buf, r, -, rfl⟩⟩ := exec_compute_end hi h
  · exact ⟨e, he, hraise⟩
  · exact absurd (hs.symm.trans ht) Bool.false_ne_true

/-- A stream command that reports a new error reports one of its codes: the other ways its step can go leave `ERR` alone. -/
theorem exec_stream_errCode (hi : i.isStream = true) (h : exec i s = .next t) (hs : s.status.err = false)
    (ht : t.status.err = true) : ∃ c ∈ raisable i, t.status.errCode = c.code := by
  have hnew : t.status.err ≠ s.status.err := by simp [hs, ht]
  obtain ⟨env, buf, -, -, ⟨w, pr, rfl⟩ | ⟨r, rfl⟩ | ⟨r, rfl⟩ | ⟨c, hc, r, rfl⟩⟩ := exec_stream_step hi h
  · exact absurd rfl hnew
  · exact absurd rfl hnew
  · exact absurd rfl hnew
  · exact ⟨c, hc, rfl⟩

end Sys2Proof.Machine

open Sys2Proof Sys2Proof.Machine

/-- Settles O37: the error is a `raise` after some draws. -/
theorem computeErrorsArePrecise : Obligations.ComputeErrorsArePrecise := by
  unfold Obligations.ComputeErrorsArePrecise
  intro i s t hi h hs ht
  obtain ⟨e, hdrew, c, -, rfl⟩ := exec_compute_raises hi h hs ht
  obtain ⟨hhost, hstreams, hbuf, hr, hend⟩ := failsPrecisely_raise hdrew c
  obtain ⟨-, -, -, -, -, hqueue⟩ := hdrew
  refine ⟨hbuf, hstreams, hhost, hr, hend, fun hres hb j => ?_, hqueue⟩
  rw [hr, hres hb]
  simp

/-- Settles O38: a compute command by the code it raised, a stream command by the code its step raised. -/
theorem onlyListedErrorsAreRaised : Obligations.OnlyListedErrorsAreRaised := by
  unfold Obligations.OnlyListedErrorsAreRaised
  intro i s t h hs ht
  cases hi : i.isStream with
  | false =>
    obtain ⟨e, -, c, hc, rfl⟩ := exec_compute_raises hi h hs ht
    exact ⟨c, hc, rfl⟩
  | true => exact exec_stream_errCode hi h hs ht

/-- Settles O39: a compute command ends in `raise` or in `finish`, and each sets its own flag alone. -/
theorem computeCommandsEndInOneStep : Obligations.ComputeCommandsEndInOneStep := by
  unfold Obligations.ComputeCommandsEndInOneStep
  intro i s t hi h hdone herr hcancelled
  obtain ⟨e, -, ⟨c, -, rfl⟩ | ⟨buf, r, -, rfl⟩⟩ := exec_compute_end hi h
  · have hflags : s.status.done = true ↔ true = false := by simp [hdone]
    exact ⟨⟨rfl, rfl, rfl, rfl⟩, rfl, rfl, hcancelled, hflags, rfl, rfl⟩
  · have hflags : true = true ↔ s.status.err = false := by simp [herr]
    exact ⟨⟨rfl, rfl, rfl, rfl⟩, rfl, rfl, hcancelled, hflags, rfl, rfl⟩

/-- Settles O15: while idle the write is `issue`, while BUSY it sets `OVR`. -/
theorem issueStartsACommand : Obligations.IssueStartsACommand := by
  unfold Obligations.IssueStartsACommand
  intro s v hr
  rw [hostAccess_write_cmd hr]
  constructor
  · intro hb
    rw [writeCmd_idle hb]
    have hzero : ∀ i : Fin 4, ((s.issue v).answer .ok).r[i] = 0 := fun i => by simp
    exact ⟨_, rfl, rfl, rfl, rfl, rfl, rfl, rfl, rfl, hzero, rfl, rfl, rfl, rfl, rfl, rfl, rfl, rfl, rfl, rfl⟩
  · intro hb
    rw [writeCmd_busy hb]
    rfl

end

section
/-! The reset input while it is asserted: accesses are ignored and the engine is held (R370, R372). -/

namespace Sys2Proof.Machine

variable {s : State}

theorem eventStep_rstAssert : eventStep .rstAssert s = .next s.rstAsserted := rfl

theorem eventStep_engine : eventStep .engine s = engineStep s := rfl

/-- Under reset no access reaches the register map, served or not: the check of `rst` comes before that of the access. -/
theorem hostAccess_rst {a : Access} (hr : s.rst = true) :
    hostAccess s a = .next (s.answer (if a.write then .ok else .data 0)) :=
  if_pos hr

end Sys2Proof.Machine

open Sys2Proof Sys2Proof.Machine

/-- Settles O20: the assertion sets `rst` alone, and accesses and the engine look at `rst` before anything else. -/
theorem resetInputHoldsTheCore : Obligations.ResetInputHoldsTheCore := by
  unfold Obligations.ResetInputHoldsTheCore
  refine ⟨fun s => ?_, fun s a hr => ?_, fun s hr => ?_⟩
  · rw [eventStep_rstAssert, State.rstAsserted]
  · exact hostAccess_rst hr
  · rw [eventStep_engine, engineStep_rst hr]

end
